-- ==== Sys2Proof/Word.lean ====
section
/-!
DEFINITION. The word types of the GS15 crypto core: bytes, the 16-bit halves of the cipher, the 32-bit
host words, the 64-bit cipher blocks, the register selectors and the 256-byte tables.
-/

namespace Sys2Proof

/-- A byte (00_scope.md R12). -/
abbrev Byte := BitVec 8

/-- A 16-bit half word of the cipher's round functions (44_block_cipher.md R206 to R210). -/
abbrev Half := BitVec 16

/-- A 32-bit word: a host register, a scalar register, a command word (10_state.md R25, R22; 30_encoding.md R90). -/
abbrev Word := BitVec 32

/-- A 64-bit cipher block (45_chaining_modes.md R230). -/
abbrev Block := BitVec 64

/-- A selector of one of the sixteen big registers `R0..R15` (10_state.md R21). -/
abbrev BigReg := Fin 16

/-- A selector of one of the eight scalar registers `S0..S7` (10_state.md R22). -/
abbrev ScalReg := Fin 8

/-- A table of 256 bytes: the keystream array, the sponge state, an S-box (10_state.md R35, R36, R38). -/
abbrev Table := Vector Byte 256

end Sys2Proof
end

