-- ==== Sys2Proof/Config.lean ====
section
/-!
DEFINITION. The parameter record of an individual core (00_scope.md R8 to R10), its reference value `REF`,
and the two free values of the model: what the spec calls unspecified (20_memory.md R70) and the
round function of a core whose `FI_FN` is not the reference one (00_scope.md R9).
-/

namespace Sys2Proof.Config

/-- A direction of a shift-xor step (00_scope.md R9, `XS_STEPS`). -/
inductive ShiftDir where
  | left
  | right
deriving DecidableEq, Repr

/-- One shift-xor step of the PRNG: a direction and an amount 1..511 (00_scope.md R9). -/
structure XsStep where
  dir : ShiftDir
  amount : Nat
deriving DecidableEq, Repr

/-- Which half of the key material a subkey is cut from: `K` = KEY, `M` = MKEY (44_block_cipher.md R206). -/
inductive KeySource where
  | k
  | m
deriving DecidableEq, Repr

/-- One row of `SUBKEY_TABLE`: source, window offset 0..7, rotation 0..15 (00_scope.md R9). -/
structure SubkeyRow where
  source : KeySource
  offset : Fin 8
  rotation : Fin 16
deriving DecidableEq, Repr

/-- `SUBKEY_TABLE`: one row for each of the eight named subkeys (44_block_cipher.md R206). -/
structure SubkeyTable where
  kl1 : SubkeyRow
  kl2 : SubkeyRow
  ko1 : SubkeyRow
  ko2 : SubkeyRow
  ko3 : SubkeyRow
  ki1 : SubkeyRow
  ki2 : SubkeyRow
  ki3 : SubkeyRow
deriving DecidableEq, Repr

/-- `FI_FN` as plain data: the reference formula of 44_block_cipher.md R207, or another function, named by a
number and left wholly unconstrained (`otherFi`). DESIGN CHOICE (safe), log entry 2. -/
inductive FiFn where
  | ref
  | other (k : Nat)
deriving DecidableEq, Repr

/-- The parameter record of one core (00_scope.md R8, R9). It is constant for the life of the hardware (R10). -/
structure Params where
  /-- `W`: the width in bits of a big register. -/
  w : Nat
  /-- `DM_SIZE`: the bytes of data memory. -/
  dmSize : Nat
  /-- `ID_VALUE`: what the ID register reads. -/
  idValue : Word
  /-- `XS_STEPS`: exactly three shift-xor steps, in order. -/
  xsSteps : Vector XsStep 3
  /-- `HASH_SEED`: the byte string appended to every hash input. -/
  hashSeed : List Byte
  /-- `NUMS`: the constant between KEY and MKEY. -/
  nums : BitVec 128
  /-- `IV_FIXED`: the initial chaining value. -/
  ivFixed : Block
  /-- `SUBKEY_TABLE`. -/
  subkeyTable : SubkeyTable
  /-- `GF16_POLY`: the reduction polynomial, bit 16 set. -/
  gf16Poly : BitVec 17
  /-- `FI_FN`. -/
  fi : FiFn
deriving DecidableEq, Repr

/-- The reference parameter set `REF` of 00_scope.md R8 and R9; its `SUBKEY_TABLE` is the table of
44_block_cipher.md R206. -/
def ref : Params where
  w := 1024
  dmSize := 4096
  idValue := 0x47533135
  xsSteps := #v[⟨.left, 13⟩, ⟨.right, 7⟩, ⟨.left, 17⟩]
  hashSeed := [0x47, 0x53, 0x31, 0x35]
  nums := 0x0123456789ABCDEFFEDCBA9876543210
  ivFixed := 0x0123456789ABCDEF
  subkeyTable :=
    { kl1 := ⟨.k, 0, 1⟩, kl2 := ⟨.m, 2, 0⟩,
      ko1 := ⟨.k, 1, 5⟩, ko2 := ⟨.k, 5, 8⟩, ko3 := ⟨.k, 6, 13⟩,
      ki1 := ⟨.m, 4, 0⟩, ki2 := ⟨.m, 3, 0⟩, ki3 := ⟨.m, 7, 0⟩ }
  gf16Poly := 0x1002B
  fi := .ref

/-- FREE VALUE. The data of an unspecified host read (20_memory.md R62, R70): a fresh 32-bit value for each
count of the counter `State.freeCount`. Nothing constrains it. Log entry 4. -/
opaque freeWord : Nat → Word

/-- FREE VALUE. The round function `FI` of a core whose `FI_FN` is not the reference formula: a function of
the 16-bit data, the 16-bit subkey and the two S-boxes (00_scope.md R9). Nothing constrains it. Log entry 2. -/
opaque otherFi : Nat → Half → Half → Table → Table → Half

end Sys2Proof.Config
end

