-- ==== Sys2Proof/Syntax.lean ====
section
/-!
DEFINITION. The command set GS15-CMD: one constructor for each of the 29 rows of the opcode map
(30_encoding.md R94). The operands are those of the non-zero fields, in the order F1, F2, F3, F4, IMM8 (R93).
-/

namespace Sys2Proof

/-- The chaining mode of ENC and DEC, the immediate 0..3 (30_encoding.md R93, R94). -/
inductive Mode where
  /-- mode 0, 45_chaining_modes.md R231 -/
  | ecb
  /-- mode 1, 45_chaining_modes.md R232 -/
  | cbc
  /-- mode 2, 45_chaining_modes.md R233 -/
  | pcbc
  /-- mode 3, 45_chaining_modes.md R234 -/
  | ctr
deriving DecidableEq, Repr

/-- The S-box that SBLOAD fills, the immediate 0 or 1 (44_block_cipher.md R205). -/
inductive Box where
  /-- immediate 0: `SB1` -/
  | sb1
  /-- immediate 1: `SB2` -/
  | sb2
deriving DecidableEq, Repr

/-- A command of the core (30_encoding.md R94). -/
inductive Instr where
  /-- 0x00 NOP, R250 -/
  | nop
  /-- 0x01 LDR, R251 -/
  | ldr (rd : BigReg) (sSrc sLen : ScalReg)
  /-- 0x02 STR, R252 -/
  | str (sDst : ScalReg) (ra : BigReg) (sLen : ScalReg)
  /-- 0x10 MODMUL, R122 -/
  | modmul (rd ra rb rm : BigReg)
  /-- 0x11 MODEXP, R123 -/
  | modexp (rd ra rb rm : BigReg)
  /-- 0x12 XGCD, R126; a legal `rd` is at most 13 -/
  | xgcd (rd ra rb : BigReg)
  /-- 0x13 MODINV, R127 -/
  | modinv (rd ra rm : BigReg)
  /-- 0x14 MRWIT, R131 -/
  | mrwit (rn rbase : BigReg)
  /-- 0x15 MRTEST, R132 -/
  | mrtest (rn : BigReg) (iters : Byte)
  /-- 0x20 PRSEED, R152 -/
  | prseed (ra : BigReg)
  /-- 0x21 PRNEXT, R153 -/
  | prnext (rd : BigReg)
  /-- 0x30 KSINIT, R163 -/
  | ksinit (sKey sLen sN : ScalReg)
  /-- 0x31 KSNEXT, R164 -/
  | ksnext (sd : ScalReg)
  /-- 0x32 KSBYTES, R165 -/
  | ksbytes (sDst sLen : ScalReg)
  /-- 0x33 KSCIPH, R166 -/
  | ksciph (sDst sSrc sLen : ScalReg)
  /-- 0x34 KSPERM, R167 -/
  | ksperm (sDst : ScalReg)
  /-- 0x40 SPINIT, R185 -/
  | spinit
  /-- 0x41 SPABSB, R186 -/
  | spabsb (sSrc : ScalReg)
  /-- 0x42 SPPERM, R187 -/
  | spperm
  /-- 0x43 SPOUT, R188 -/
  | spout (sDst : ScalReg)
  /-- 0x44 HASH, R189 -/
  | hash (sDst sSrc sLen : ScalReg)
  /-- 0x50 KEYLD, R202 -/
  | keyld (ra : BigReg)
  /-- 0x51 KEYKS, R203 -/
  | keyks
  /-- 0x52 KEYRD, R204 -/
  | keyrd (rd : BigReg)
  /-- 0x53 SBLOAD, R205 -/
  | sbload (box : Box)
  /-- 0x54 BLKENC, R214 -/
  | blkenc (rd ra : BigReg)
  /-- 0x55 BLKDEC, R215 -/
  | blkdec (rd ra : BigReg)
  /-- 0x56 ENC, R235 -/
  | enc (sDst sSrc sLen : ScalReg) (mode : Mode)
  /-- 0x57 DEC, R236 -/
  | dec (sDst sSrc sLen : ScalReg) (mode : Mode)
deriving DecidableEq, Repr

end Sys2Proof
end

