-- ==== Sys2Proof/WellFormed.lean ====
section
/-!
DEFINITION. When a command is well formed (30_encoding.md R95: the operand types carry every other bound, so
XGCD's `rd ≤ 13` is the one check left) and when a parameter record is one of the spec's (00_scope.md R8, R9).
-/

namespace Sys2Proof

/-- A well-formed command: XGCD's three destinations `rd, rd+1, rd+2` are registers (30_encoding.md R91, R95). -/
def Instr.wf : Instr → Bool
  | .nop => true
  | .ldr _ _ _ => true
  | .str _ _ _ => true
  | .modmul _ _ _ _ => true
  | .modexp _ _ _ _ => true
  | .xgcd rd _ _ => decide (rd.val ≤ 13)
  | .modinv _ _ _ => true
  | .mrwit _ _ => true
  | .mrtest _ _ => true
  | .prseed _ => true
  | .prnext _ => true
  | .ksinit _ _ _ => true
  | .ksnext _ => true
  | .ksbytes _ _ => true
  | .ksciph _ _ _ => true
  | .ksperm _ => true
  | .spinit => true
  | .spabsb _ => true
  | .spperm => true
  | .spout _ => true
  | .hash _ _ _ => true
  | .keyld _ => true
  | .keyks => true
  | .keyrd _ => true
  | .sbload _ => true
  | .blkenc _ _ => true
  | .blkdec _ _ => true
  | .enc _ _ _ _ => true
  | .dec _ _ _ _ => true

namespace Config

/-- The remainder of the GF(2) polynomial `a` by `d` (bit `k` the coefficient of `x^k`), by at most `fuel`
subtractions of a shifted `d`. -/
def gf2Mod : Nat → Nat → Nat → Nat
  | 0, a, _ => a
  | fuel + 1, a, d =>
    if a = 0 ∨ Nat.log2 a < Nat.log2 d then a
    else gf2Mod fuel (a ^^^ (d <<< (Nat.log2 a - Nat.log2 d))) d

/-- A polynomial of degree 16 is irreducible over GF(2) when no polynomial of degree 1 to 8 divides it
(00_scope.md R9, `GF16_POLY`). DEDUCED (safe), log entry 10. -/
def gf2Irreducible (p : BitVec 17) : Bool :=
  (List.range 510).all fun k => gf2Mod 17 p.toNat (k + 2) != 0

/-- `W` is a multiple of 32 with `512 ≤ W ≤ 8192` (00_scope.md R8). -/
def wLegal (w : Nat) : Bool := w % 32 == 0 && decide (512 ≤ w) && decide (w ≤ 8192)

/-- `DM_SIZE` is a multiple of 4 with `64 ≤ DM_SIZE ≤ 32768` (00_scope.md R8). -/
def dmSizeLegal (n : Nat) : Bool := n % 4 == 0 && decide (64 ≤ n) && decide (n ≤ 32768)

/-- A shift amount is 1..511 (00_scope.md R9). -/
def xsStepLegal (x : XsStep) : Bool := decide (1 ≤ x.amount) && decide (x.amount ≤ 511)

/-- The parameter record satisfies every constraint of 00_scope.md R8 and R9. The machine runs on any record; claims
name this as a premise (log entry 14). -/
def Params.wf (p : Params) : Bool :=
  wLegal p.w && dmSizeLegal p.dmSize && p.xsSteps.toList.all xsStepLegal
    && decide (p.hashSeed.length ≤ 255) && p.gf16Poly.getLsbD 16 && gf2Irreducible p.gf16Poly

end Config

end Sys2Proof
end

