-- ==== Sys2Proof/Decode.lean ====
section
/-!
DEFINITION. The command decoder, total on all 2^32 words (30_encoding.md R90 to R97), the assembler's encoder
(R93), the opcode map as mask and match rows (R97), and the host's entry `decodeTableWord`.
-/

namespace Sys2Proof

/-! ## Fields (30_encoding.md R90) -/

/-- `OP`, bits 31:24. -/
def opOf (w : Word) : Byte := w.extractLsb' 24 8

/-- `F1`, bits 23:20. -/
def f1Of (w : Word) : BitVec 4 := w.extractLsb' 20 4

/-- `F2`, bits 19:16. -/
def f2Of (w : Word) : BitVec 4 := w.extractLsb' 16 4

/-- `F3`, bits 15:12. -/
def f3Of (w : Word) : BitVec 4 := w.extractLsb' 12 4

/-- `F4`, bits 11:8. -/
def f4Of (w : Word) : BitVec 4 := w.extractLsb' 8 4

/-- `IMM8`, bits 7:0. -/
def imm8Of (w : Word) : Byte := w.extractLsb' 0 8

/-- A field of the command word other than `OP`. -/
inductive Field where
  | f1
  | f2
  | f3
  | f4
  | imm8
deriving DecidableEq, Repr

/-- Why a word is not a legal command (30_encoding.md R95, R97). Every one of them is the one fault
ILLEGAL_CMD for the machine. -/
inductive DecodeError where
  /-- `OP` is in no row of the opcode map -/
  | unknownOpcode
  /-- a `zero` field is not 0 -/
  | notZero (f : Field)
  /-- a `scal` selector is 8..15 -/
  | scalarAbove7 (f : Field)
  /-- XGCD's `F1` is 14 or 15 -/
  | xgcdAbove13
  /-- SBLOAD's, ENC's or DEC's `IMM8` is out of its range -/
  | immOutOfRange
deriving DecidableEq, Repr

/-! ## The uses of a field (30_encoding.md R91, R92) -/

/-- A `zero` field. -/
def zeroField (f : Field) (v : Nat) : Except DecodeError Unit :=
  if v = 0 then .ok () else .error (.notZero f)

/-- A `big` selector: every value names a register. -/
def bigField (v : BitVec 4) : BigReg := ⟨v.toNat, v.isLt⟩

/-- A `scal` selector: 0..7 names a scalar register, 8..15 is illegal. -/
def scalField (f : Field) (v : BitVec 4) : Except DecodeError ScalReg :=
  if h : v.toNat < 8 then .ok ⟨v.toNat, h⟩ else .error (.scalarAbove7 f)

/-- XGCD's `big≤13` selector. -/
def bigField13 (v : BitVec 4) : Except DecodeError BigReg :=
  if v.toNat ≤ 13 then .ok (bigField v) else .error .xgcdAbove13

/-- SBLOAD's immediate, 0..1. -/
def boxField (v : Byte) : Except DecodeError Box :=
  if v = 0 then .ok .sb1 else if v = 1 then .ok .sb2 else .error .immOutOfRange

/-- ENC's and DEC's immediate, 0..3. -/
def modeField (v : Byte) : Except DecodeError Mode :=
  if v = 0 then .ok .ecb
  else if v = 1 then .ok .cbc
  else if v = 2 then .ok .pcbc
  else if v = 3 then .ok .ctr
  else .error .immOutOfRange

/-! ## The decoder (30_encoding.md R97) -/

/-- Decode a command word: look `OP` up, then test each field against its use, F1 first, illegal on the first
violation (30_encoding.md R94, R97). -/
def decode (w : Word) : Except DecodeError Instr :=
  let z1 := zeroField .f1 (f1Of w).toNat
  let z2 := zeroField .f2 (f2Of w).toNat
  let z3 := zeroField .f3 (f3Of w).toNat
  let z4 := zeroField .f4 (f4Of w).toNat
  let z8 := zeroField .imm8 (imm8Of w).toNat
  let b1 := bigField (f1Of w)
  let b2 := bigField (f2Of w)
  let b3 := bigField (f3Of w)
  let b4 := bigField (f4Of w)
  let s1 := scalField .f1 (f1Of w)
  let s2 := scalField .f2 (f2Of w)
  let s3 := scalField .f3 (f3Of w)
  let s4 := scalField .f4 (f4Of w)
  match (opOf w).toNat with
  | 0x00 => do z1; z2; z3; z4; z8; .ok .nop
  | 0x01 => do let src ← s2; let len ← s3; z4; z8; .ok (.ldr b1 src len)
  | 0x02 => do let dst ← s1; let len ← s3; z4; z8; .ok (.str dst b2 len)
  | 0x10 => do z8; .ok (.modmul b1 b2 b3 b4)
  | 0x11 => do z8; .ok (.modexp b1 b2 b3 b4)
  | 0x12 => do let rd ← bigField13 (f1Of w); z4; z8; .ok (.xgcd rd b2 b3)
  | 0x13 => do z3; z8; .ok (.modinv b1 b2 b4)
  | 0x14 => do z1; z4; z8; .ok (.mrwit b2 b3)
  | 0x15 => do z1; z3; z4; .ok (.mrtest b2 (imm8Of w))
  | 0x20 => do z1; z3; z4; z8; .ok (.prseed b2)
  | 0x21 => do z2; z3; z4; z8; .ok (.prnext b1)
  | 0x30 => do z1; let key ← s2; let len ← s3; let n ← s4; z8; .ok (.ksinit key len n)
  | 0x31 => do let sd ← s1; z2; z3; z4; z8; .ok (.ksnext sd)
  | 0x32 => do let dst ← s1; z2; let len ← s3; z4; z8; .ok (.ksbytes dst len)
  | 0x33 => do let dst ← s1; let src ← s2; let len ← s3; z4; z8; .ok (.ksciph dst src len)
  | 0x34 => do let dst ← s1; z2; z3; z4; z8; .ok (.ksperm dst)
  | 0x40 => do z1; z2; z3; z4; z8; .ok .spinit
  | 0x41 => do z1; let src ← s2; z3; z4; z8; .ok (.spabsb src)
  | 0x42 => do z1; z2; z3; z4; z8; .ok .spperm
  | 0x43 => do let dst ← s1; z2; z3; z4; z8; .ok (.spout dst)
  | 0x44 => do let dst ← s1; let src ← s2; let len ← s3; z4; z8; .ok (.hash dst src len)
  | 0x50 => do z1; z3; z4; z8; .ok (.keyld b2)
  | 0x51 => do z1; z2; z3; z4; z8; .ok .keyks
  | 0x52 => do z2; z3; z4; z8; .ok (.keyrd b1)
  | 0x53 => do z1; z2; z3; z4; let box ← boxField (imm8Of w); .ok (.sbload box)
  | 0x54 => do z3; z4; z8; .ok (.blkenc b1 b2)
  | 0x55 => do z3; z4; z8; .ok (.blkdec b1 b2)
  | 0x56 => do
    let dst ← s1; let src ← s2; let len ← s3; z4
    let mode ← modeField (imm8Of w); .ok (.enc dst src len mode)
  | 0x57 => do
    let dst ← s1; let src ← s2; let len ← s3; z4
    let mode ← modeField (imm8Of w); .ok (.dec dst src len mode)
  | _ => .error .unknownOpcode

/-! ## The encoder (30_encoding.md R93, R94) -/

/-- The assembled word `OP·2^24 + F1·2^20 + F2·2^16 + F3·2^12 + F4·2^8 + IMM8` (30_encoding.md R93). -/
def assemble (op f1 f2 f3 f4 imm : Nat) : Word :=
  BitVec.ofNat 32 (op * 2 ^ 24 + f1 * 2 ^ 20 + f2 * 2 ^ 16 + f3 * 2 ^ 12 + f4 * 2 ^ 8 + imm)

/-- SBLOAD's immediate for a box (44_block_cipher.md R205). -/
def Box.imm : Box → Nat
  | .sb1 => 0
  | .sb2 => 1

/-- ENC's and DEC's immediate for a mode (30_encoding.md R93). -/
def Mode.imm : Mode → Nat
  | .ecb => 0
  | .cbc => 1
  | .pcbc => 2
  | .ctr => 3

/-- The `OP` value of a command's row (30_encoding.md R94). -/
def Instr.opcode : Instr → Nat
  | .nop => 0x00
  | .ldr _ _ _ => 0x01
  | .str _ _ _ => 0x02
  | .modmul _ _ _ _ => 0x10
  | .modexp _ _ _ _ => 0x11
  | .xgcd _ _ _ => 0x12
  | .modinv _ _ _ => 0x13
  | .mrwit _ _ => 0x14
  | .mrtest _ _ => 0x15
  | .prseed _ => 0x20
  | .prnext _ => 0x21
  | .ksinit _ _ _ => 0x30
  | .ksnext _ => 0x31
  | .ksbytes _ _ => 0x32
  | .ksciph _ _ _ => 0x33
  | .ksperm _ => 0x34
  | .spinit => 0x40
  | .spabsb _ => 0x41
  | .spperm => 0x42
  | .spout _ => 0x43
  | .hash _ _ _ => 0x44
  | .keyld _ => 0x50
  | .keyks => 0x51
  | .keyrd _ => 0x52
  | .sbload _ => 0x53
  | .blkenc _ _ => 0x54
  | .blkdec _ _ => 0x55
  | .enc _ _ _ _ => 0x56
  | .dec _ _ _ _ => 0x57

/-- The command word of a command, its fields placed as the opcode map says (30_encoding.md R93, R94). -/
def encode (i : Instr) : Word :=
  match i with
  | .nop => assemble 0x00 0 0 0 0 0
  | .ldr rd sSrc sLen => assemble 0x01 rd sSrc sLen 0 0
  | .str sDst ra sLen => assemble 0x02 sDst ra sLen 0 0
  | .modmul rd ra rb rm => assemble 0x10 rd ra rb rm 0
  | .modexp rd ra rb rm => assemble 0x11 rd ra rb rm 0
  | .xgcd rd ra rb => assemble 0x12 rd ra rb 0 0
  | .modinv rd ra rm => assemble 0x13 rd ra 0 rm 0
  | .mrwit rn rbase => assemble 0x14 0 rn rbase 0 0
  | .mrtest rn iters => assemble 0x15 0 rn 0 0 iters.toNat
  | .prseed ra => assemble 0x20 0 ra 0 0 0
  | .prnext rd => assemble 0x21 rd 0 0 0 0
  | .ksinit sKey sLen sN => assemble 0x30 0 sKey sLen sN 0
  | .ksnext sd => assemble 0x31 sd 0 0 0 0
  | .ksbytes sDst sLen => assemble 0x32 sDst 0 sLen 0 0
  | .ksciph sDst sSrc sLen => assemble 0x33 sDst sSrc sLen 0 0
  | .ksperm sDst => assemble 0x34 sDst 0 0 0 0
  | .spinit => assemble 0x40 0 0 0 0 0
  | .spabsb sSrc => assemble 0x41 0 sSrc 0 0 0
  | .spperm => assemble 0x42 0 0 0 0 0
  | .spout sDst => assemble 0x43 sDst 0 0 0 0
  | .hash sDst sSrc sLen => assemble 0x44 sDst sSrc sLen 0 0
  | .keyld ra => assemble 0x50 0 ra 0 0 0
  | .keyks => assemble 0x51 0 0 0 0 0
  | .keyrd rd => assemble 0x52 rd 0 0 0 0
  | .sbload box => assemble 0x53 0 0 0 0 box.imm
  | .blkenc rd ra => assemble 0x54 rd ra 0 0 0
  | .blkdec rd ra => assemble 0x55 rd ra 0 0 0
  | .enc sDst sSrc sLen mode => assemble 0x56 sDst sSrc sLen 0 mode.imm
  | .dec sDst sSrc sLen mode => assemble 0x57 sDst sSrc sLen 0 mode.imm

/-! ## The opcode map as mask and match (30_encoding.md R97) -/

/-- One row of the opcode table: its opcode, its match and its mask. -/
structure Row where
  op : Nat
  value : Word
  mask : Word
deriving DecidableEq, Repr

/-- The 29 rows of the opcode table. -/
def opcodeRows : List Row :=
  [⟨0x00, 0x00000000, 0xFFFFFFFF⟩, ⟨0x01, 0x01000000, 0xFF088FFF⟩, ⟨0x02, 0x02000000, 0xFF808FFF⟩,
   ⟨0x10, 0x10000000, 0xFF0000FF⟩, ⟨0x11, 0x11000000, 0xFF0000FF⟩, ⟨0x12, 0x12000000, 0xFF000FFF⟩,
   ⟨0x13, 0x13000000, 0xFF00F0FF⟩, ⟨0x14, 0x14000000, 0xFFF00FFF⟩, ⟨0x15, 0x15000000, 0xFFF0FF00⟩,
   ⟨0x20, 0x20000000, 0xFFF0FFFF⟩, ⟨0x21, 0x21000000, 0xFF0FFFFF⟩,
   ⟨0x30, 0x30000000, 0xFFF888FF⟩, ⟨0x31, 0x31000000, 0xFF8FFFFF⟩, ⟨0x32, 0x32000000, 0xFF8F8FFF⟩,
   ⟨0x33, 0x33000000, 0xFF888FFF⟩, ⟨0x34, 0x34000000, 0xFF8FFFFF⟩]
  ++
  [⟨0x40, 0x40000000, 0xFFFFFFFF⟩, ⟨0x41, 0x41000000, 0xFFF8FFFF⟩, ⟨0x42, 0x42000000, 0xFFFFFFFF⟩,
   ⟨0x43, 0x43000000, 0xFF8FFFFF⟩, ⟨0x44, 0x44000000, 0xFF888FFF⟩,
   ⟨0x50, 0x50000000, 0xFFF0FFFF⟩, ⟨0x51, 0x51000000, 0xFFFFFFFF⟩, ⟨0x52, 0x52000000, 0xFF0FFFFF⟩,
   ⟨0x53, 0x53000000, 0xFFFFFFFE⟩, ⟨0x54, 0x54000000, 0xFF00FFFF⟩, ⟨0x55, 0x55000000, 0xFF00FFFF⟩,
   ⟨0x56, 0x56000000, 0xFF888FFC⟩, ⟨0x57, 0x57000000, 0xFF888FFC⟩]

/-- A word passes a row: `(w AND mask) = match`, and for XGCD also `F1 ≤ 13` (30_encoding.md R97). -/
def Row.passes (r : Row) (w : Word) : Bool :=
  (w &&& r.mask == r.value) && (r.op != 0x12 || decide ((f1Of w).toNat ≤ 13))

/-! ## The host's entry -/

/-- The instruction the decoder reads from the table word `w` of `nbits` bits, every higher bit 0. A command is
one 32-bit word (30_encoding.md R90), so bit `k` of `w` is bit `k` of the word. -/
def decodeTableWord (nbits w : Nat) : Option Instr :=
  match decode (BitVec.ofNat 32 (w % 2 ^ nbits)) with
  | .ok i => some i
  | .error _ => none

end Sys2Proof
end

