-- ==== Sys2Proof/Machine/State.lean ====
section
/-!
DEFINITION. The state of the core (10_state.md R20), the events of its total order (20_memory.md R71), the fault
causes (60_exceptions.md R301), and the state after reset (10_state.md R42).
-/

namespace Sys2Proof.Machine

open Sys2Proof.Config (Params)

/-- Why the MODEL stops. It has no constructor: nothing of the spec stops the core (93_implementation_defined.md
section 2: every command word decodes, every accepted command completes, every host transaction gets a response).
A command fault of the spec is a next state (60_exceptions.md R303), see `Cause`. -/
inductive Fault
deriving DecidableEq, Repr

/-- Why the model gives an instruction no meaning. -/
inductive Refusal where
  /-- Raised by an arm of `exec` for an instruction not modelled yet; safe. No arm raises it now. -/
  | notModelled (mnemonic : String)
deriving DecidableEq, Repr

/-- The causes of a command fault (60_exceptions.md R301). Each is raised by a command's checks and ends in a
NEXT state, the fault entry of R303; safe. -/
inductive Cause where
  /-- code 1, by every accepted word that is not a legal command -/
  | illegalCmd
  /-- code 2, by PRNEXT, MRTEST -/
  | prngUnseeded
  /-- code 3, by KSNEXT, KSBYTES, KSCIPH, KSPERM, KEYKS, SBLOAD -/
  | ksUninit
  /-- code 4, by KEYRD, BLKENC, BLKDEC, ENC, DEC -/
  | keyUnloaded
  /-- code 5, by BLKENC, BLKDEC, ENC, DEC -/
  | sboxUnloaded
  /-- code 6, by SBLOAD -/
  | sboxSize
  /-- code 7, by the sponge commands -/
  | hcfgInvalid
  /-- code 8, by LDR, STR, KSINIT, DEC -/
  | badLength
  /-- code 9, by every command that names a range of DM -/
  | dmBounds
  /-- code 10, by PRSEED, MRWIT -/
  | badOperand
  /-- code 11, by MODMUL, MODEXP, MODINV -/
  | divZero
  /-- code 12, by MODINV -/
  | notInvertible
deriving DecidableEq, Repr

/-- An event of the total order of 20_memory.md R71: a host transaction (R62), the engine's turn to complete the
command in flight (60_exceptions.md R304), or the platform's reset (70_reset_and_hazards.md R340). -/
inductive Event where
  /-- the host reads 32 bits at a byte address of the window -/
  | read (addr : BitVec 16)
  /-- the host writes 32 bits at a byte address of the window -/
  | write (addr : BitVec 16) (data : Word)
  /-- a host transaction of another width than 32 bits, a read or a write (R62: response ERROR;
  log entry 13) -/
  | otherWidth (isWrite : Bool) (addr : BitVec 16)
  /-- the engine completes the command in flight, if there is one -/
  | engine
  /-- the platform resets the core -/
  | reset
deriving DecidableEq, Repr

/-- The response of a host transaction (20_memory.md R62). -/
inductive BusResponse where
  /-- a read with response OK and its data -/
  | readOk (data : Word)
  /-- a read with response ERROR; the data is unspecified, a free value -/
  | readError (data : Word)
  /-- a write with response OK -/
  | writeOk
  /-- a write with response ERROR -/
  | writeError
deriving DecidableEq, Repr

/-- The data memory (10_state.md R39) as a list of the bytes that are not 0: addresses strictly rising, no entry
with the byte 0, which every unlisted address reads as (R42: every byte 0 after reset; log entry 12). -/
structure Memory where
  cells : List Host.Cell
deriving DecidableEq, Repr

/-- The keystream unit but for its validity flag (10_state.md R35). -/
structure Keystream where
  /-- `KS.S[0..255]` -/
  s : Table
  /-- `KS.N`, 0..256 -/
  n : BitVec 9
  /-- `KS.I` -/
  i : Byte
  /-- `KS.J` -/
  j : Byte
deriving DecidableEq, Repr

/-- The state of the core (10_state.md R20). The last three fields are the MODEL's own; `params` is the
parameter record, constant for the life of the hardware (00_scope.md R10). -/
structure State where
  /-- the parameter record of this core (00_scope.md R8, R9) -/
  params : Params
  /-- `R[0..15]`, each an unsigned integer below `2^W` (10_state.md R21) -/
  bigRegs : Vector Nat 16
  /-- `S[0..7]` (R22) -/
  scalRegs : Vector Word 8
  /-- `DM` (R39) -/
  dm : Memory
  /-- `XS` (R34) -/
  xs : BitVec 512
  /-- `XSV` (R34) -/
  xsv : Bool
  /-- `KS.S`, `KS.N`, `KS.I`, `KS.J` (R35) -/
  ks : Keystream
  /-- `KSV` (R35) -/
  ksv : Bool
  /-- `ST[0..255]` (R36) -/
  st : Table
  /-- `KEY` (R37) -/
  key : BitVec 128
  /-- `MKEY` (R37) -/
  mkey : BitVec 128
  /-- `KEYV` (R37) -/
  keyv : Bool
  /-- `SB1` (R38) -/
  sb1 : Table
  /-- `SB2` (R38) -/
  sb2 : Table
  /-- `SB1V` (R38) -/
  sb1v : Bool
  /-- `SB2V` (R38) -/
  sb2v : Bool
  /-- `HCFG.H` (R31) -/
  hashLen : Byte
  /-- `HCFG.SQUISH` (R31) -/
  squish : Byte
  /-- `STATUS.BUSY` (R28) -/
  busy : Bool
  /-- `STATUS.DONE` (R28) -/
  done : Bool
  /-- `STATUS.ERR` (R28) -/
  err : Bool
  /-- `STATUS.OVR` (R28) -/
  ovr : Bool
  /-- `STATUS.PRIME` (R24, R28) -/
  prime : Bool
  /-- `FAULT.CAUSE` (R29) -/
  faultCause : Byte
  /-- `FCMD` (R29) -/
  fcmd : Word
  /-- `IEN.IE_DONE` (R30) -/
  ieDone : Bool
  /-- `IEN.IE_ERR` (R30) -/
  ieErr : Bool
  /-- `CMDLATCH` (R40; it keeps its word after the completion: DESIGN CHOICE, log entry 11) -/
  cmdLatch : Word
  /-- MODEL: the events to come of the total order, oldest first (20_memory.md R71; log entry 3) -/
  pending : List Event
  /-- MODEL: the response of the host transaction made last, if any since reset (20_memory.md R62; log entry 5) -/
  bus : Option BusResponse
  /-- MODEL: how many free words have been drawn (20_memory.md R70; log entry 4) -/
  freeCount : Nat
deriving DecidableEq, Repr

/-- The 256-byte table of zeros. -/
def Table.zero : Table := Vector.replicate 256 0

/-- The state right after reset of a core with the parameter record `p` (10_state.md R42): nothing pending, no
response yet, no free word drawn. -/
def State.resetOf (p : Params) : State where
  params := p
  bigRegs := Vector.replicate 16 0
  scalRegs := Vector.replicate 8 0
  dm := ⟨[]⟩
  xs := 0
  xsv := false
  ks := { s := Table.zero, n := 0, i := 0, j := 0 }
  ksv := false
  st := Table.zero
  key := 0
  mkey := 0
  keyv := false
  sb1 := Table.zero
  sb2 := Table.zero
  sb1v := false
  sb2v := false
  hashLen := 32
  squish := 3
  busy := false
  done := false
  err := false
  ovr := false
  prime := false
  faultCause := 0
  fcmd := 0
  ieDone := false
  ieErr := false
  cmdLatch := 0
  pending := []
  bus := none
  freeCount := 0

/-- The machine right after reset (10_state.md R42), as the core with the reference parameters `REF`
(00_scope.md R8, R9; log entry 1). -/
def State.reset : State := State.resetOf Config.ref

end Sys2Proof.Machine
end

