-- ==== Sys2Proof/Machine/Ops.lean ====
section
/-!
DEFINITION. The named operations: integers and bytes (00_scope.md R11 to R13), the data memory (20_memory.md R63),
the tables, and the command lifecycle: acceptance, completion, and fault entry as ONE shared operation with the
acknowledge beside it (60_exceptions.md R303, R304, R306).
-/

namespace Sys2Proof.Machine

open Sys2Proof.Config (Params)

/-- What a command's meaning answers. -/
abbrev Result := Host.Outcome State Fault Refusal

/-! ## Integers and bytes -/

/-- `le_int(b)`: byte 0 least significant (00_scope.md R12). -/
def leInt : List Byte → Nat
  | [] => 0
  | b :: bs => b.toNat + 256 * leInt bs

/-- `le_bytes(v, n)`: byte `k` is bits `[8k+7:8k]` of `v`; bits at or above `8n` are dropped (00_scope.md R12).
The count comes first. -/
def leBytes : Nat → Nat → List Byte
  | 0, _ => []
  | n + 1, v => BitVec.ofNat 8 v :: leBytes n (v / 256)

/-- `rotl16(v, k)` for `0 ≤ k ≤ 15` (00_scope.md R13). -/
def rotl16 (v : Half) (k : Nat) : Half := if k = 0 then v else (v <<< k) ||| (v >>> (16 - k))

/-- `ceil(n / 8)` (00_scope.md R11, 45_chaining_modes.md R230). -/
def ceilDiv8 (n : Nat) : Nat := (n + 7) / 8

/-- The first `count` pieces of `size` bytes each of a byte string. -/
def pieces (size : Nat) : Nat → List Byte → List (List Byte)
  | 0, _ => []
  | count + 1, m => m.take size :: pieces size count (m.drop size)

/-! ## Tables of 256 bytes -/

/-- Entry `i` of a table. -/
def Table.at (t : Table) (i : Byte) : Byte := t.get i.toFin

/-- Exchange entries `i` and `j` of a table. -/
def Table.swap (t : Table) (i j : Byte) : Table :=
  (t.set i.toFin (Table.at t j)).set j.toFin (Table.at t i)

/-- The first `n` entries of a table. -/
def Table.first (t : Table) (n : Nat) : List Byte := t.toList.take n

/-! ## The data memory -/

/-- The byte that an unlisted address reads as: every byte of DM is 0 after reset (10_state.md R39, R42). -/
def Memory.unlisted : Byte := 0

/-- Read one byte. -/
def Memory.read (m : Memory) (a : Nat) : Byte :=
  match m.cells.lookup a with
  | some b => b
  | none => Memory.unlisted

/-- Put a byte into a rising list of cells, keeping it rising and without a byte equal to `Memory.unlisted`. -/
def putCell (a : Nat) (b : Byte) : List Host.Cell → List Host.Cell
  | [] => if b = Memory.unlisted then [] else [(a, b)]
  | (a', b') :: cs =>
    if a < a' then
      if b = Memory.unlisted then (a', b') :: cs else (a, b) :: (a', b') :: cs
    else if a = a' then
      if b = Memory.unlisted then cs else (a, b) :: cs
    else (a', b') :: putCell a b cs

/-- Write one byte. -/
def Memory.write (m : Memory) (a : Nat) (b : Byte) : Memory := ⟨putCell a b m.cells⟩

/-- `MemRead(addr, n)` (00_scope.md R14): the bytes `DM[addr..addr+n)`. The count comes first. -/
def Memory.readBytes (m : Memory) : Nat → Nat → List Byte
  | 0, _ => []
  | n + 1, a => m.read a :: Memory.readBytes m n (a + 1)

/-- `MemWrite(addr, n, b)` with `n` the length of `b` (00_scope.md R14): `DM[addr+k] <- b[k]`. -/
def Memory.writeBytes (m : Memory) (a : Nat) : List Byte → Memory
  | [] => m
  | b :: bs => Memory.writeBytes (m.write a b) (a + 1) bs

/-- The cells stand in the canonical form: addresses strictly rising, no byte equal to `Memory.unlisted`. -/
def cellsOk : List Host.Cell → Bool
  | [] => true
  | [(_, b)] => b != Memory.unlisted
  | (a, b) :: (a', b') :: cs => b != Memory.unlisted && decide (a < a') && cellsOk ((a', b') :: cs)

/-- The memory is in its canonical form. -/
def Memory.wf (m : Memory) : Bool := cellsOk m.cells

/-- Every listed address lies below `n`. -/
def Memory.below (m : Memory) (n : Nat) : Bool := m.cells.all fun c => decide (c.1 < n)

/-- The DM_BOUNDS check of the range `(addr, n)` fails: `addr + n > DM_SIZE` over the integers, also for `n = 0`
(20_memory.md R63). -/
def State.outOfDm (s : State) (addr n : Nat) : Bool := decide (addr + n > s.params.dmSize)

/-- `MemRead(addr, n)` of the core's data memory. -/
def State.load (s : State) (addr n : Nat) : List Byte := s.dm.readBytes n addr

/-- `MemWrite(addr, n, b)` of the core's data memory. -/
def State.store (s : State) (addr : Nat) (bs : List Byte) : State := { s with dm := s.dm.writeBytes addr bs }

/-! ## The command lifecycle (60_exceptions.md R304) -/

/-- The 8-bit code of a fault cause (60_exceptions.md R301). -/
def Cause.code : Cause → Byte
  | .illegalCmd => 1
  | .prngUnseeded => 2
  | .ksUninit => 3
  | .keyUnloaded => 4
  | .sboxUnloaded => 5
  | .sboxSize => 6
  | .hcfgInvalid => 7
  | .badLength => 8
  | .dmBounds => 9
  | .badOperand => 10
  | .divZero => 11
  | .notInvertible => 12

/-- FAULT ENTRY (60_exceptions.md R303): BUSY falls, ERR rises, FAULT.CAUSE takes the code and FCMD the command
word; nothing else changes. -/
def State.faultEntry (s : State) (c : Cause) : State :=
  { s with busy := false, err := true, faultCause := c.code, fcmd := s.cmdLatch }

/-- Completion without fault (60_exceptions.md R304): BUSY falls and DONE rises. -/
def State.finish (s : State) : State := { s with busy := false, done := true }

/-- The acknowledge of a fault, the write of 1 to STATUS.ERR (60_exceptions.md R306): ERR falls, nothing is
restored because nothing was saved or changed. -/
def State.acknowledge (s : State) : State := { s with err := false }

/-- A host write that cannot be taken: OVR rises, nothing else changes (60_exceptions.md R307). -/
def State.dropWrite (s : State) : State := { s with ovr := true }

/-- Acceptance of the command word `w` (10_state.md R27, 60_exceptions.md R304). -/
def State.accept (s : State) (w : Word) : State := { s with cmdLatch := w, busy := true, done := false }

/-- A host write of `w` to CMD: accepted iff BUSY = 0 and ERR = 0, else dropped (60_exceptions.md R304). -/
def State.issue (s : State) (w : Word) : State :=
  if s.busy = false ∧ s.err = false then s.accept w else s.dropWrite

/-- The command faults with cause `c` (00_scope.md R14, `raise Fault(CODE)`). -/
def raise (c : Cause) (s : State) : Result := .next (s.faultEntry c)

/-- The command completes in the state `s`, which already holds all its writes. -/
def succeed (s : State) : Result := .next s.finish

end Sys2Proof.Machine
end

