-- ==== Sys2Proof/Machine/Flags.lean ====
section
/-!
DEFINITION. The flags: the STATUS word and its write-one-to-clear bits (10_state.md R24, R28), the PRIME verdict,
the interrupt enables and the interrupt line (10_state.md R30, 60_exceptions.md R308).
-/

namespace Sys2Proof.Machine

/-- Bit `k` of a 32-bit word set to `b`, every other bit 0. -/
def flagBit (k : Nat) (b : Bool) : Word := if b then 1 <<< k else 0

/-- The STATUS register (10_state.md R28); bits 7:5 and 31:13 read 0. -/
def State.statusWord (s : State) : Word :=
  flagBit 0 s.busy ||| flagBit 1 s.done ||| flagBit 2 s.err ||| flagBit 3 s.ovr ||| flagBit 4 s.prime
    ||| flagBit 8 s.xsv ||| flagBit 9 s.ksv ||| flagBit 10 s.keyv ||| flagBit 11 s.sb1v ||| flagBit 12 s.sb2v

/-- A host write of `w` to STATUS clears each of DONE, ERR, OVR whose written bit is 1; written bits at other
positions are ignored (10_state.md R28). Clearing ERR is the acknowledge of a fault (60_exceptions.md R306). -/
def State.clearStatus (s : State) (w : Word) : State :=
  let s := if w.getLsbD 2 then s.acknowledge else s
  { s with done := s.done && !w.getLsbD 1, ovr := s.ovr && !w.getLsbD 3 }

/-- Write STATUS.PRIME (10_state.md R24): the verdict of MRWIT or MRTEST. -/
def State.setPrime (s : State) (b : Bool) : State := { s with prime := b }

/-- The IEN register (10_state.md R30); bits 31:2 read 0. -/
def State.ienWord (s : State) : Word := flagBit 0 s.ieDone ||| flagBit 1 s.ieErr

/-- A host write to IEN (10_state.md R30). -/
def State.setIen (s : State) (w : Word) : State := { s with ieDone := w.getLsbD 0, ieErr := w.getLsbD 1 }

/-- The interrupt output (60_exceptions.md R308), at every instant a function of the state (log entry 15). -/
def State.irq (s : State) : Bool := (s.done && s.ieDone) || (s.err && s.ieErr)

end Sys2Proof.Machine
end

