-- ==== Sys2Proof/Machine/Operands.lean ====
section
/-!
DEFINITION. The operand forms (30_encoding.md R92): big-register selectors, scalar-register selectors whose values
are addresses, lengths and sizes, and the one operation that writes each register file.
-/

namespace Sys2Proof.Machine

/-- `R[k]` (00_scope.md R14, 10_state.md R21). -/
def State.big (s : State) (k : BigReg) : Nat := s.bigRegs.get k

/-- `R[k] <- v` (00_scope.md R14). A big register holds `W` bits; every value a rule writes is below `2^W`.
DEDUCED (safe), log entry 7. -/
def State.setBig (s : State) (k : BigReg) (v : Nat) : State :=
  { s with bigRegs := s.bigRegs.set k (v % 2 ^ s.params.w) }

/-- `S[k]` (00_scope.md R14, 10_state.md R22). -/
def State.scal (s : State) (k : ScalReg) : Word := s.scalRegs.get k

/-- The VALUE of `S[k]` as an address, a length or a size: unsigned, not extended, scaled or shifted
(30_encoding.md R92). -/
def State.scalNat (s : State) (k : ScalReg) : Nat := (s.scal k).toNat

/-- `S[k] <- v` (00_scope.md R14). -/
def State.setScal (s : State) (k : ScalReg) (v : Word) : State :=
  { s with scalRegs := s.scalRegs.set k v }

/-- `x mod 2^W` of a signed Bezout coefficient: two's complement (00_scope.md R11, 40_number_theory.md R126). -/
def State.twos (s : State) (x : Int) : Nat := (x % (2 ^ s.params.w : Nat)).toNat

/-- The hash length `H = HCFG.H` in bytes (43_sponge_hash.md R180). -/
def State.hLen (s : State) : Nat := s.hashLen.toNat

/-- The squeeze count `SQUISH = HCFG.SQUISH` (43_sponge_hash.md R180). -/
def State.squishCount (s : State) : Nat := s.squish.toNat

/-- The bytes of a big register, `W/8` (46_move_and_nop.md R251, R252). -/
def State.bigBytes (s : State) : Nat := s.params.w / 8

end Sys2Proof.Machine
end

