-- ==== Sys2Proof/Machine/Keystream.lean ====
section
/-!
DEFINITION. The keystream unit and the meanings of KSINIT, KSNEXT, KSBYTES, KSCIPH, KSPERM
(42_keystream.md R160 to R168).
-/

namespace Sys2Proof.Machine

/-! ## The unit -/

/-- The identity on `0..n-1`, 0 from `n` on (R161, first line). -/
def identityTable (n : Nat) : Table :=
  Vector.ofFn fun k : Fin 256 => if k.val < n then BitVec.ofNat 8 k.val else 0

/-- `j + T[i] + key[i mod L]`, reduced modulo `n` (R161). -/
def ksaIndex (key : List Byte) (n : Nat) (t : Table) (i : Nat) (j : Byte) : Byte :=
  BitVec.ofNat 8
    ((j.toNat + (Table.at t (BitVec.ofNat 8 i)).toNat + (key.getD (i % key.length) 0).toNat) % n)

/-- The swap loop of the key schedule from index `i` on, `count` turns (R161). -/
def ksaLoop (key : List Byte) (n : Nat) : Nat → Nat → Byte → Table → Table
  | 0, _, _, t => t
  | count + 1, i, j, t =>
    ksaLoop key n count (i + 1) (ksaIndex key n t i j)
      (Table.swap t (BitVec.ofNat 8 i) (ksaIndex key n t i j))

/-- `ks_init(key, N)` for a non-empty key and `1 ≤ N ≤ 256` (R161): the unit it leaves. -/
def ksInit (key : List Byte) (n : Nat) : Keystream where
  s := ksaLoop key n n 0 0 (identityTable n)
  n := BitVec.ofNat 9 n
  i := 0
  j := 0

/-- `KS.I + 1`, reduced modulo `KS.N` (R162). -/
def Keystream.nextI (u : Keystream) : Byte := BitVec.ofNat 8 ((u.i.toNat + 1) % u.n.toNat)

/-- `KS.J + KS.S[KS.I]` for the new `KS.I`, reduced modulo `KS.N` (R162). -/
def Keystream.nextJ (u : Keystream) : Byte :=
  BitVec.ofNat 8 ((u.j.toNat + (Table.at u.s u.nextI).toNat) % u.n.toNat)

/-- The unit after one output step (R162). -/
def Keystream.advance (u : Keystream) : Keystream where
  s := Table.swap u.s u.nextI u.nextJ
  n := u.n
  i := u.nextI
  j := u.nextJ

/-- The byte of a unit that has just advanced: `KS.S[(KS.S[KS.I] + KS.S[KS.J]) mod KS.N]` (R162). -/
def Keystream.output (u : Keystream) : Byte :=
  Table.at u.s
    (BitVec.ofNat 8 (((Table.at u.s u.i).toNat + (Table.at u.s u.j).toNat) % u.n.toNat))

/-- `ks_next()` (R162): the byte and the unit after it. -/
def ksNext (u : Keystream) : Byte × Keystream := (u.advance.output, u.advance)

/-- `n` calls of `ks_next` in order: the bytes and the unit after them (R165). -/
def ksTake : Nat → Keystream → List Byte × Keystream
  | 0, u => ([], u)
  | n + 1, u => ((ksNext u).1 :: (ksTake n (ksNext u).2).1, (ksTake n (ksNext u).2).2)

/-- XOR of two byte strings, byte by byte (R166). -/
def xorBytes (a b : List Byte) : List Byte := List.zipWith (fun x y => x ^^^ y) a b

/-- The entries in use, `KS.S[0..KS.N)`. -/
def Keystream.used (u : Keystream) : List Byte := Table.first u.s u.n.toNat

/-- The KSST register (10_state.md R32): `KS.J`, `KS.I`, seven zero bits, `KS.N`. -/
def Keystream.statusWord (u : Keystream) : Word :=
  BitVec.ofNat 32 (u.j.toNat * 2 ^ 24 + u.i.toNat * 2 ^ 16 + u.n.toNat)

/-- The unit takes the value `u`; its validity flag stays. -/
def State.setKs (s : State) (u : Keystream) : State := { s with ks := u }

/-- `ks_init(key, N)` on the core's unit, KSV set (R161). -/
def State.initKs (s : State) (key : List Byte) (n : Nat) : State :=
  { s with ks := ksInit key n, ksv := true }

/-! ## The commands -/

/-- KSINIT `sKey, sLen, sN` (R163): key the unit from DM. -/
def execKsinit (sKey sLen sN : ScalReg) (s : State) : Result :=
  let n := s.scalNat sN
  let len := s.scalNat sLen
  if n < 1 ∨ n > 256 ∨ len = 0 then raise .badLength s
  else if s.outOfDm (s.scalNat sKey) len then raise .dmBounds s
  else succeed (s.initKs (s.load (s.scalNat sKey) len) n)

/-- KSNEXT `sd` (R164): one output byte into a scalar register. -/
def execKsnext (sd : ScalReg) (s : State) : Result :=
  if s.ksv = false then raise .ksUninit s
  else succeed ((s.setKs (ksNext s.ks).2).setScal sd ((ksNext s.ks).1.setWidth 32))

/-- KSBYTES `sDst, sLen` (R165): `n` output bytes into DM. -/
def execKsbytes (sDst sLen : ScalReg) (s : State) : Result :=
  let n := s.scalNat sLen
  if s.ksv = false then raise .ksUninit s
  else if s.outOfDm (s.scalNat sDst) n then raise .dmBounds s
  else succeed ((s.setKs (ksTake n s.ks).2).store (s.scalNat sDst) (ksTake n s.ks).1)

/-- KSCIPH `sDst, sSrc, sLen` (R166): XOR `n` bytes of DM with the keystream. -/
def execKsciph (sDst sSrc sLen : ScalReg) (s : State) : Result :=
  let n := s.scalNat sLen
  if s.ksv = false then raise .ksUninit s
  else if s.outOfDm (s.scalNat sSrc) n || s.outOfDm (s.scalNat sDst) n then raise .dmBounds s
  else succeed ((s.setKs (ksTake n s.ks).2).store (s.scalNat sDst)
    (xorBytes (s.load (s.scalNat sSrc) n) (ksTake n s.ks).1))

/-- KSPERM `sDst` (R167): the array as it stands, `KS.N` bytes, into DM. -/
def execKsperm (sDst : ScalReg) (s : State) : Result :=
  if s.ksv = false then raise .ksUninit s
  else if s.outOfDm (s.scalNat sDst) s.ks.n.toNat then raise .dmBounds s
  else succeed (s.store (s.scalNat sDst) s.ks.used)

end Sys2Proof.Machine
end

