-- ==== Sys2Proof/Machine/Bus.lean ====
section
/-!
DEFINITION. The host window: the address map (20_memory.md R61, 10_state.md R25), what a read returns and what a
write does, idle and while BUSY (20_memory.md R62 to R70), and the reset event (70_reset_and_hazards.md R340).
-/

namespace Sys2Proof.Machine

open Sys2Proof.Config (Params)

/-- What a mapped, aligned byte address of the host window names (10_state.md R25). -/
inductive Target where
  | id
  | cmd
  | status
  | fault
  | fcmd
  | ien
  | hcfg
  | ksst
  | scal (k : ScalReg)
  | ivlo
  | ivhi
  | capw
  | capdm
  /-- word `j` of `R[k]` (20_memory.md R65) -/
  | bigWord (k : BigReg) (j : Nat)
  /-- the DM word at byte address `a` (20_memory.md R66) -/
  | dmWord (a : Nat)
deriving DecidableEq, Repr

/-- The control registers, byte offsets below 0x50 that are multiples of 4 (10_state.md R25). -/
def controlTarget (a : Nat) : Option Target :=
  match a with
  | 0x00 => some .id
  | 0x04 => some .cmd
  | 0x08 => some .status
  | 0x0C => some .fault
  | 0x10 => some .fcmd
  | 0x14 => some .ien
  | 0x18 => some .hcfg
  | 0x1C => some .ksst
  | 0x20 => some (.scal 0)
  | 0x24 => some (.scal 1)
  | 0x28 => some (.scal 2)
  | 0x2C => some (.scal 3)
  | 0x30 => some (.scal 4)
  | 0x34 => some (.scal 5)
  | 0x38 => some (.scal 6)
  | 0x3C => some (.scal 7)
  | 0x40 => some .ivlo
  | 0x44 => some .ivhi
  | 0x48 => some .capw
  | 0x4C => some .capdm
  | _ => none

/-- What a byte address of the window names: nothing when it is misaligned or unmapped (20_memory.md R61, R62). -/
def target (p : Params) (addr : BitVec 16) : Option Target :=
  let a := addr.toNat
  if a % 4 ≠ 0 then none
  else if a < 0x50 then controlTarget a
  else if 0x4000 ≤ a ∧ a < 0x4000 + 2 * p.w then
    some (.bigWord (Fin.ofNat 16 ((a - 0x4000) / (p.w / 8))) ((a - 0x4000) % (p.w / 8) / 4))
  else if 0x8000 ≤ a ∧ a < 0x8000 + p.dmSize then some (.dmWord (a - 0x8000))
  else none

/-- Bits `[32j+31:32j]` of an integer (20_memory.md R64, R65). -/
def wordOf (v j : Nat) : Word := BitVec.ofNat 32 (v / 2 ^ (32 * j))

/-- The integer with its bits `[32j+31:32j]` replaced by a word, every other bit kept (20_memory.md R65). -/
def putWord (v j : Nat) (d : Word) : Nat :=
  v % 2 ^ (32 * j) + d.toNat * 2 ^ (32 * j) + v / 2 ^ (32 * j + 32) * 2 ^ (32 * j + 32)

/-- The current value of a register of the window (10_state.md R25 to R33, 20_memory.md R65, R66). -/
def State.peek (s : State) : Target → Word
  | .id => s.params.idValue
  | .cmd => 0
  | .status => s.statusWord
  | .fault => s.faultCause.setWidth 32
  | .fcmd => s.fcmd
  | .ien => s.ienWord
  | .hcfg => s.squish.setWidth 32 <<< 8 ||| s.hashLen.setWidth 32
  | .ksst => s.ks.statusWord
  | .scal k => s.scal k
  | .ivlo => s.params.ivFixed.extractLsb' 0 32
  | .ivhi => s.params.ivFixed.extractLsb' 32 32
  | .capw => BitVec.ofNat 32 s.params.w
  | .capdm => BitVec.ofNat 32 s.params.dmSize
  | .bigWord k j => wordOf (s.big k) j
  | .dmWord a => BitVec.ofNat 32 (leInt (s.load a 4))

/-- The registers whose reads are unspecified while BUSY = 1 (20_memory.md R70 (b)). -/
def Target.hiddenWhileBusy : Target → Bool
  | .id => false
  | .cmd => false
  | .status => false
  | .fault => false
  | .fcmd => false
  | .ien => false
  | .hcfg => false
  | .ksst => true
  | .scal _ => true
  | .ivlo => false
  | .ivhi => false
  | .capw => false
  | .capdm => false
  | .bigWord _ _ => true
  | .dmWord _ => true

/-- A fresh unspecified word: FREE VALUE (20_memory.md R62, R70; log entry 4). -/
def State.freeWord (s : State) : Word := Config.freeWord s.freeCount

/-- Record the response of a host transaction. -/
def State.respond (s : State) (r : BusResponse) : State := { s with bus := some r }

/-- Record a response whose data is a fresh unspecified word, and count that draw. -/
def State.respondFree (s : State) (r : Word → BusResponse) : State :=
  { s with bus := some (r s.freeWord), freeCount := s.freeCount + 1 }

/-- A host read (20_memory.md R62, R67, R70): it changes nothing of the core. -/
def State.hostRead (s : State) (addr : BitVec 16) : State :=
  match target s.params addr with
  | none => s.respondFree .readError
  | some t => if s.busy && t.hiddenWhileBusy then s.respondFree .readOk else s.respond (.readOk (s.peek t))

/-- A host write that BUSY drops (20_memory.md R70 (e)). -/
def State.unlessBusy (s t : State) : State := if s.busy then s.dropWrite else t

/-- What a host write of `d` does to the core (20_memory.md R67, R70): read-only registers ignore it. -/
def State.poke (s : State) (t : Target) (d : Word) : State :=
  match t with
  | .id => s
  | .cmd => s.issue d
  | .status => s.clearStatus d
  | .fault => s
  | .fcmd => s
  | .ien => s.setIen d
  | .hcfg => s.unlessBusy { s with hashLen := d.extractLsb' 0 8, squish := d.extractLsb' 8 8 }
  | .ksst => s
  | .scal k => s.unlessBusy (s.setScal k d)
  | .ivlo => s
  | .ivhi => s
  | .capw => s
  | .capdm => s
  | .bigWord k j => s.unlessBusy (s.setBig k (putWord (s.big k) j d))
  | .dmWord a => s.unlessBusy (s.store a (leBytes 4 d.toNat))

/-- A host write (20_memory.md R62, R310): response OK at every mapped address, even when the write is dropped or
ignored; response ERROR and no effect elsewhere. -/
def State.hostWrite (s : State) (addr : BitVec 16) (d : Word) : State :=
  match target s.params addr with
  | none => s.respond .writeError
  | some t => (s.poke t d).respond .writeOk

/-- A host transaction of another width than 32 bits: response ERROR, no effect (20_memory.md R62). -/
def State.hostOtherWidth (s : State) (isWrite : Bool) : State :=
  if isWrite then s.respond .writeError else s.respondFree .readError

/-- RESET (70_reset_and_hazards.md R340, 10_state.md R42): every piece of state takes its reset value, a command in
flight is abandoned; the parameter record stays (00_scope.md R10). The model's own fields: the events to come and
the count of free words stay, there is no response (log entries 3 to 5). -/
def State.resetEvent (s : State) : State :=
  { State.resetOf s.params with pending := s.pending, freeCount := s.freeCount }

end Sys2Proof.Machine
end

