-- ==== Sys2Proof/Machine/Cipher.lean ====
section
/-!
DEFINITION. The block cipher and the meanings of KEYLD, KEYKS, KEYRD, SBLOAD, BLKENC, BLKDEC
(44_block_cipher.md R200 to R216).
-/

namespace Sys2Proof.Machine

open Sys2Proof.Config (Params KeySource SubkeyRow FiFn)

/-- All that a block's encryption depends on (R216). -/
structure CipherCtx where
  params : Params
  key : BitVec 128
  mkey : BitVec 128
  sb1 : Table
  sb2 : Table
deriving DecidableEq, Repr

/-- The cipher context that the core holds. -/
def State.cipherCtx (s : State) : CipherCtx where
  params := s.params
  key := s.key
  mkey := s.mkey
  sb1 := s.sb1
  sb2 := s.sb2

/-! ## Subkeys (R206) -/

/-- The eight subkeys of one round. -/
structure Subkeys where
  kl1 : Half
  kl2 : Half
  ko1 : Half
  ko2 : Half
  ko3 : Half
  ki1 : Half
  ki2 : Half
  ki3 : Half
deriving DecidableEq, Repr

/-- Window `w` of a key: bits `[16w+15:16w]` (R206). -/
def keyWindow (k : BitVec 128) (w : Nat) : Half := k.extractLsb' (16 * w) 16

/-- The subkey of one row for round `i`: `rotl16(src[(i + off) mod 8], rot)` (R206). -/
def subkey (c : CipherCtx) (i : Nat) (row : SubkeyRow) : Half :=
  let src := match row.source with
    | .k => c.key
    | .m => c.mkey
  rotl16 (keyWindow src ((i + row.offset.val) % 8)) row.rotation.val

/-- The subkeys of round `i` (R206); they are recomputed at each use. -/
def subkeys (c : CipherCtx) (i : Nat) : Subkeys :=
  let t := c.params.subkeyTable
  { kl1 := subkey c i t.kl1, kl2 := subkey c i t.kl2,
    ko1 := subkey c i t.ko1, ko2 := subkey c i t.ko2, ko3 := subkey c i t.ko3,
    ki1 := subkey c i t.ki1, ki2 := subkey c i t.ki2, ki3 := subkey c i t.ki3 }

/-! ## The round functions (R207 to R211) -/

/-- The reference formula of `FI(y, z)` (R207). -/
def fiRef (sb1 sb2 : Table) (y z : Half) : Half :=
  let v := y ^^^ z
  (Table.at sb1 (v.extractLsb' 8 8) ++ Table.at sb2 (v.extractLsb' 0 8)) ^^^ rotl16 y 8

/-- `FI(y, z)` of this core: the parameter `FI_FN` (00_scope.md R9, R207; log entry 2). -/
def fi (c : CipherCtx) (y z : Half) : Half :=
  match c.params.fi with
  | .ref => fiRef c.sb1 c.sb2 y z
  | .other k => Config.otherFi k y z c.sb1 c.sb2

/-- The high half of a 32-bit value. -/
def highHalf (x : Word) : Half := x.extractLsb' 16 16

/-- The low half of a 32-bit value. -/
def lowHalf (x : Word) : Half := x.extractLsb' 0 16

/-- One stage of `FO` on the halves `(l, r)` (R208). -/
def foStage (c : CipherCtx) (ko ki : Half) (p : Half × Half) : Half × Half :=
  (p.2, fi c (p.1 ^^^ ko) ki ^^^ p.2)

/-- `FO(x, keys)` (R208): three stages, the halves not swapped back. -/
def fo (c : CipherCtx) (k : Subkeys) (x : Word) : Word :=
  let p := foStage c k.ko3 k.ki3 (foStage c k.ko2 k.ki2 (foStage c k.ko1 k.ki1 (highHalf x, lowHalf x)))
  p.1 ++ p.2

/-- One doubling in GF(2^16), `a << 1` reduced by the polynomial when bit 16 is set (R209). -/
def gf16Double (poly a : BitVec 17) : BitVec 17 :=
  if (a <<< 1).getLsbD 16 then (a <<< 1) ^^^ poly else a <<< 1

/-- The loop of `gf16_mul` on `r`, `a`, `b`, `count` turns (R209). Once `b` is 0 a turn adds nothing. -/
def gf16MulLoop (poly : BitVec 17) : Nat → BitVec 17 → BitVec 17 → Half → BitVec 17
  | 0, r, _, _ => r
  | count + 1, r, a, b =>
    gf16MulLoop poly count (if b.getLsbD 0 then r ^^^ a else r) (gf16Double poly a) (b >>> 1)

/-- `gf16_mul(a, b)` (R209): sixteen turns use every bit of `b` (log entry 8). -/
def gf16Mul (poly : BitVec 17) (a b : Half) : Half :=
  (gf16MulLoop poly 16 0 (a.setWidth 17) b).setWidth 16

/-- Powers in GF(2^16) by square-and-multiply on `result`, `base` and the exponent `e` left. -/
def gf16PowLoop (poly : BitVec 17) : Nat → Half → Half → Nat → Half
  | 0, result, _, _ => result
  | count + 1, result, base, e =>
    gf16PowLoop poly count (if e % 2 = 1 then gf16Mul poly result base else result)
      (gf16Mul poly base base) (e / 2)

/-- `gf16_inv(a)` (R209): `a^(2^16 - 2)`, and 0 for 0. -/
def gf16Inv (poly : BitVec 17) (a : Half) : Half :=
  if a = 0 then 0 else gf16PowLoop poly 16 1 a (2 ^ 16 - 2)

/-- `FL(x, keys)` (R210): the two mixing lines, then the field inversion of each half. -/
def fl (c : CipherCtx) (k : Subkeys) (x : Word) : Word :=
  let l := highHalf x
  let r := lowHalf x
  let r2 := r ^^^ rotl16 (l &&& k.kl1) 1
  let l2 := l ^^^ rotl16 (r2 ||| k.kl2) 1
  gf16Inv c.params.gf16Poly l2 ++ gf16Inv c.params.gf16Poly r2

/-- The round function `f_i(x)`: `FO(FL(x))` in even rounds, `FL(FO(x))` in odd rounds (R211). -/
def roundF (c : CipherCtx) (i : Nat) (x : Word) : Word :=
  if i % 2 = 0 then fo c (subkeys c i) (fl c (subkeys c i) x)
  else fl c (subkeys c i) (fo c (subkeys c i) x)

/-! ## Blocks (R212, R213) -/

/-- One encryption round on `(L, R)` (R212). -/
def encRound (c : CipherCtx) (p : Word × Word) (i : Nat) : Word × Word := (p.2 ^^^ roundF c i p.1, p.1)

/-- One decryption round on `(L, R)` (R213). -/
def decRound (c : CipherCtx) (p : Word × Word) (i : Nat) : Word × Word := (p.2, p.1 ^^^ roundF c i p.2)

/-- The halves `L = x[63:32]`, `R = x[31:0]` of a block (R212). -/
def splitBlock (x : Block) : Word × Word := (x.extractLsb' 32 32, x.extractLsb' 0 32)

/-- `L · 2^32 + R` (R212). -/
def joinBlock (p : Word × Word) : Block := p.1 ++ p.2

/-- `enc_block(x)`: rounds 0 to 7 (R212). -/
def encBlock (c : CipherCtx) (x : Block) : Block :=
  joinBlock ([0, 1, 2, 3, 4, 5, 6, 7].foldl (encRound c) (splitBlock x))

/-- `dec_block(y)`: rounds 7 down to 0 (R213). -/
def decBlock (c : CipherCtx) (y : Block) : Block :=
  joinBlock ([7, 6, 5, 4, 3, 2, 1, 0].foldl (decRound c) (splitBlock y))

/-! ## Key material and S-boxes -/

/-- `set_key(k)` (R201): KEY, MKEY and KEYV together. -/
def State.setKey (s : State) (k : BitVec 128) : State :=
  { s with key := k, mkey := k ^^^ s.params.nums, keyv := true }

/-- SB1 takes a table and becomes valid (R205). -/
def State.setSb1 (s : State) (t : Table) : State := { s with sb1 := t, sb1v := true }

/-- SB2 takes a table and becomes valid (R205). -/
def State.setSb2 (s : State) (t : Table) : State := { s with sb2 := t, sb2v := true }

/-- `cipher_ready()` (R200): the fault it raises, KEY_UNLOADED before SBOX_UNLOADED, or none. -/
def State.cipherReady (s : State) : Option Cause :=
  if s.keyv = false then some .keyUnloaded
  else if s.sb1v = false ∨ s.sb2v = false then some .sboxUnloaded
  else none

/-! ## The commands -/

/-- KEYLD `ra` (R202): the key is the low 128 bits of `R[ra]`. -/
def execKeyld (ra : BigReg) (s : State) : Result := succeed (s.setKey (BitVec.ofNat 128 (s.big ra)))

/-- KEYKS (R203): the key is sixteen bytes of keystream, the first the least significant. -/
def execKeyks (s : State) : Result :=
  if s.ksv = false then raise .ksUninit s
  else succeed ((s.setKs (ksTake 16 s.ks).2).setKey (BitVec.ofNat 128 (leInt (ksTake 16 s.ks).1)))

/-- KEYRD `rd` (R204): `R[rd] <- MKEY · 2^128 + KEY`. -/
def execKeyrd (rd : BigReg) (s : State) : Result :=
  if s.keyv = false then raise .keyUnloaded s
  else succeed (s.setBig rd (s.mkey.toNat * 2 ^ 128 + s.key.toNat))

/-- SBLOAD `box` (R205): an S-box takes the keystream unit's array as it stands, when its size is 256. -/
def execSbload (box : Box) (s : State) : Result :=
  if s.ksv = false then raise .ksUninit s
  else if s.ks.n.toNat ≠ 256 then raise .sboxSize s
  else
    match box with
    | .sb1 => succeed (s.setSb1 s.ks.s)
    | .sb2 => succeed (s.setSb2 s.ks.s)

/-- BLKENC `rd, ra` (R214): encrypt the low 64 bits of `R[ra]`. -/
def execBlkenc (rd ra : BigReg) (s : State) : Result :=
  match s.cipherReady with
  | some c => raise c s
  | none => succeed (s.setBig rd (encBlock s.cipherCtx (BitVec.ofNat 64 (s.big ra))).toNat)

/-- BLKDEC `rd, ra` (R215): decrypt the low 64 bits of `R[ra]`. -/
def execBlkdec (rd ra : BigReg) (s : State) : Result :=
  match s.cipherReady with
  | some c => raise c s
  | none => succeed (s.setBig rd (decBlock s.cipherCtx (BitVec.ofNat 64 (s.big ra))).toNat)

end Sys2Proof.Machine
end

