-- ==== Sys2Proof/Machine/Chaining.lean ====
section
/-!
DEFINITION. The chaining modes ECB, CBC, PCBC, CTR and the meanings of ENC, DEC (45_chaining_modes.md R230 to R237).
-/

namespace Sys2Proof.Machine

/-! ## Data format (R230) -/

/-- `blocks_of(msg, n)` with `n` the length of `msg`: zero-padded to whole blocks of eight bytes, each a
little-endian integer (R230). -/
def blocksOf (msg : List Byte) : List Block :=
  let nblk := ceilDiv8 msg.length
  (pieces 8 nblk (msg ++ List.replicate (8 * nblk - msg.length) 0)).map fun b => BitVec.ofNat 64 (leInt b)

/-- `bytes_of(B)` (R230). -/
def bytesOf (bs : List Block) : List Byte := bs.flatMap fun b => leBytes 8 b.toNat

/-! ## The modes on block lists, for a block function `e` = `E` or `d` = `D` -/

/-- CBC encryption from the chaining value `prev` (R232). -/
def cbcEnc (e : Block → Block) : Block → List Block → List Block
  | _, [] => []
  | prev, p :: ps => e (p ^^^ prev) :: cbcEnc e (e (p ^^^ prev)) ps

/-- CBC decryption from the chaining value `prev` (R232). -/
def cbcDec (d : Block → Block) : Block → List Block → List Block
  | _, [] => []
  | prev, c :: cs => (d c ^^^ prev) :: cbcDec d c cs

/-- PCBC encryption from the chaining value `v` (R233). -/
def pcbcEnc (e : Block → Block) : Block → List Block → List Block
  | _, [] => []
  | v, p :: ps => e (p ^^^ v) :: pcbcEnc e (p ^^^ e (p ^^^ v)) ps

/-- PCBC decryption from the chaining value `v` (R233). -/
def pcbcDec (d : Block → Block) : Block → List Block → List Block
  | _, [] => []
  | v, c :: cs => (d c ^^^ v) :: pcbcDec d ((d c ^^^ v) ^^^ c) cs

/-- CTR from the block index `i`; decryption is the same computation (R234). -/
def ctrMask (e : Block → Block) : Nat → List Block → List Block
  | _, [] => []
  | i, p :: ps => (p ^^^ e (BitVec.ofNat 64 i)) :: ctrMask e (i + 1) ps

/-- The encrypt loop of a mode from `IV` (R231 to R234). -/
def encChain (e : Block → Block) (iv : Block) (mode : Mode) (ps : List Block) : List Block :=
  match mode with
  | .ecb => ps.map e
  | .cbc => cbcEnc e iv ps
  | .pcbc => pcbcEnc e iv ps
  | .ctr => ctrMask e 0 ps

/-- The decrypt loop of a mode from `IV`; CTR uses `E` (R231 to R234). -/
def decChain (e d : Block → Block) (iv : Block) (mode : Mode) (cs : List Block) : List Block :=
  match mode with
  | .ecb => cs.map d
  | .cbc => cbcDec d iv cs
  | .pcbc => pcbcDec d iv cs
  | .ctr => ctrMask e 0 cs

/-- The ciphertext bytes of a message under a cipher context (R235). -/
def encMessage (c : CipherCtx) (mode : Mode) (msg : List Byte) : List Byte :=
  bytesOf (encChain (encBlock c) c.params.ivFixed mode (blocksOf msg))

/-- The plaintext bytes of a ciphertext under a cipher context (R236). -/
def decMessage (c : CipherCtx) (mode : Mode) (msg : List Byte) : List Byte :=
  bytesOf (decChain (encBlock c) (decBlock c) c.params.ivFixed mode (blocksOf msg))

/-! ## The commands -/

/-- ENC `sDst, sSrc, sLen, mode` (R235): the output is `8·ceil(n/8)` bytes. -/
def execEnc (sDst sSrc sLen : ScalReg) (mode : Mode) (s : State) : Result :=
  let n := s.scalNat sLen
  match s.cipherReady with
  | some c => raise c s
  | none =>
    if s.outOfDm (s.scalNat sSrc) n || s.outOfDm (s.scalNat sDst) (8 * ceilDiv8 n) then raise .dmBounds s
    else succeed (s.store (s.scalNat sDst) (encMessage s.cipherCtx mode (s.load (s.scalNat sSrc) n)))

/-- DEC `sDst, sSrc, sLen, mode` (R236): the length must be a multiple of 8. -/
def execDec (sDst sSrc sLen : ScalReg) (mode : Mode) (s : State) : Result :=
  let n := s.scalNat sLen
  match s.cipherReady with
  | some c => raise c s
  | none =>
    if n % 8 ≠ 0 then raise .badLength s
    else if s.outOfDm (s.scalNat sSrc) n || s.outOfDm (s.scalNat sDst) n then raise .dmBounds s
    else succeed (s.store (s.scalNat sDst) (decMessage s.cipherCtx mode (s.load (s.scalNat sSrc) n)))

end Sys2Proof.Machine
end

