-- ==== Sys2Proof/Machine/Move.lean ====
section
/-!
DEFINITION. The meanings of NOP, LDR, STR (46_move_and_nop.md R250 to R252).
-/

namespace Sys2Proof.Machine

/-- NOP (R250): no effect. -/
def execNop (s : State) : Result := succeed s

/-- LDR `rd, sSrc, sLen` (R251): `R[rd]` takes the little-endian integer of `n` bytes of DM. -/
def execLdr (rd : BigReg) (sSrc sLen : ScalReg) (s : State) : Result :=
  let n := s.scalNat sLen
  if n > s.bigBytes then raise .badLength s
  else if s.outOfDm (s.scalNat sSrc) n then raise .dmBounds s
  else succeed (s.setBig rd (leInt (s.load (s.scalNat sSrc) n)))

/-- STR `sDst, ra, sLen` (R252): the low `n` bytes of `R[ra]` go to DM. -/
def execStr (sDst : ScalReg) (ra : BigReg) (sLen : ScalReg) (s : State) : Result :=
  let n := s.scalNat sLen
  if n > s.bigBytes then raise .badLength s
  else if s.outOfDm (s.scalNat sDst) n then raise .dmBounds s
  else succeed (s.store (s.scalNat sDst) (leBytes n (s.big ra)))

end Sys2Proof.Machine
end

