-- ==== Sys2Proof/Machine/Prng.lean ====
section
/-!
DEFINITION. The xorshift PRNG and the meanings of PRSEED, PRNEXT (41_prng.md R150 to R154).
-/

namespace Sys2Proof.Machine

open Sys2Proof.Config (XsStep)

/-- One shift-xor step on 512 bits: bits shifted out are discarded (R151). -/
def xsShift (p : XsStep) (x : BitVec 512) : BitVec 512 :=
  match p.dir with
  | .left => x ^^^ (x <<< p.amount)
  | .right => x ^^^ (x >>> p.amount)

/-- `xs_step(x)`: the three steps of `XS_STEPS` in order (R151). -/
def xsStep (steps : Vector XsStep 3) (x : BitVec 512) : BitVec 512 :=
  xsShift (steps.get 2) (xsShift (steps.get 1) (xsShift (steps.get 0) x))

/-- The next state of this core's PRNG. -/
def State.xsNext (s : State) : BitVec 512 := xsStep s.params.xsSteps s.xs

/-- `XS <- v`. -/
def State.setXs (s : State) (v : BitVec 512) : State := { s with xs := v }

/-- `XS <- v; XSV <- 1` (R152). -/
def State.seedXs (s : State) (v : BitVec 512) : State := { s with xs := v, xsv := true }

/-- PRSEED `ra` (R152): seed the PRNG with the low 512 bits of `R[ra]`, which must not be 0. -/
def execPrseed (ra : BigReg) (s : State) : Result :=
  let v := BitVec.ofNat 512 (s.big ra)
  if v = 0 then raise .badOperand s
  else succeed (s.seedXs v)

/-- PRNEXT `rd` (R153): one step; `R[rd]` takes the new state. -/
def execPrnext (rd : BigReg) (s : State) : Result :=
  if s.xsv = false then raise .prngUnseeded s
  else succeed ((s.setXs s.xsNext).setBig rd s.xsNext.toNat)

end Sys2Proof.Machine
end

