-- ==== Sys2Proof/Machine/NumberTheory.lean ====
section
/-!
DEFINITION. Modular arithmetic, extended Euclid, Miller-Rabin, and the meanings of MODMUL, MODEXP, XGCD, MODINV,
MRWIT, MRTEST (40_number_theory.md R120 to R133). All arithmetic is exact (R120). Every `while` loop runs on a fuel
that its own variable bounds: the exponent, the remainder, `n - 1` (log entry 8).
-/

namespace Sys2Proof.Machine

open Sys2Proof.Config (XsStep)

/-! ## Modular exponentiation (R123) -/

/-- The square-and-multiply loop: `result`, `base` and the exponent `e` left (R123). -/
def modexpLoop (m : Nat) : Nat → Nat → Nat → Nat → Nat
  | 0, result, _, _ => result
  | fuel + 1, result, base, e =>
    if e = 0 then result
    else modexpLoop m fuel (if e % 2 = 1 then result * base % m else result) (base * base % m) (e / 2)

/-- `a^b mod m` by square-and-multiply, for `m ≥ 1` (R123). The exponent is its own fuel. -/
def modexp (a b m : Nat) : Nat := modexpLoop m b (1 % m) (a % m) b

/-! ## Extended Euclid (R125) -/

/-- The loop of `xgcd` on `(r0, r1)`, `(s0, s1)`, `(t0, t1)` (R125). -/
def xgcdLoop : Nat → Nat → Nat → Int → Int → Int → Int → Nat × Int × Int
  | 0, r0, _, s0, _, t0, _ => (r0, s0, t0)
  | fuel + 1, r0, r1, s0, s1, t0, t1 =>
    if r1 = 0 then (r0, s0, t0)
    else
      xgcdLoop fuel r1 (r0 % r1) s1 (s0 - (r0 / r1 : Nat) * s1) t1 (t0 - (r0 / r1 : Nat) * t1)

/-- `xgcd(a, b) = (g, x, y)` with `a·x + b·y = g` (R125). The remainder `b` falls in each turn and is the fuel. -/
def xgcd (a b : Nat) : Nat × Int × Int := xgcdLoop (b + 1) a b 1 0 0 1

/-! ## Miller-Rabin (R128 to R130) -/

/-- The halving loop of `mr_decompose` on `(d, s)` (R128). -/
def mrHalve : Nat → Nat → Nat → Nat × Nat
  | 0, d, s => (d, s)
  | fuel + 1, d, s => if d % 2 = 0 then mrHalve fuel (d / 2) (s + 1) else (d, s)

/-- `mr_decompose(n)`: `n - 1 = d·2^s` with `d` odd, for odd `n ≥ 3` (R128). -/
def mrDecompose (n : Nat) : Nat × Nat := mrHalve (n - 1) (n - 1) 0

/-- The squaring sequence of `mr_round`: at most `count` squarings, true on reaching `n - 1` (R129). -/
def mrSquares (n : Nat) : Nat → Nat → Bool
  | 0, _ => false
  | count + 1, x => if x * x % n = n - 1 then true else mrSquares n count (x * x % n)

/-- `mr_round(n, a)` for odd `n ≥ 5` and `2 ≤ a ≤ n - 2`: true = passes, false = reject (R129). -/
def mrRound (n a : Nat) : Bool :=
  let d := (mrDecompose n).1
  let x := modexp a d n
  if x = 1 ∨ x = n - 1 then true else mrSquares n ((mrDecompose n).2 - 1) x

/-- `mr_precheck(n)`: the verdict where no round is needed, none for odd `n ≥ 5` (R130). -/
def mrPrecheck (n : Nat) : Option Bool :=
  if n < 2 then some false
  else if n = 2 ∨ n = 3 then some true
  else if n % 2 = 0 then some false
  else none

/-- The base that a draw gives: `2 + (XS mod (n - 3))` (R132). -/
def mrBase (n : Nat) (x : BitVec 512) : Nat := 2 + x.toNat % (n - 3)

/-- The loop of MRTEST: one draw per iteration started, left at the first rejecting round (R132). Answers the PRNG
state and the verdict. -/
def mrTestLoop (steps : Vector XsStep 3) (n : Nat) : Nat → BitVec 512 → BitVec 512 × Bool
  | 0, x => (x, true)
  | iters + 1, x =>
    if mrRound n (mrBase n (xsStep steps x)) then mrTestLoop steps n iters (xsStep steps x)
    else (xsStep steps x, false)

/-! ## The commands -/

/-- MODMUL `rd, ra, rb, rm` (R122): `R[rd] <- (a·b) mod m`. -/
def execModmul (rd ra rb rm : BigReg) (s : State) : Result :=
  if s.big rm = 0 then raise .divZero s
  else succeed (s.setBig rd (s.big ra * s.big rb % s.big rm))

/-- MODEXP `rd, ra, rb, rm` (R123): `R[rd] <- a^b mod m`. -/
def execModexp (rd ra rb rm : BigReg) (s : State) : Result :=
  if s.big rm = 0 then raise .divZero s
  else succeed (s.setBig rd (modexp (s.big ra) (s.big rb) (s.big rm)))

/-- XGCD `rd, ra, rb` (R126): `R[rd]`, `R[rd+1]`, `R[rd+2]` take `g`, `x mod 2^W`, `y mod 2^W`. A command with
`rd > 13` is not legal (R126; log entry 9). -/
def execXgcd (rd ra rb : BigReg) (s : State) : Result :=
  if rd.val > 13 then raise .illegalCmd s
  else
    let gxy := xgcd (s.big ra) (s.big rb)
    succeed (((s.setBig rd gxy.1).setBig (rd + 1) (s.twos gxy.2.1)).setBig (rd + 2) (s.twos gxy.2.2))

/-- MODINV `rd, ra, rm` (R127): `R[rd] <- x mod m`, the inverse of `R[ra]` modulo `R[rm]`. -/
def execModinv (rd ra rm : BigReg) (s : State) : Result :=
  if s.big rm = 0 then raise .divZero s
  else
    let gxy := xgcd (s.big ra) (s.big rm)
    if gxy.1 ≠ 1 then raise .notInvertible s
    else succeed (s.setBig rd (gxy.2.1 % (s.big rm : Int)).toNat)

/-- MRWIT `rn, rbase` (R131): one round with an explicit base; the base is looked at only when the pre-check does
not decide. -/
def execMrwit (rn rbase : BigReg) (s : State) : Result :=
  match mrPrecheck (s.big rn) with
  | some p => succeed (s.setPrime p)
  | none =>
    if s.big rbase < 2 ∨ s.big rbase > s.big rn - 2 then raise .badOperand s
    else succeed (s.setPrime (mrRound (s.big rn) (s.big rbase)))

/-- MRTEST `rn, iters` (R132): rounds with bases drawn from the PRNG; no draw when the pre-check decides. -/
def execMrtest (rn : BigReg) (iters : Byte) (s : State) : Result :=
  if s.xsv = false then raise .prngUnseeded s
  else
    match mrPrecheck (s.big rn) with
    | some p => succeed (s.setPrime p)
    | none =>
      let out := mrTestLoop s.params.xsSteps (s.big rn) iters.toNat s.xs
      succeed ((s.setXs out.1).setPrime out.2)

end Sys2Proof.Machine
end

