-- ==== Sys2Proof/Machine/Sponge.lean ====
section
/-!
DEFINITION. The sponge and the meanings of SPINIT, SPABSB, SPPERM, SPOUT, HASH (43_sponge_hash.md R180 to R190).
-/

namespace Sys2Proof.Machine

/-- Every sponge command's HCFG_INVALID check fails: `H = 0` or `H > 128` (R180). -/
def State.hcfgBad (s : State) : Bool := decide (s.hLen = 0) || decide (s.hLen > 128)

/-- The 256 bytes of `sp_init()` for the hash length `h` (R181): the bitrate `8·H` little-endian in the two lowest
bytes, every other byte 0. -/
def spongeStart (h : Nat) : Table :=
  (Table.zero.set 0 (BitVec.ofNat 8 (8 * h))).set 1 (BitVec.ofNat 8 (8 * h / 256))

/-- The gather of `sp_permute()` (R182): new byte `k < n` is the old byte at position `P[k]`; from `n` on nothing
changes. -/
def gather (n : Nat) (p st : Table) : Table :=
  Vector.ofFn fun k : Fin 256 => if k.val < n then Table.at st (p.get k) else st.get k

/-- XOR a block of `h` bytes into the lowest `h` bytes of the state (R183). -/
def xorInto (h : Nat) (b : List Byte) (st : Table) : Table :=
  Vector.ofFn fun k : Fin 256 => if k.val < h then st.get k ^^^ b.getD k.val 0 else st.get k

/-- The sponge state takes the value `t`. -/
def State.setSt (s : State) (t : Table) : State := { s with st := t }

/-- `sp_init()` (R181). -/
def State.spInit (s : State) : State := s.setSt (spongeStart s.hLen)

/-- `sp_permute()` (R182): re-key the shared keystream unit with the `2·H` state bytes and gather by its
permutation. -/
def State.spPermute (s : State) : State :=
  (s.initKs (Table.first s.st (2 * s.hLen)) (2 * s.hLen)).setSt
    (gather (2 * s.hLen) (ksInit (Table.first s.st (2 * s.hLen)) (2 * s.hLen)).s s.st)

/-- `sp_absorb_block(b)` (R183). -/
def State.spAbsorb (s : State) (b : List Byte) : State := (s.setSt (xorInto s.hLen b s.st)).spPermute

/-- Absorb blocks in order (R184). -/
def State.spAbsorbAll (s : State) (bs : List (List Byte)) : State := bs.foldl State.spAbsorb s

/-- `count` permutation steps with no input (R184). -/
def State.spSqueeze (s : State) (count : Nat) : State := State.spPermute^[count] s

/-- The padded input of `sp_hash` (R184): message, seed, then zero bytes up to a multiple of `h`. -/
def padMessage (h : Nat) (seed msg : List Byte) : List Byte :=
  let m := msg ++ seed
  if m.length % h = 0 then m else m ++ List.replicate (h - m.length % h) 0

/-- The blocks of the padded input (R184). -/
def hashBlocks (h : Nat) (seed msg : List Byte) : List (List Byte) :=
  pieces h ((padMessage h seed msg).length / h) (padMessage h seed msg)

/-- `sp_hash(msg)` (R184): the state it leaves; the digest is `ST[0..H)` of it. -/
def State.spHash (s : State) (msg : List Byte) : State :=
  (s.spInit.spAbsorbAll (hashBlocks s.hLen s.params.hashSeed msg)).spSqueeze s.squishCount

/-- `ST[0..H)`, the first `hash_length_bytes` bytes of state (R184, R188). -/
def State.digest (s : State) : List Byte := Table.first s.st s.hLen

/-! ## The commands -/

/-- SPINIT (R185). -/
def execSpinit (s : State) : Result :=
  if s.hcfgBad then raise .hcfgInvalid s
  else succeed s.spInit

/-- SPABSB `sSrc` (R186): absorb one block of `H` bytes of DM. -/
def execSpabsb (sSrc : ScalReg) (s : State) : Result :=
  if s.hcfgBad then raise .hcfgInvalid s
  else if s.outOfDm (s.scalNat sSrc) s.hLen then raise .dmBounds s
  else succeed (s.spAbsorb (s.load (s.scalNat sSrc) s.hLen))

/-- SPPERM (R187): one permutation step with no input. -/
def execSpperm (s : State) : Result :=
  if s.hcfgBad then raise .hcfgInvalid s
  else succeed s.spPermute

/-- SPOUT `sDst` (R188): the first `H` bytes of state into DM. -/
def execSpout (sDst : ScalReg) (s : State) : Result :=
  if s.hcfgBad then raise .hcfgInvalid s
  else if s.outOfDm (s.scalNat sDst) s.hLen then raise .dmBounds s
  else succeed (s.store (s.scalNat sDst) s.digest)

/-- HASH `sDst, sSrc, sLen` (R189): the complete hash of a message in DM. -/
def execHash (sDst sSrc sLen : ScalReg) (s : State) : Result :=
  if s.hcfgBad then raise .hcfgInvalid s
  else if s.outOfDm (s.scalNat sSrc) (s.scalNat sLen) || s.outOfDm (s.scalNat sDst) s.hLen then
    raise .dmBounds s
  else
    let t := s.spHash (s.load (s.scalNat sSrc) (s.scalNat sLen))
    succeed (t.store (s.scalNat sDst) t.digest)

end Sys2Proof.Machine
end

