-- ==== Sys2Proof/Machine/Dispatch.lean ====
section
/-!
DEFINITION. The meaning of each command, one arm per row of the opcode map (30_encoding.md R94): what its
completion does at a state (60_exceptions.md R304).
-/

namespace Sys2Proof.Machine

def exec (i : Instr) (s : State) : Host.Outcome State Fault Refusal :=
  match i with
  | .nop => Sys2Proof.Machine.execNop s
  | .ldr rd sSrc sLen => Sys2Proof.Machine.execLdr rd sSrc sLen s
  | .str sDst ra sLen => Sys2Proof.Machine.execStr sDst ra sLen s
  | .modmul rd ra rb rm => Sys2Proof.Machine.execModmul rd ra rb rm s
  | .modexp rd ra rb rm => Sys2Proof.Machine.execModexp rd ra rb rm s
  | .xgcd rd ra rb => Sys2Proof.Machine.execXgcd rd ra rb s
  | .modinv rd ra rm => Sys2Proof.Machine.execModinv rd ra rm s
  | .mrwit rn rbase => Sys2Proof.Machine.execMrwit rn rbase s
  | .mrtest rn iters => Sys2Proof.Machine.execMrtest rn iters s
  | .prseed ra => Sys2Proof.Machine.execPrseed ra s
  | .prnext rd => Sys2Proof.Machine.execPrnext rd s
  | .ksinit sKey sLen sN => Sys2Proof.Machine.execKsinit sKey sLen sN s
  | .ksnext sd => Sys2Proof.Machine.execKsnext sd s
  | .ksbytes sDst sLen => Sys2Proof.Machine.execKsbytes sDst sLen s
  | .ksciph sDst sSrc sLen => Sys2Proof.Machine.execKsciph sDst sSrc sLen s
  | .ksperm sDst => Sys2Proof.Machine.execKsperm sDst s
  | .spinit => Sys2Proof.Machine.execSpinit s
  | .spabsb sSrc => Sys2Proof.Machine.execSpabsb sSrc s
  | .spperm => Sys2Proof.Machine.execSpperm s
  | .spout sDst => Sys2Proof.Machine.execSpout sDst s
  | .hash sDst sSrc sLen => Sys2Proof.Machine.execHash sDst sSrc sLen s
  | .keyld ra => Sys2Proof.Machine.execKeyld ra s
  | .keyks => Sys2Proof.Machine.execKeyks s
  | .keyrd rd => Sys2Proof.Machine.execKeyrd rd s
  | .sbload box => Sys2Proof.Machine.execSbload box s
  | .blkenc rd ra => Sys2Proof.Machine.execBlkenc rd ra s
  | .blkdec rd ra => Sys2Proof.Machine.execBlkdec rd ra s
  | .enc sDst sSrc sLen mode => Sys2Proof.Machine.execEnc sDst sSrc sLen mode s
  | .dec sDst sSrc sLen mode => Sys2Proof.Machine.execDec sDst sSrc sLen mode s

end Sys2Proof.Machine
end

