-- ==== Sys2Proof/Machine/Engine.lean ====
section
/-!
DEFINITION. The engine's completion of the command in flight (60_exceptions.md R304) and what one event of the total
order does (20_memory.md R71).
-/

namespace Sys2Proof.Machine

/-- `complete()` (60_exceptions.md R304): decode CMDLATCH; a word that is not a legal command faults ILLEGAL_CMD
(30_encoding.md R95), a legal one has its meaning. -/
def State.complete (s : State) : Result :=
  match decode s.cmdLatch with
  | .error _ => raise .illegalCmd s
  | .ok i => exec i s

/-- The engine's turn: it completes a command iff BUSY = 1 (60_exceptions.md R304). -/
def State.engineTurn (s : State) : Result := if s.busy then s.complete else .next s

/-- What one event of the total order does (20_memory.md R71). -/
def State.event (s : State) : Event → Result
  | .read addr => .next (s.hostRead addr)
  | .write addr d => .next (s.hostWrite addr d)
  | .otherWidth isWrite _ => .next (s.hostOtherWidth isWrite)
  | .engine => s.engineTurn
  | .reset => .next s.resetEvent

/-- One step: the oldest event to come happens; with none to come the engine has its turn, and an idle core keeps
all its state (60_exceptions.md R313; log entry 3). -/
def State.advance (s : State) : Result :=
  match s.pending with
  | [] => s.engineTurn
  | e :: es => State.event { s with pending := es } e

/-- The core with the command word `w` accepted (60_exceptions.md R304) and the engine's turn next; ERR is 0, as
acceptance requires. -/
def State.loadCommand (s : State) (w : Word) : State :=
  { State.accept { s with err := false } w with pending := .engine :: s.pending }

end Sys2Proof.Machine
end

