-- ==== Sys2Proof/Machine/Step.lean ====
section
/-!
DEFINITION. One step of the machine, and the host's way to place a command word where the next step runs it.
-/

namespace Sys2Proof.Machine

/-- One step of the machine (20_memory.md R71, 60_exceptions.md R304). -/
def step (s : State) : Host.Outcome State Fault Refusal := s.advance

/-- The core with the table word `w` of `nbits` bits, every higher bit 0, as the accepted command whose completion
is the very next step. The core fetches nothing (10_state.md R23, 20_memory.md R73): a command comes from a host
write to CMD, and this stands for that write and its acceptance (log entry 6). -/
def State.withFetchWord (s : State) (nbits w : Nat) : State := s.loadCommand (BitVec.ofNat 32 (w % 2 ^ nbits))

end Sys2Proof.Machine
end

