-- ==== Sys2Proof/Safety.lean ====
section
/-!
DEFINITION. What the claims speak of: the invariants of the reachable states (10_state.md R41), what a completing
command may write (`Footprint`), the fault record, which fault causes apply to a command (60_exceptions.md R301,
R311), the mapped addresses of the host window (20_memory.md R61), and runs.
-/

namespace Sys2Proof.Machine

open Sys2Proof.Config (Params)

/-! ## Invariants (10_state.md R41) -/

/-- The first `n` entries of a table are a permutation of `0..n-1`: each lies below `n` and none repeats. -/
def Table.IsPerm (t : Table) (n : Nat) : Prop :=
  (∀ i : Fin 256, i.val < n → (t.get i).toNat < n) ∧
  (∀ i : Fin 256, i.val < n → ∀ j : Fin 256, j.val < n → t.get i = t.get j → i = j)

/-- Every big register holds an integer below `2^W` (10_state.md R21). -/
def State.BigOk (s : State) : Prop := ∀ k : BigReg, s.big k < 2 ^ s.params.w

/-- The data memory is in its canonical form and lists no address at or above `DM_SIZE` (10_state.md R39). -/
def State.DmOk (s : State) : Prop := s.dm.wf = true ∧ s.dm.below s.params.dmSize = true

/-- An initialised keystream unit (10_state.md R41.1). -/
structure Keystream.Ok (u : Keystream) : Prop where
  pos : 1 ≤ u.n.toNat
  le : u.n.toNat ≤ 256
  perm : Table.IsPerm u.s u.n.toNat
  i_lt : u.i.toNat < u.n.toNat
  j_lt : u.j.toNat < u.n.toNat

/-- The invariant of the model: the invariants of 10_state.md R41, with the ranges that 10_state.md R21, R35, R39 and
60_exceptions.md R301, R308 give the registers. -/
structure State.Inv (s : State) : Prop where
  /-- the parameter record is legal (00_scope.md R8, R9) -/
  params : s.params.wf = true
  /-- R21 -/
  big : s.BigOk
  /-- R39 -/
  dm : s.DmOk
  /-- R41.1 -/
  ks : s.ksv = true → s.ks.Ok
  /-- R32: `KS.N` is 0 while the unit is not initialised -/
  ksUnset : s.ksv = false → s.ks.n = 0
  /-- R35: entries at index `KS.N` and above are 0 -/
  ksTop : ∀ i : Fin 256, s.ks.n.toNat ≤ i.val → s.ks.s.get i = 0
  /-- R41.2 -/
  key : s.keyv = true → s.mkey = s.key ^^^ s.params.nums
  /-- R41.3 -/
  sb1 : s.sb1v = true → Table.IsPerm s.sb1 256
  /-- R41.3 -/
  sb2 : s.sb2v = true → Table.IsPerm s.sb2 256
  /-- R41.4 -/
  xs : s.xsv = true → s.xs ≠ 0
  /-- R41.5 -/
  busy : s.busy = true → s.done = false ∧ s.err = false
  /-- R308: DONE and ERR are never both 1 -/
  doneErr : ¬(s.done = true ∧ s.err = true)
  /-- R301: causes 13 to 255 are never raised -/
  cause : s.faultCause.toNat ≤ 12

/-! ## What a command changes -/

/-- What a completing command may write: big and scalar registers, a range of DM, PRIME, and the state and the
validity flag of each unit. The default is nothing. -/
structure Footprint where
  big : List BigReg := []
  scal : List ScalReg := []
  dmAddr : Nat := 0
  dmLen : Nat := 0
  prime : Bool := false
  xs : Bool := false
  xsv : Bool := false
  ks : Bool := false
  ksv : Bool := false
  st : Bool := false
  key : Bool := false
  keyv : Bool := false
  sb1 : Bool := false
  sb2 : Bool := false
deriving DecidableEq, Repr

/-- `t` is a completion without fault of a command that started in `s` and wrote nothing outside the footprint
(60_exceptions.md R304): BUSY has fallen, DONE has risen, and every other piece of state, each big register, each
scalar register and each byte of DM taken by itself, is unchanged unless the footprint names it. -/
structure State.CompletesIn (s t : State) (f : Footprint) : Prop where
  busy : t.busy = false
  done : t.done = true
  params : t.params = s.params
  big : ∀ k : BigReg, k ∉ f.big → t.big k = s.big k
  scal : ∀ k : ScalReg, k ∉ f.scal → t.scal k = s.scal k
  dm : ∀ a : Nat, ¬(f.dmAddr ≤ a ∧ a < f.dmAddr + f.dmLen) → t.dm.read a = s.dm.read a
  prime : f.prime = false → t.prime = s.prime
  xs : f.xs = false → t.xs = s.xs
  xsv : f.xsv = false → t.xsv = s.xsv
  ks : f.ks = false → t.ks = s.ks
  ksv : f.ksv = false → t.ksv = s.ksv
  st : f.st = false → t.st = s.st
  key : f.key = false → t.key = s.key ∧ t.mkey = s.mkey
  keyv : f.keyv = false → t.keyv = s.keyv
  sb1 : f.sb1 = false → t.sb1 = s.sb1 ∧ t.sb1v = s.sb1v
  sb2 : f.sb2 = false → t.sb2 = s.sb2 ∧ t.sb2v = s.sb2v
  hcfg : t.hashLen = s.hashLen ∧ t.squish = s.squish
  fault : t.err = s.err ∧ t.faultCause = s.faultCause ∧ t.fcmd = s.fcmd
  ovr : t.ovr = s.ovr
  ien : t.ieDone = s.ieDone ∧ t.ieErr = s.ieErr
  cmdLatch : t.cmdLatch = s.cmdLatch
  model : t.pending = s.pending ∧ t.bus = s.bus ∧ t.freeCount = s.freeCount

/-- What each command writes when it completes: the destinations of its rule in 40_number_theory.md to
46_move_and_nop.md, and the flags and units of 10_state.md R24, R34 to R38. -/
def footprint (i : Instr) (s : State) : Footprint :=
  match i with
  | .nop => {}
  | .ldr rd _ _ => { big := [rd] }
  | .str sDst _ sLen => { dmAddr := s.scalNat sDst, dmLen := s.scalNat sLen }
  | .modmul rd _ _ _ => { big := [rd] }
  | .modexp rd _ _ _ => { big := [rd] }
  | .xgcd rd _ _ => { big := [rd, rd + 1, rd + 2] }
  | .modinv rd _ _ => { big := [rd] }
  | .mrwit _ _ => { prime := true }
  | .mrtest _ _ => { prime := true, xs := true }
  | .prseed _ => { xs := true, xsv := true }
  | .prnext rd => { big := [rd], xs := true }
  | .ksinit _ _ _ => { ks := true, ksv := true }
  | .ksnext sd => { scal := [sd], ks := true }
  | .ksbytes sDst sLen => { dmAddr := s.scalNat sDst, dmLen := s.scalNat sLen, ks := true }
  | .ksciph sDst _ sLen => { dmAddr := s.scalNat sDst, dmLen := s.scalNat sLen, ks := true }
  | .ksperm sDst => { dmAddr := s.scalNat sDst, dmLen := s.ks.n.toNat }
  | .spinit => { st := true }
  | .spabsb _ => { st := true, ks := true, ksv := true }
  | .spperm => { st := true, ks := true, ksv := true }
  | .spout sDst => { dmAddr := s.scalNat sDst, dmLen := s.hLen }
  | .hash sDst _ _ => { dmAddr := s.scalNat sDst, dmLen := s.hLen, st := true, ks := true, ksv := true }
  | .keyld _ => { key := true, keyv := true }
  | .keyks => { key := true, keyv := true, ks := true }
  | .keyrd rd => { big := [rd] }
  | .sbload .sb1 => { sb1 := true }
  | .sbload .sb2 => { sb2 := true }
  | .blkenc rd _ => { big := [rd] }
  | .blkdec rd _ => { big := [rd] }
  | .enc sDst _ sLen _ => { dmAddr := s.scalNat sDst, dmLen := 8 * ((s.scalNat sLen + 7) / 8) }
  | .dec sDst _ sLen _ => { dmAddr := s.scalNat sDst, dmLen := s.scalNat sLen }

/-! ## Faults -/

/-- The state after the fault entry of 60_exceptions.md R303 with a cause code: four writes and nothing else. -/
def State.faulted (s : State) (code : Nat) : State :=
  { s with busy := false, err := true, faultCause := BitVec.ofNat 8 code, fcmd := s.cmdLatch }

/-- The ranges of DM that a command names (20_memory.md R63), as address and length. -/
def dmRanges (i : Instr) (s : State) : List (Nat × Nat) :=
  match i with
  | .ldr _ sSrc sLen => [(s.scalNat sSrc, s.scalNat sLen)]
  | .str sDst _ sLen => [(s.scalNat sDst, s.scalNat sLen)]
  | .ksinit sKey sLen _ => [(s.scalNat sKey, s.scalNat sLen)]
  | .ksbytes sDst sLen => [(s.scalNat sDst, s.scalNat sLen)]
  | .ksciph sDst sSrc sLen => [(s.scalNat sSrc, s.scalNat sLen), (s.scalNat sDst, s.scalNat sLen)]
  | .ksperm sDst => [(s.scalNat sDst, s.ks.n.toNat)]
  | .spabsb sSrc => [(s.scalNat sSrc, s.hLen)]
  | .spout sDst => [(s.scalNat sDst, s.hLen)]
  | .hash sDst sSrc sLen => [(s.scalNat sSrc, s.scalNat sLen), (s.scalNat sDst, s.hLen)]
  | .enc sDst sSrc sLen _ => [(s.scalNat sSrc, s.scalNat sLen), (s.scalNat sDst, 8 * ((s.scalNat sLen + 7) / 8))]
  | .dec sDst sSrc sLen _ => [(s.scalNat sSrc, s.scalNat sLen), (s.scalNat sDst, s.scalNat sLen)]
  | _ => []

/-- The number is one on which Miller-Rabin rounds run: odd and at least 5 (40_number_theory.md R130). -/
def mrUndecided (n : Nat) : Prop := n % 2 = 1 ∧ 5 ≤ n

/-- When a fault cause applies to a command (60_exceptions.md R301, R311), whatever other causes apply. -/
def Cause.applies (c : Cause) (i : Instr) (s : State) : Prop :=
  match c with
  | .illegalCmd => i.wf = false
  | .prngUnseeded =>
    match i with
    | .prnext _ | .mrtest _ _ => s.xsv = false
    | _ => False
  | .ksUninit =>
    match i with
    | .ksnext _ | .ksbytes _ _ | .ksciph _ _ _ | .ksperm _ | .keyks | .sbload _ => s.ksv = false
    | _ => False
  | .keyUnloaded =>
    match i with
    | .keyrd _ | .blkenc _ _ | .blkdec _ _ | .enc _ _ _ _ | .dec _ _ _ _ => s.keyv = false
    | _ => False
  | .sboxUnloaded =>
    match i with
    | .blkenc _ _ | .blkdec _ _ | .enc _ _ _ _ | .dec _ _ _ _ => s.sb1v = false ∨ s.sb2v = false
    | _ => False
  | .sboxSize =>
    match i with
    | .sbload _ => s.ks.n.toNat ≠ 256
    | _ => False
  | .hcfgInvalid =>
    match i with
    | .spinit | .spabsb _ | .spperm | .spout _ | .hash _ _ _ => s.hLen = 0 ∨ s.hLen > 128
    | _ => False
  | .badLength =>
    match i with
    | .ldr _ _ sLen | .str _ _ sLen => s.scalNat sLen > s.params.w / 8
    | .ksinit _ sLen sN => s.scalNat sN < 1 ∨ s.scalNat sN > 256 ∨ s.scalNat sLen = 0
    | .dec _ _ sLen _ => s.scalNat sLen % 8 ≠ 0
    | _ => False
  | .dmBounds => ∃ r ∈ dmRanges i s, r.1 + r.2 > s.params.dmSize
  | .badOperand =>
    match i with
    | .prseed ra => s.big ra % 2 ^ 512 = 0
    | .mrwit rn rbase => mrUndecided (s.big rn) ∧ ¬(2 ≤ s.big rbase ∧ s.big rbase ≤ s.big rn - 2)
    | _ => False
  | .divZero =>
    match i with
    | .modmul _ _ _ rm | .modexp _ _ _ rm | .modinv _ _ rm => s.big rm = 0
    | _ => False
  | .notInvertible =>
    match i with
    | .modinv _ ra rm => s.big rm ≠ 0 ∧ Nat.gcd (s.big ra) (s.big rm) ≠ 1
    | _ => False

/-! ## The host window -/

/-- The addresses at which an aligned 32-bit host transaction gets the response OK (20_memory.md R61, R62). -/
def Mapped (p : Params) (addr : BitVec 16) : Prop :=
  addr.toNat % 4 = 0 ∧
  (addr.toNat < 0x50 ∨ (0x4000 ≤ addr.toNat ∧ addr.toNat < 0x4000 + 2 * p.w) ∨
    (0x8000 ≤ addr.toNat ∧ addr.toNat < 0x8000 + p.dmSize))

/-- The addresses whose host writes BUSY drops: HCFG, the scalar registers, the big registers, DM (20_memory.md
R70 (e)). -/
def DroppedWhileBusy (p : Params) (addr : BitVec 16) : Prop :=
  Mapped p addr ∧ (addr.toNat = 0x18 ∨ (0x20 ≤ addr.toNat ∧ addr.toNat < 0x40) ∨ 0x4000 ≤ addr.toNat)

/-- The addresses whose reads are unspecified while BUSY = 1: KSST, the scalar registers, the big registers, DM
(20_memory.md R70 (b)). -/
def HiddenWhileBusy (p : Params) (addr : BitVec 16) : Prop :=
  Mapped p addr ∧ (addr.toNat = 0x1C ∨ (0x20 ≤ addr.toNat ∧ addr.toNat < 0x40) ∨ 0x4000 ≤ addr.toNat)

/-- Every piece of the core's state is unchanged; only the model's own fields may differ. -/
def State.SameCore (s t : State) : Prop :=
  { t with pending := s.pending, bus := s.bus, freeCount := s.freeCount } = s

/-! ## Words of the units and of the chaining modes -/

/-- Entry `k` of the keystream array as an integer (10_state.md R35). -/
def Keystream.entry (u : Keystream) (k : Nat) : Nat := (u.s.toList.getD k 0).toNat

/-- Byte `k` of an integer, `v[8k+7:8k]` (00_scope.md R12). -/
def byteOf (v k : Nat) : Byte := BitVec.ofNat 8 (v / 256 ^ k)

/-- One shift-xor step on an integer below `2^512` (41_prng.md R151). -/
def xsShiftInt (q : Config.XsStep) (x : Nat) : Nat :=
  match q.dir with
  | .left => x ^^^ ((x <<< q.amount) % 2 ^ 512)
  | .right => x ^^^ (x >>> q.amount)

/-- `rotl16(v, k)` of an integer below `2^16` (00_scope.md R13). -/
def rotl16Int (v k : Nat) : Nat := ((v <<< k) ||| (v >>> (16 - k))) % 2 ^ 16

/-- The subkey of one row of `SUBKEY_TABLE` for round `i`, as an integer: window `(i + off) mod 8` of KEY or MKEY,
window `w` being bits `[16w+15:16w]`, rotated (44_block_cipher.md R206). -/
def subkeyInt (c : CipherCtx) (i : Nat) (row : Config.SubkeyRow) : Nat :=
  let src := match row.source with
    | .k => c.key.toNat
    | .m => c.mkey.toNat
  rotl16Int (src / 2 ^ (16 * ((i + row.offset.val) % 8)) % 2 ^ 16) row.rotation.val

/-- What block `i` of the ciphertext is in each mode, from the plaintext blocks `p` and the ciphertext blocks before
it, with `e` the block encryption (45_chaining_modes.md R231 to R234, encrypt). -/
def encRelation (mode : Mode) (e : Block → Block) (iv : Block) (p c : Nat → Block) (i : Nat) : Prop :=
  match mode with
  | .ecb => c i = e (p i)
  | .cbc => c i = e (p i ^^^ (if i = 0 then iv else c (i - 1)))
  | .pcbc => c i = e (p i ^^^ (if i = 0 then iv else p (i - 1) ^^^ c (i - 1)))
  | .ctr => c i = p i ^^^ e (BitVec.ofNat 64 i)

/-- What block `i` of the plaintext is in each mode, from the ciphertext blocks `c` and the plaintext blocks before
it, with `e` and `d` the block encryption and decryption (45_chaining_modes.md R231 to R234, decrypt). -/
def decRelation (mode : Mode) (e d : Block → Block) (iv : Block) (c p : Nat → Block) (i : Nat) : Prop :=
  match mode with
  | .ecb => p i = d (c i)
  | .cbc => p i = d (c i) ^^^ (if i = 0 then iv else c (i - 1))
  | .pcbc => p i = d (c i) ^^^ (if i = 0 then iv else p (i - 1) ^^^ c (i - 1))
  | .ctr => p i = c i ^^^ e (BitVec.ofNat 64 i)

/-- The cipher is ready: key and both S-boxes loaded (44_block_cipher.md R200). -/
def State.CipherLoaded (s : State) : Prop := s.keyv = true ∧ s.sb1v = true ∧ s.sb2v = true

/-- The hash length is legal: `1 ≤ H ≤ 128` (43_sponge_hash.md R180). -/
def State.HashLenOk (s : State) : Prop := 1 ≤ s.hLen ∧ s.hLen ≤ 128

/-- The range of `n` bytes at `addr` lies inside DM (20_memory.md R63). -/
def State.InDm (s : State) (addr n : Nat) : Prop := addr + n ≤ s.params.dmSize

/-! ## Runs -/

/-- The states that a core with a legal parameter record reaches from reset, whatever events come. -/
inductive Reachable : State → Prop where
  | reset (p : Params) (hp : p.wf = true) (events : List Event) :
    Reachable { State.resetOf p with pending := events }
  | step {s t : State} (hs : Reachable s) (hst : step s = .next t) : Reachable t

/-- Go on with `f` from the next state of an outcome. -/
def Result.thenRun (r : Result) (f : State → Result) : Result :=
  match r with
  | .next t => f t
  | .fault x => .fault x
  | .refused x => .refused x

/-- Run commands one after another, each from the state the one before left. -/
def runCommands : List Instr → State → Result
  | [], s => .next s
  | i :: is, s => Result.thenRun (exec i s) (runCommands is)

/-- The host places each block in DM at the address in `S[sSrc]` and issues SPABSB `sSrc` for it
(43_sponge_hash.md R190). -/
def absorbPlaced (sSrc : ScalReg) : List (List Byte) → State → Result
  | [], s => .next s
  | b :: bs, s =>
    Result.thenRun (exec (.spabsb sSrc) { s with dm := s.dm.writeBytes (s.scalNat sSrc) b }) (absorbPlaced sSrc bs)

end Sys2Proof.Machine
end

