-- ==== Sys2Proof/Certificates/Slice0/Obligations.lean ====
section
/-!
DEFINITION. The statements for the provers. Each says in its docstring which rule of the spec it formalises.
-/

open Sys2Proof Sys2Proof.Machine

/-! ## Encoding (30_encoding.md) -/

/-- R93, R94, R97: decoding the encoding of a well-formed command gives it back, with every operand at every value. -/
def Obligations.DecodeOfEncode : Prop :=
  ∀ i : Instr, i.wf = true → decode (encode i) = .ok i

/-- R95, R97: a word that decodes is the encoding of the command, and the command is well formed: one word for each
command, and no bit of the word is dropped. -/
def Obligations.EncodeOfDecode : Prop :=
  ∀ (w : Word) (i : Instr), decode w = .ok i → i.wf = true ∧ encode i = w

/-- R97: a word decodes iff it passes a row of the opcode table, the row is that of the decoded command, and at most
one row passes any word. -/
def Obligations.DecodesIffOneRowPasses : Prop :=
  ∀ w : Word,
    ((∃ i, decode w = .ok i) ↔ ∃ r ∈ opcodeRows, r.passes w = true) ∧
    (∀ i, decode w = .ok i → ∃ r ∈ opcodeRows, r.passes w = true ∧ r.op = i.opcode) ∧
    (∀ r ∈ opcodeRows, ∀ r' ∈ opcodeRows, r.passes w = true → r'.passes w = true → r = r')

/-- Words of the spec's examples (R251, R123, R126, R131, R153, R163, R189, R205, R214, R235 of files 40 to 46)
decode to the commands they stand for. -/
def Obligations.SampleWordsDecode : Prop :=
  decode 0x01834000 = .ok (.ldr 8 3 4) ∧ decode 0x11012300 = .ok (.modexp 0 1 2 3) ∧
  decode 0x12201000 = .ok (.xgcd 2 0 1) ∧ decode 0x14001000 = .ok (.mrwit 0 1) ∧
  decode 0x21100000 = .ok (.prnext 1) ∧ decode 0x30001200 = .ok (.ksinit 0 1 2) ∧
  decode 0x44012000 = .ok (.hash 0 1 2) ∧ decode 0x53000001 = .ok (.sbload .sb2) ∧
  decode 0x54100000 = .ok (.blkenc 1 0) ∧ decode 0x56012001 = .ok (.enc 0 1 2 .cbc)

/-! ## The step (60_exceptions.md R304, 20_memory.md R71) -/

/-- R304 `complete()`, R95: at the engine's turn a core with BUSY = 1 runs the meaning of the command that its latched
word decodes to; a word that is not a legal command completes with fault ILLEGAL_CMD (cause 1) and changes no other
state; a core with BUSY = 0 keeps its state. The turn is the oldest pending event, or falls to the engine when no event
is pending (the model's choice, log entry 3). -/
def Obligations.StepRunsDecodedCommand : Prop :=
  ∀ (s : State) (rest : List Event),
    (∀ i, s.busy = true → decode s.cmdLatch = .ok i →
      (s.pending = .engine :: rest → step s = exec i { s with pending := rest }) ∧
      (s.pending = [] → step s = exec i s)) ∧
    (∀ x, s.busy = true → decode s.cmdLatch = .error x →
      (s.pending = .engine :: rest → step s = .next
        { s with pending := rest, busy := false, err := true, faultCause := 1, fcmd := s.cmdLatch }) ∧
      (s.pending = [] → step s = .next
        { s with busy := false, err := true, faultCause := 1, fcmd := s.cmdLatch })) ∧
    (s.busy = false →
      (s.pending = .engine :: rest → step s = .next { s with pending := rest }) ∧
      (s.pending = [] → step s = .next s))

/-- Nothing stops the core: every step of every state has a next state (R304: every accepted command completes), and
no step changes the parameter record (00_scope.md R10). -/
def Obligations.NeverStopsAndKeepsParameters : Prop :=
  ∀ s : State, ∃ t, step s = .next t ∧ t.params = s.params

/-! ## Invariants (10_state.md R41, R42) -/

/-- The state after reset of a core with a legal parameter record, the reference core among them, meets the
invariant. -/
def Obligations.ResetMeetsInvariant : Prop :=
  State.reset.Inv ∧ ∀ p : Config.Params, p.wf = true → (State.resetOf p).Inv

/-- Every step, whatever event happens, keeps the invariant. -/
def Obligations.StepKeepsInvariant : Prop :=
  ∀ s t : State, s.Inv → step s = .next t → t.Inv

/-- R41, all six items, of every state that a core with a legal parameter record reaches from reset. -/
def Obligations.ReachableStatesMeetR41 : Prop :=
  ∀ s : State, Reachable s →
    (s.ksv = true → s.ks.Ok) ∧
    (s.keyv = true → s.mkey = s.key ^^^ s.params.nums) ∧
    (s.sb1v = true → Table.IsPerm s.sb1 256) ∧ (s.sb2v = true → Table.IsPerm s.sb2 256) ∧
    (s.xsv = true → s.xs ≠ 0) ∧
    (s.busy = true → s.done = false ∧ s.err = false) ∧
    (∀ t, step s = .next t → (∀ rest, s.pending ≠ .reset :: rest) →
      (s.xsv = true → t.xsv = true) ∧ (s.ksv = true → t.ksv = true) ∧ (s.keyv = true → t.keyv = true) ∧
      (s.sb1v = true → t.sb1v = true) ∧ (s.sb2v = true → t.sb2v = true))

/-- R42: the value of every piece of state after reset. -/
def Obligations.ResetValues : Prop :=
  ∀ (s : State) (rest : List Event), s.pending = .reset :: rest →
    ∃ t, step s = .next t ∧ t.params = s.params ∧
      (∀ k, t.big k = 0) ∧ (∀ k, t.scal k = 0) ∧ (∀ a, t.dm.read a = 0) ∧
      t.xs = 0 ∧ t.xsv = false ∧
      (∀ k : Fin 256, t.ks.s.get k = 0) ∧ t.ks.n = 0 ∧ t.ks.i = 0 ∧ t.ks.j = 0 ∧ t.ksv = false ∧
      (∀ k : Fin 256, t.st.get k = 0) ∧
      t.key = 0 ∧ t.mkey = 0 ∧ t.keyv = false ∧
      (∀ k : Fin 256, t.sb1.get k = 0 ∧ t.sb2.get k = 0) ∧ t.sb1v = false ∧ t.sb2v = false ∧
      t.hashLen = 32 ∧ t.squish = 3 ∧
      t.busy = false ∧ t.done = false ∧ t.err = false ∧ t.ovr = false ∧ t.prime = false ∧
      t.faultCause = 0 ∧ t.fcmd = 0 ∧ t.ieDone = false ∧ t.ieErr = false ∧ t.irq = false ∧ t.cmdLatch = 0

/-! ## Faults and footprints of all commands -/

/-- R302, R303, R304 with the causes of R301, R311: a command to which a cause applies completes by the fault entry with the
lowest cause code that applies, which changes the fault record and nothing else; a command to which none applies
completes with DONE and leaves ERR, FAULT and FCMD alone. R302, R95: a latched word that is no legal command makes the
fault entry with code 1 at the engine's turn. Two clauses rest on the model: the fault ILLEGAL_CMD of `exec` at an XGCD
with `rd` 14 or 15, which no word decodes to (log entry 9, DEDUCED), and the turn that falls to the engine when no event
is pending (log entry 3, DESIGN CHOICE). -/
def Obligations.LowestCauseReported : Prop :=
  ∀ (i : Instr) (s : State),
    (∀ c : Cause, c.applies i s → (∀ c' : Cause, c'.applies i s → c.code.toNat ≤ c'.code.toNat) →
      exec i s = .next (s.faulted c.code.toNat)) ∧
    ((∀ c : Cause, ¬c.applies i s) →
      ∃ t, exec i s = .next t ∧ t.busy = false ∧ t.done = true ∧
        t.err = s.err ∧ t.faultCause = s.faultCause ∧ t.fcmd = s.fcmd) ∧
    (∀ x rest, s.busy = true → decode s.cmdLatch = .error x →
      (s.pending = .engine :: rest → step s = .next (State.faulted { s with pending := rest } 1)) ∧
      (s.pending = [] → step s = .next (s.faulted 1)))

/-- The state each command may change (the lists of 10_state.md R21, R22, R24, R34 to R38): every command either makes
a fault entry or completes and writes nothing outside its footprint. -/
def Obligations.CommandFootprint : Prop :=
  ∀ (i : Instr) (s : State),
    (∃ c : Cause, exec i s = .next (s.faulted c.code.toNat)) ∨
    (∃ t, exec i s = .next t ∧ s.CompletesIn t (footprint i s))

/-- R304: no host transaction made while BUSY = 1 changes what the command in flight does. The completion after one
host transaction is the completion without it, but for OVR, IEN, and the model's record of the transaction. -/
def Obligations.HostCannotDisturbCommand : Prop :=
  ∀ (s : State) (e : Event) (rest : List Event),
    s.Inv → s.busy = true → e ≠ .engine → e ≠ .reset →
    ∃ a u v, step { s with pending := e :: .engine :: rest } = .next a ∧ step a = .next u ∧
      step { s with pending := .engine :: rest } = .next v ∧
      { u with ovr := v.ovr, ieDone := v.ieDone, ieErr := v.ieErr, bus := v.bus, freeCount := v.freeCount } = v

/-! ## Bytes and words (00_scope.md) -/

/-- R12, R13, and `MemRead` of R14: `le_int`, `le_bytes`, `rotl16`, and the bytes of a range of DM. -/
def Obligations.ByteAndWordPrimitives : Prop :=
  (∀ b : List Byte, leInt b = ∑ k ∈ Finset.range b.length, (b.getD k 0).toNat * 2 ^ (8 * k)) ∧
  (∀ n v : Nat, (leBytes n v).length = n ∧
    ∀ k < n, ((leBytes n v).getD k 0).toNat = v / 2 ^ (8 * k) % 2 ^ 8) ∧
  (∀ v : Half, rotl16 v 0 = v ∧
    ∀ k < 16, (rotl16 v k).toNat = ((v.toNat <<< k) ||| (v.toNat >>> (16 - k))) % 2 ^ 16) ∧
  (∀ (s : State) (addr n : Nat), (s.load addr n).length = n ∧
    ∀ k < n, (s.load addr n).getD k 0 = s.dm.read (addr + k))

/-! ## NOP, LDR, STR (46_move_and_nop.md) -/

/-- R250: NOP completes and changes nothing. -/
def Obligations.NopCompletes : Prop :=
  ∀ s : State, exec .nop s = .next { s with busy := false, done := true }

/-- R251: LDR completes when the length fits a register and the range fits DM; byte `k` of `R[rd]` is the byte of DM at
`S[sSrc] + k`, and the register holds no more than those bytes. -/
def Obligations.LdrLoadsBytes : Prop :=
  ∀ (s : State) (rd : BigReg) (sSrc sLen : ScalReg),
    s.scalNat sLen ≤ s.params.w / 8 → s.InDm (s.scalNat sSrc) (s.scalNat sLen) →
    ∃ t, exec (.ldr rd sSrc sLen) s = .next t ∧ s.CompletesIn t { big := [rd] } ∧
      t.big rd < 256 ^ s.scalNat sLen ∧
      ∀ k < s.scalNat sLen, byteOf (t.big rd) k = s.dm.read (s.scalNat sSrc + k)

/-- R252: STR completes when the length fits a register and the range fits DM; the byte of DM at `S[sDst] + k` is byte
`k` of `R[ra]`, and no other byte changes. LDR of the same range and length after it gives `R[ra] mod 2^(8n)`. -/
def Obligations.StrStoresBytes : Prop :=
  ∀ (s : State) (sDst : ScalReg) (ra : BigReg) (sLen : ScalReg),
    s.dm.wf = true → s.scalNat sLen ≤ s.params.w / 8 → s.InDm (s.scalNat sDst) (s.scalNat sLen) →
    (∃ t, exec (.str sDst ra sLen) s = .next t ∧
      s.CompletesIn t { dmAddr := s.scalNat sDst, dmLen := s.scalNat sLen } ∧
      ∀ k < s.scalNat sLen, t.dm.read (s.scalNat sDst + k) = byteOf (s.big ra) k) ∧
    (∀ rd, ∃ t, runCommands [.str sDst ra sLen, .ldr rd sDst sLen] s = .next t ∧
      t.big rd = s.big ra % 2 ^ (8 * s.scalNat sLen))

/-! ## Number theory (40_number_theory.md) -/

/-- R122: MODMUL with a modulus that is not 0. -/
def Obligations.ModmulResult : Prop :=
  ∀ (s : State) (rd ra rb rm : BigReg), s.BigOk → s.big rm ≠ 0 →
    ∃ t, exec (.modmul rd ra rb rm) s = .next t ∧ s.CompletesIn t { big := [rd] } ∧
      t.big rd = s.big ra * s.big rb % s.big rm

/-- R123: MODEXP with a modulus that is not 0 gives the power over the integers, reduced. -/
def Obligations.ModexpResult : Prop :=
  ∀ (s : State) (rd ra rb rm : BigReg), s.BigOk → s.big rm ≠ 0 →
    ∃ t, exec (.modexp rd ra rb rm) s = .next t ∧ s.CompletesIn t { big := [rd] } ∧
      t.big rd = s.big ra ^ s.big rb % s.big rm

/-- R125: the contract of `xgcd`, the recursive formulation, the values at zero, the bounds of the coefficients, and
that both fit a signed `w`-bit value when the operands lie below `2^w`. -/
def Obligations.XgcdContract : Prop :=
  ∀ a b : Nat,
    (xgcd a b).1 = Nat.gcd a b ∧
    (a : Int) * (xgcd a b).2.1 + (b : Int) * (xgcd a b).2.2 = (xgcd a b).1 ∧
    xgcd a 0 = (a, 1, 0) ∧ (0 < b → xgcd 0 b = (b, 0, 1)) ∧
    (0 < b → xgcd a b =
      ((xgcd b (a % b)).1, (xgcd b (a % b)).2.2,
        (xgcd b (a % b)).2.1 - (a / b : Nat) * (xgcd b (a % b)).2.2)) ∧
    (0 < a → 0 < b →
      (xgcd a b).2.1.natAbs ≤ max 1 (b / (2 * Nat.gcd a b)) ∧
      (xgcd a b).2.2.natAbs ≤ max 1 (a / (2 * Nat.gcd a b))) ∧
    (∀ w, 2 ≤ w → a < 2 ^ w → b < 2 ^ w →
      (xgcd a b).2.1.natAbs < 2 ^ (w - 1) ∧ (xgcd a b).2.2.natAbs < 2 ^ (w - 1))

/-- R126: XGCD writes the gcd and the two coefficients, in two's complement, to three consecutive registers. -/
def Obligations.XgcdResult : Prop :=
  ∀ (s : State) (rd ra rb : BigReg), s.BigOk → rd.val ≤ 13 →
    ∃ t x y, exec (.xgcd rd ra rb) s = .next t ∧ s.CompletesIn t { big := [rd, rd + 1, rd + 2] } ∧
      xgcd (s.big ra) (s.big rb) = (t.big rd, x, y) ∧
      (s.big ra : Int) * x + (s.big rb : Int) * y = t.big rd ∧
      (t.big (rd + 1) : Int) = x % (2 ^ s.params.w : Nat) ∧
      (t.big (rd + 2) : Int) = y % (2 ^ s.params.w : Nat)

/-- R127: MODINV of a value that is prime to a modulus that is not 0 gives the inverse in `[0, m)`. -/
def Obligations.ModinvResult : Prop :=
  ∀ (s : State) (rd ra rm : BigReg), s.BigOk → s.big rm ≠ 0 → Nat.gcd (s.big ra) (s.big rm) = 1 →
    ∃ t, exec (.modinv rd ra rm) s = .next t ∧ s.CompletesIn t { big := [rd] } ∧
      t.big rd < s.big rm ∧ s.big ra * t.big rd % s.big rm = 1 % s.big rm

/-- R128, R129, R130: the three Miller-Rabin functions. -/
def Obligations.MillerRabinFunctions : Prop :=
  (∀ n, n % 2 = 1 → 3 ≤ n →
    (mrDecompose n).1 * 2 ^ (mrDecompose n).2 = n - 1 ∧ (mrDecompose n).1 % 2 = 1 ∧ 1 ≤ (mrDecompose n).2) ∧
  (∀ n a d r, n % 2 = 1 → 5 ≤ n → 2 ≤ a → a ≤ n - 2 → n - 1 = d * 2 ^ r → d % 2 = 1 →
    (mrRound n a = true ↔ a ^ d % n = 1 ∨ ∃ k < r, a ^ (d * 2 ^ k) % n = n - 1)) ∧
  (∀ n, (n < 2 → mrPrecheck n = some false) ∧ (n = 2 ∨ n = 3 → mrPrecheck n = some true) ∧
    (n % 2 = 0 → 4 ≤ n → mrPrecheck n = some false) ∧ (n % 2 = 1 → 5 ≤ n → mrPrecheck n = none))

/-- R131: MRWIT completes unless the number needs a round and the base lies outside `[2, n-2]`; PRIME takes the
verdict. -/
def Obligations.MrwitResult : Prop :=
  ∀ (s : State) (rn rbase : BigReg),
    (mrUndecided (s.big rn) → 2 ≤ s.big rbase ∧ s.big rbase ≤ s.big rn - 2) →
    ∃ t, exec (.mrwit rn rbase) s = .next t ∧ s.CompletesIn t { prime := true } ∧
      (s.big rn < 2 → t.prime = false) ∧ (s.big rn = 2 ∨ s.big rn = 3 → t.prime = true) ∧
      (s.big rn % 2 = 0 → 4 ≤ s.big rn → t.prime = false) ∧
      (mrUndecided (s.big rn) → t.prime = mrRound (s.big rn) (s.big rbase))

/-- R132: MRTEST with a seeded PRNG. No draw when the pre-check decides; else `j` draws with bases
`2 + (XS mod (n-3))`, the test leaving at the first round that rejects. -/
def Obligations.MrtestResult : Prop :=
  ∀ (s : State) (rn : BigReg) (iters : Byte), s.xsv = true →
    ∃ t, exec (.mrtest rn iters) s = .next t ∧ s.CompletesIn t { prime := true, xs := true } ∧
      (¬mrUndecided (s.big rn) →
        t.xs = s.xs ∧ (t.prime = true ↔ s.big rn = 2 ∨ s.big rn = 3)) ∧
      (mrUndecided (s.big rn) →
        ∃ j ≤ iters.toNat, t.xs = (xsStep s.params.xsSteps)^[j] s.xs ∧
          (∀ k, 1 ≤ k → k < j →
            mrRound (s.big rn) (2 + ((xsStep s.params.xsSteps)^[k] s.xs).toNat % (s.big rn - 3)) = true) ∧
          ((t.prime = true ∧ j = iters.toNat ∧
              (1 ≤ j → mrRound (s.big rn) (2 + ((xsStep s.params.xsSteps)^[j] s.xs).toNat % (s.big rn - 3)) = true)) ∨
            (t.prime = false ∧ 1 ≤ j ∧
              mrRound (s.big rn) (2 + ((xsStep s.params.xsSteps)^[j] s.xs).toNat % (s.big rn - 3)) = false)))

/-- R133, R131, R132: PRIME = 0 from the round loop proves the number composite, said of the primes: a prime passes
MRWIT with every legal base, and MRTEST with whatever the PRNG draws, with one draw for each iteration. -/
def Obligations.PrimesAlwaysPass : Prop :=
  ∀ (s : State) (rn : BigReg), Nat.Prime (s.big rn) →
    (∀ rbase, (5 ≤ s.big rn → 2 ≤ s.big rbase ∧ s.big rbase ≤ s.big rn - 2) →
      ∃ t, exec (.mrwit rn rbase) s = .next t ∧ t.done = true ∧ t.prime = true) ∧
    (∀ iters : Byte, s.xsv = true →
      ∃ t, exec (.mrtest rn iters) s = .next t ∧ t.done = true ∧ t.prime = true ∧
        (5 ≤ s.big rn → t.xs = (xsStep s.params.xsSteps)^[iters.toNat] s.xs))

/-! ## PRNG (41_prng.md) -/

/-- R152, R153: PRSEED with a seed whose low 512 bits are not 0, and PRNEXT of a seeded PRNG. -/
def Obligations.PrngCommandResults : Prop :=
  (∀ (s : State) (ra : BigReg), s.big ra % 2 ^ 512 ≠ 0 →
    ∃ t, exec (.prseed ra) s = .next t ∧ s.CompletesIn t { xs := true, xsv := true } ∧
      t.xsv = true ∧ t.xs.toNat = s.big ra % 2 ^ 512) ∧
  (∀ (s : State) (rd : BigReg), s.params.wf = true → s.xsv = true →
    ∃ t, exec (.prnext rd) s = .next t ∧ s.CompletesIn t { big := [rd], xs := true } ∧
      t.xs = xsStep s.params.xsSteps s.xs ∧ t.big rd = t.xs.toNat)

/-- R151, R154: `xs_step` over the integers, the three steps of `XS_STEPS` in order, each `x XOR ((x << k) mod 2^512)` or
`x XOR (x >> k)`; and the zero state of the PRNG: `xs_step` is a bijection that fixes 0, PRSEED refuses a zero seed, reset
leaves the PRNG unseeded, and a seeded PRNG of a reachable state is not at 0. -/
def Obligations.ZeroStateNeverReached : Prop :=
  (∀ (steps : Vector Config.XsStep 3) (x : BitVec 512),
    (xsStep steps x).toNat = xsShiftInt steps[2] (xsShiftInt steps[1] (xsShiftInt steps[0] x.toNat))) ∧
  (∀ p : Config.Params, p.wf = true →
    Function.Bijective (xsStep p.xsSteps) ∧ xsStep p.xsSteps 0 = 0 ∧
    (∀ x, x ≠ 0 → xsStep p.xsSteps x ≠ 0) ∧ (State.resetOf p).xsv = false) ∧
  (∀ (s : State) (ra : BigReg), s.big ra % 2 ^ 512 = 0 → exec (.prseed ra) s = .next (s.faulted 10)) ∧
  (∀ s : State, Reachable s → s.xsv = true → s.xs ≠ 0)

/-! ## Keystream unit (42_keystream.md) -/

/-- R161: the key schedule, written as a sequence of arrays `T i` and indices `J i` over the integers. -/
def Obligations.KeySchedule : Prop :=
  ∀ (s : State) (key : List Byte) (n : Nat), key ≠ [] → 1 ≤ n → n ≤ 256 →
    ∃ (T : Nat → Nat → Nat) (J : Nat → Nat),
      (∀ k < n, T 0 k = k) ∧ J 0 = 0 ∧
      (∀ i < n, J (i + 1) = (J i + T i i + (key.getD (i % key.length) 0).toNat) % n ∧
        ∀ k < n, T (i + 1) k = if k = i then T i (J (i + 1)) else if k = J (i + 1) then T i i else T i k) ∧
      (∀ k < n, (s.initKs key n).ks.entry k = T n k) ∧
      (∀ k, n ≤ k → (s.initKs key n).ks.entry k = 0) ∧
      (s.initKs key n).ks.n.toNat = n ∧ (s.initKs key n).ks.i = 0 ∧ (s.initKs key n).ks.j = 0 ∧
      (s.initKs key n).ksv = true ∧ (s.initKs key n).ks.Ok

/-- R162: the output step over the integers: new indices, the swap, the byte, which lies below `KS.N`; the unit stays
a permutation. -/
def Obligations.OutputStep : Prop :=
  ∀ u : Keystream, u.Ok →
    (ksNext u).2.n = u.n ∧
    (ksNext u).2.i.toNat = (u.i.toNat + 1) % u.n.toNat ∧
    (ksNext u).2.j.toNat = (u.j.toNat + u.entry (ksNext u).2.i.toNat) % u.n.toNat ∧
    (∀ k < 256, (ksNext u).2.entry k =
      if k = (ksNext u).2.i.toNat then u.entry (ksNext u).2.j.toNat
      else if k = (ksNext u).2.j.toNat then u.entry (ksNext u).2.i.toNat else u.entry k) ∧
    (ksNext u).1.toNat = (ksNext u).2.entry
      (((ksNext u).2.entry (ksNext u).2.i.toNat + (ksNext u).2.entry (ksNext u).2.j.toNat) % u.n.toNat) ∧
    (ksNext u).1.toNat < u.n.toNat ∧ (ksNext u).2.Ok

/-- R163: KSINIT keys the unit from the bytes of DM; only the first `N` key bytes matter. -/
def Obligations.KsinitResult : Prop :=
  ∀ (s : State) (sKey sLen sN : ScalReg),
    1 ≤ s.scalNat sN → s.scalNat sN ≤ 256 → s.scalNat sLen ≠ 0 → s.InDm (s.scalNat sKey) (s.scalNat sLen) →
    ∃ t, exec (.ksinit sKey sLen sN) s = .next t ∧ s.CompletesIn t { ks := true, ksv := true } ∧
      t.ksv = true ∧ t.ks.Ok ∧ t.ks.n.toNat = s.scalNat sN ∧
      t.ks = ksInit (s.load (s.scalNat sKey) (s.scalNat sLen)) (s.scalNat sN) ∧
      t.ks = ksInit ((s.load (s.scalNat sKey) (s.scalNat sLen)).take (s.scalNat sN)) (s.scalNat sN)

/-- R164: KSNEXT of an initialised unit. -/
def Obligations.KsnextResult : Prop :=
  ∀ (s : State) (sd : ScalReg), s.ksv = true → s.ks.Ok →
    ∃ t, exec (.ksnext sd) s = .next t ∧ s.CompletesIn t { scal := [sd], ks := true } ∧
      t.ks = (ksNext s.ks).2 ∧ t.scalNat sd = (ksNext s.ks).1.toNat ∧ t.scalNat sd < s.ks.n.toNat

/-- R165: KSBYTES of length `n` writes the bytes that `n` KSNEXT produce and leaves the unit as they do. -/
def Obligations.KsbytesEqualsKsnexts : Prop :=
  ∀ (s : State) (sDst sLen sd : ScalReg),
    s.dm.wf = true → s.ksv = true → s.InDm (s.scalNat sDst) (s.scalNat sLen) →
    ∃ (t : State) (run : Nat → State), exec (.ksbytes sDst sLen) s = .next t ∧
      s.CompletesIn t { dmAddr := s.scalNat sDst, dmLen := s.scalNat sLen, ks := true } ∧
      run 0 = s ∧ (∀ k < s.scalNat sLen, exec (.ksnext sd) (run k) = .next (run (k + 1))) ∧
      (∀ k < s.scalNat sLen, (t.dm.read (s.scalNat sDst + k)).toNat = (run (k + 1)).scalNat sd) ∧
      t.ks = (run (s.scalNat sLen)).ks

/-- R166: KSCIPH masks each source byte with the byte that KSBYTES would have written there, and leaves the unit as
KSBYTES does. Deciphering is the same command applied to the ciphertext from the same unit state. -/
def Obligations.KsciphResult : Prop :=
  ∀ (s : State) (sDst sSrc sLen : ScalReg),
    s.dm.wf = true → s.ksv = true → s.InDm (s.scalNat sSrc) (s.scalNat sLen) →
    s.InDm (s.scalNat sDst) (s.scalNat sLen) →
    ∃ t u v, exec (.ksciph sDst sSrc sLen) s = .next t ∧ exec (.ksbytes sDst sLen) s = .next u ∧
      s.CompletesIn t { dmAddr := s.scalNat sDst, dmLen := s.scalNat sLen, ks := true } ∧
      t.ks = u.ks ∧
      (∀ k < s.scalNat sLen,
        t.dm.read (s.scalNat sDst + k) = s.dm.read (s.scalNat sSrc + k) ^^^ u.dm.read (s.scalNat sDst + k)) ∧
      exec (.ksciph sDst sDst sLen) { t with ks := s.ks } = .next v ∧
      (∀ k < s.scalNat sLen, v.dm.read (s.scalNat sDst + k) = s.dm.read (s.scalNat sSrc + k))

/-- R167: KSPERM writes the array in use, a permutation of `0..KS.N-1`, and leaves the unit alone. -/
def Obligations.KspermResult : Prop :=
  ∀ (s : State) (sDst : ScalReg),
    s.dm.wf = true → s.ksv = true → s.ks.Ok → s.InDm (s.scalNat sDst) s.ks.n.toNat →
    ∃ t, exec (.ksperm sDst) s = .next t ∧
      s.CompletesIn t { dmAddr := s.scalNat sDst, dmLen := s.ks.n.toNat } ∧
      (∀ k < s.ks.n.toNat, (t.dm.read (s.scalNat sDst + k)).toNat = s.ks.entry k) ∧
      (∀ v < s.ks.n.toNat, ∃ k < s.ks.n.toNat, (t.dm.read (s.scalNat sDst + k)).toNat = v)

/-! ## Sponge (43_sponge_hash.md) -/

/-- R181, R185, R188: SPINIT lays the bitrate `8·H` into a cleared state; SPOUT copies the first `H` bytes of state. -/
def Obligations.SpinitSpoutResults : Prop :=
  (∀ s : State, s.HashLenOk →
    ∃ t, exec .spinit s = .next t ∧ s.CompletesIn t { st := true } ∧
      (t.st.get 0).toNat = 8 * s.hLen % 256 ∧ (t.st.get 1).toNat = 8 * s.hLen / 256 ∧
      ∀ k : Fin 256, 2 ≤ k.val → t.st.get k = 0) ∧
  (∀ (s : State) (sDst : ScalReg), s.dm.wf = true → s.HashLenOk → s.InDm (s.scalNat sDst) s.hLen →
    ∃ t, exec (.spout sDst) s = .next t ∧ s.CompletesIn t { dmAddr := s.scalNat sDst, dmLen := s.hLen } ∧
      ∀ k : Fin 256, k.val < s.hLen → t.dm.read (s.scalNat sDst + k.val) = s.st.get k)

/-- R182, R187: SPPERM re-keys the keystream unit with the `2·H` state bytes and gathers them by its permutation; the
bytes are moved, none is changed, and the state from `2·H` on is untouched. -/
def Obligations.SppermResult : Prop :=
  ∀ s : State, s.HashLenOk →
    ∃ t, exec .spperm s = .next t ∧ s.CompletesIn t { st := true, ks := true, ksv := true } ∧
      t.ksv = true ∧ t.ks = ksInit (Table.first s.st (2 * s.hLen)) (2 * s.hLen) ∧ t.ks.Ok ∧
      (∀ k : Fin 256, k.val < 2 * s.hLen → t.st.get k = s.st.get (t.ks.s.get k).toFin) ∧
      (∀ k : Fin 256, 2 * s.hLen ≤ k.val → t.st.get k = s.st.get k) ∧
      (Table.first t.st (2 * s.hLen)).Perm (Table.first s.st (2 * s.hLen))

/-- R183, R186: SPABSB is SPPERM of the state with the `H` bytes of DM XORed into its rate part. -/
def Obligations.SpabsbResult : Prop :=
  ∀ (s : State) (sSrc : ScalReg), s.HashLenOk → s.InDm (s.scalNat sSrc) s.hLen →
    ∃ t x, exec (.spabsb sSrc) s = .next t ∧ exec .spperm { s with st := x } = .next t ∧
      s.CompletesIn t { st := true, ks := true, ksv := true } ∧
      (∀ k : Fin 256, k.val < s.hLen → x.get k = s.st.get k ^^^ s.dm.read (s.scalNat sSrc + k.val)) ∧
      (∀ k : Fin 256, s.hLen ≤ k.val → x.get k = s.st.get k)

/-- R184, R189, R190: HASH completes and is equal, in its effect on `ST`, on the keystream unit and on the digest
bytes, to the staged sequence SPINIT, SPABSB for each block of the padded `msg ‖ HASH_SEED`, `SQUISH` times SPPERM,
SPOUT. -/
def Obligations.HashEqualsStaged : Prop :=
  ∀ (s : State) (sDst sSrc sLen sBlk : ScalReg),
    s.dm.wf = true → s.HashLenOk → s.InDm (s.scalNat sSrc) (s.scalNat sLen) → s.InDm (s.scalNat sDst) s.hLen →
    s.InDm (s.scalNat sBlk) s.hLen →
    ∃ (t u : State) (zeros : Nat) (blocks : List (List Byte)),
      zeros < s.hLen ∧ (∀ b ∈ blocks, b.length = s.hLen) ∧
      blocks.flatten =
        s.load (s.scalNat sSrc) (s.scalNat sLen) ++ s.params.hashSeed ++ List.replicate zeros 0 ∧
      exec (.hash sDst sSrc sLen) s = .next t ∧
      s.CompletesIn t { dmAddr := s.scalNat sDst, dmLen := s.hLen, st := true, ks := true, ksv := true } ∧
      Result.thenRun (exec .spinit s) (fun a =>
        Result.thenRun (absorbPlaced sBlk blocks a) (fun b =>
          runCommands (List.replicate s.squish.toNat .spperm ++ [.spout sDst]) b)) = .next u ∧
      t.st = u.st ∧ t.ks = u.ks ∧ t.ksv = u.ksv ∧
      (∀ k < s.hLen, t.dm.read (s.scalNat sDst + k) = u.dm.read (s.scalNat sDst + k)) ∧
      (∀ k : Fin 256, k.val < s.hLen → t.dm.read (s.scalNat sDst + k.val) = t.st.get k)

/-- R189: the digest is a function of the message bytes, `H`, `SQUISH` and `HASH_SEED` only. -/
def Obligations.DigestDependsOnlyOnMessage : Prop :=
  ∀ (s s' : State) (sDst sSrc sLen sDst' sSrc' sLen' : ScalReg),
    s.dm.wf = true → s'.dm.wf = true → s.HashLenOk →
    s'.hashLen = s.hashLen → s'.squish = s.squish → s'.params.hashSeed = s.params.hashSeed →
    s.InDm (s.scalNat sSrc) (s.scalNat sLen) → s.InDm (s.scalNat sDst) s.hLen →
    s'.InDm (s'.scalNat sSrc') (s'.scalNat sLen') → s'.InDm (s'.scalNat sDst') s'.hLen →
    s'.load (s'.scalNat sSrc') (s'.scalNat sLen') = s.load (s.scalNat sSrc) (s.scalNat sLen) →
    ∃ t t', exec (.hash sDst sSrc sLen) s = .next t ∧ exec (.hash sDst' sSrc' sLen') s' = .next t' ∧
      t'.load (s'.scalNat sDst') s'.hLen = t.load (s.scalNat sDst) s.hLen

/-! ## Block cipher (44_block_cipher.md) -/

/-- R201, R202, R204: KEYLD loads the low 128 bits and the modified key; KEYRD reads both back. -/
def Obligations.KeyldKeyrdResults : Prop :=
  (∀ (s : State) (ra : BigReg),
    ∃ t, exec (.keyld ra) s = .next t ∧ s.CompletesIn t { key := true, keyv := true } ∧
      t.key.toNat = s.big ra % 2 ^ 128 ∧ t.mkey = t.key ^^^ s.params.nums ∧ t.keyv = true) ∧
  (∀ (s : State) (rd : BigReg), s.params.wf = true → s.keyv = true →
    ∃ t, exec (.keyrd rd) s = .next t ∧ s.CompletesIn t { big := [rd] } ∧
      t.big rd = s.mkey.toNat * 2 ^ 128 + s.key.toNat)

/-- R203: KEYKS makes the key of the next sixteen keystream bytes, the first drawn the least significant. -/
def Obligations.KeyksResult : Prop :=
  ∀ s : State, s.ksv = true →
    ∃ t, exec .keyks s = .next t ∧ s.CompletesIn t { key := true, keyv := true, ks := true } ∧
      t.keyv = true ∧ t.mkey = t.key ^^^ s.params.nums ∧ t.ks = Keystream.advance^[16] s.ks ∧
      ∀ k < 16, byteOf t.key.toNat k = (Keystream.advance^[k + 1] s.ks).output

/-- R205: SBLOAD copies a 256-entry permutation of an initialised unit into the box that the immediate names. -/
def Obligations.SbloadResult : Prop :=
  ∀ s : State, s.ksv = true → s.ks.Ok → s.ks.n.toNat = 256 →
    (∃ t, exec (.sbload .sb1) s = .next t ∧ s.CompletesIn t { sb1 := true } ∧
      t.sb1 = s.ks.s ∧ t.sb1v = true ∧ Table.IsPerm t.sb1 256) ∧
    (∃ t, exec (.sbload .sb2) s = .next t ∧ s.CompletesIn t { sb2 := true } ∧
      t.sb2 = s.ks.s ∧ t.sb2v = true ∧ Table.IsPerm t.sb2 256)

/-- R212, R213: the eight rounds of `enc_block` as sequences of halves; decryption undoes encryption and encryption
undoes decryption, for every key, every pair of S-box tables and every `FI_FN`. -/
def Obligations.BlockRoundsAndRoundTrip : Prop :=
  ∀ (c : CipherCtx) (x : Block),
    (∃ L R : Nat → Word,
      L 0 = x.extractLsb' 32 32 ∧ R 0 = x.extractLsb' 0 32 ∧
      (∀ i < 8, L (i + 1) = R i ^^^ roundF c i (L i) ∧ R (i + 1) = L i) ∧
      (encBlock c x).toNat = (L 8).toNat * 2 ^ 32 + (R 8).toNat) ∧
    decBlock c (encBlock c x) = x ∧ encBlock c (decBlock c x) = x

/-- R214, R215: BLKENC and BLKDEC of a core whose cipher is loaded, and the one after the other. -/
def Obligations.BlkencBlkdecResults : Prop :=
  ∀ (s : State) (rd ra re : BigReg), s.params.wf = true → s.CipherLoaded →
    (∃ t, exec (.blkenc rd ra) s = .next t ∧ s.CompletesIn t { big := [rd] } ∧
      t.big rd = (encBlock s.cipherCtx (BitVec.ofNat 64 (s.big ra))).toNat) ∧
    (∃ t, exec (.blkdec rd ra) s = .next t ∧ s.CompletesIn t { big := [rd] } ∧
      t.big rd = (decBlock s.cipherCtx (BitVec.ofNat 64 (s.big ra))).toNat) ∧
    (∃ t, runCommands [.blkenc rd ra, .blkdec re rd] s = .next t ∧ t.big re = s.big ra % 2 ^ 64)

/-- R216: what BLKENC and BLKDEC depend on: the 64-bit input, `KEY`, `SB1`, `SB2` and the parameters `NUMS`,
`SUBKEY_TABLE`, `FI_FN`, `GF16_POLY`. -/
def Obligations.BlockCommandsDependOnlyOnKeyAndBoxes : Prop :=
  ∀ (s s' : State) (rd ra rd' ra' : BigReg), s.Inv → s'.Inv → s.CipherLoaded → s'.CipherLoaded →
    s'.params.nums = s.params.nums → s'.params.subkeyTable = s.params.subkeyTable → s'.params.fi = s.params.fi →
    s'.params.gf16Poly = s.params.gf16Poly → s'.key = s.key → s'.sb1 = s.sb1 → s'.sb2 = s.sb2 →
    s'.big ra' % 2 ^ 64 = s.big ra % 2 ^ 64 →
    (∃ t t', exec (.blkenc rd ra) s = .next t ∧ exec (.blkenc rd' ra') s' = .next t' ∧ t'.big rd' = t.big rd) ∧
    (∃ t t', exec (.blkdec rd ra) s = .next t ∧ exec (.blkdec rd' ra') s' = .next t' ∧ t'.big rd' = t.big rd)

/-- R209: `gf16_mul` bit by bit of its second operand over the integers (`a << 1`, reduced when bit 16 is set), for every
polynomial of degree 16; `gf16_inv(0) = 0`; and for every irreducible one, `gf16_mul(a, gf16_inv(a)) = 1` for every `a`
but 0. R206, R209, R210: values the spec prints: the subkeys of round 0 of the reference key, and reference values of
the field functions. -/
def Obligations.CipherReferenceValues : Prop :=
  (∀ p : BitVec 17, p.getLsbD 16 = true →
    (∀ a : Half, gf16Mul p a 0 = 0) ∧
    (∀ a b : Half, ∃ a2 b2 : Half,
      a2.toNat = (if 2 ^ 16 ≤ 2 * a.toNat then (2 * a.toNat) ^^^ p.toNat else 2 * a.toNat) ∧ b2.toNat = b.toNat / 2 ∧
      gf16Mul p a b = (if b.toNat % 2 = 1 then a else 0) ^^^ gf16Mul p a2 b2) ∧
    gf16Inv p 0 = 0 ∧
    (Config.gf2Irreducible p = true → ∀ a : Half, a ≠ 0 → gf16Mul p a (gf16Inv p a) = 1)) ∧
  (∀ c : CipherCtx, c.params = Config.ref → c.key = 0x00112233445566778899AABBCCDDEEFF →
    c.mkey = c.key ^^^ Config.ref.nums →
    subkeys c 0 = ⟨0xDDFF, 0x1023, 0x9BB9, 0x5544, 0x6446, 0xAB98, 0x7645, 0x0132⟩ ∧ fl c (subkeys c 0) 0 = 0x018B0000) ∧
  gf16Inv 0x1002B 1 = 1 ∧ gf16Inv 0x1002B 2 = 0x8015 ∧ gf16Inv 0x1002B 3 = 0xFFE6 ∧
  gf16Inv 0x1002B 0x8000 = 0x0A6F ∧ gf16Inv 0x1002B 0xFFFF = 0x6791 ∧ gf16Inv 0x1002B 0x1234 = 0xA959 ∧
  gf16Mul 0x1002B 0x8000 2 = 0x002B

/-! ## Chaining modes (45_chaining_modes.md) -/

/-- R230 to R235: ENC of `n` bytes writes the `ceil(n/8)` ciphertext blocks of its mode, chained from `IV`, of the
zero-padded message; every block is little-endian. -/
def Obligations.EncResult : Prop :=
  ∀ (s : State) (sDst sSrc sLen : ScalReg) (mode : Mode),
    s.dm.wf = true → s.CipherLoaded → s.InDm (s.scalNat sSrc) (s.scalNat sLen) →
    s.InDm (s.scalNat sDst) (8 * ((s.scalNat sLen + 7) / 8)) →
    ∃ (t : State) (P C : Nat → Block), exec (.enc sDst sSrc sLen mode) s = .next t ∧
      s.CompletesIn t { dmAddr := s.scalNat sDst, dmLen := 8 * ((s.scalNat sLen + 7) / 8) } ∧
      (∀ i < (s.scalNat sLen + 7) / 8, ∀ j < 8, byteOf (P i).toNat j =
        if 8 * i + j < s.scalNat sLen then s.dm.read (s.scalNat sSrc + (8 * i + j)) else 0) ∧
      (∀ i < (s.scalNat sLen + 7) / 8,
        encRelation mode (encBlock s.cipherCtx) s.params.ivFixed P C i) ∧
      (∀ i < (s.scalNat sLen + 7) / 8, ∀ j < 8,
        t.dm.read (s.scalNat sDst + (8 * i + j)) = byteOf (C i).toNat j)

/-- R230 to R234, R236: DEC of a whole number of blocks writes the plaintext blocks of its mode, chained from `IV`. -/
def Obligations.DecResult : Prop :=
  ∀ (s : State) (sDst sSrc sLen : ScalReg) (mode : Mode),
    s.dm.wf = true → s.CipherLoaded → s.scalNat sLen % 8 = 0 → s.InDm (s.scalNat sSrc) (s.scalNat sLen) →
    s.InDm (s.scalNat sDst) (s.scalNat sLen) →
    ∃ (t : State) (C P : Nat → Block), exec (.dec sDst sSrc sLen mode) s = .next t ∧
      s.CompletesIn t { dmAddr := s.scalNat sDst, dmLen := s.scalNat sLen } ∧
      (∀ i < s.scalNat sLen / 8, ∀ j < 8, byteOf (C i).toNat j = s.dm.read (s.scalNat sSrc + (8 * i + j))) ∧
      (∀ i < s.scalNat sLen / 8,
        decRelation mode (encBlock s.cipherCtx) (decBlock s.cipherCtx) s.params.ivFixed C P i) ∧
      (∀ i < s.scalNat sLen / 8, ∀ j < 8,
        t.dm.read (s.scalNat sDst + (8 * i + j)) = byteOf (P i).toNat j)

/-- R237 (b): for every mode, DEC of what ENC of `n` bytes produced gives the message followed by zero bytes. -/
def Obligations.EncThenDecRestores : Prop :=
  ∀ (s : State) (sDst sSrc sLen sBack sLen' : ScalReg) (mode : Mode),
    s.dm.wf = true → s.CipherLoaded → s.InDm (s.scalNat sSrc) (s.scalNat sLen) →
    s.scalNat sLen' = 8 * ((s.scalNat sLen + 7) / 8) → s.InDm (s.scalNat sDst) (s.scalNat sLen') →
    s.InDm (s.scalNat sBack) (s.scalNat sLen') →
    ∃ t, runCommands [.enc sDst sSrc sLen mode, .dec sBack sDst sLen' mode] s = .next t ∧
      (∀ k < s.scalNat sLen, t.dm.read (s.scalNat sBack + k) = s.dm.read (s.scalNat sSrc + k)) ∧
      (∀ k, s.scalNat sLen ≤ k → k < s.scalNat sLen' → t.dm.read (s.scalNat sBack + k) = 0)

/-! ## The host interface (10_state.md, 20_memory.md, 60_exceptions.md) -/

/-- R27, R304 `issue(w)`, R305: a CMD write is accepted iff BUSY = 0 and ERR = 0; otherwise it is dropped and sets
OVR. The response is OK either way. -/
def Obligations.CommandIssue : Prop :=
  ∀ (s : State) (w : Word) (rest : List Event), s.pending = .write 0x0004 w :: rest →
    (s.busy = false → s.err = false → step s = .next
      { s with pending := rest, bus := some .writeOk, cmdLatch := w, busy := true, done := false }) ∧
    (s.busy = true ∨ s.err = true → step s = .next
      { s with pending := rest, bus := some .writeOk, ovr := true })

/-- R28: a write to STATUS clears each of DONE, ERR, OVR whose written bit is 1 and changes nothing else. -/
def Obligations.StatusWriteClears : Prop :=
  ∀ (s : State) (w : Word) (rest : List Event), s.pending = .write 0x0008 w :: rest →
    step s = .next
      { s with
        pending := rest, bus := some .writeOk,
        done := if w.getLsbD 1 then false else s.done,
        err := if w.getLsbD 2 then false else s.err,
        ovr := if w.getLsbD 3 then false else s.ovr }

/-- R306: after a fault entry, writing 1 to STATUS bit 2 gives the state before the faulting command plus the fault
record, and the next command is accepted. -/
def Obligations.AcknowledgeRestores : Prop :=
  ∀ (s : State) (c : Cause) (w : Word) (rest : List Event), s.Inv → s.busy = true →
    s.pending = .write 0x0008 4 :: .write 0x0004 w :: rest →
    ∃ a b, step (s.faulted c.code.toNat) = .next a ∧ step a = .next b ∧
      a = { s with
        pending := .write 0x0004 w :: rest, bus := some .writeOk, busy := false,
        faultCause := c.code, fcmd := s.cmdLatch } ∧
      b.busy = true ∧ b.cmdLatch = w ∧ b.faultCause = c.code ∧ b.fcmd = s.cmdLatch

/-- R28, R30, R308: the bits that a read of STATUS returns, reserved bits among them, and the interrupt output. -/
def Obligations.StatusAndInterrupt : Prop :=
  ∀ s : State,
    (∀ rest, s.pending = .read 0x0008 :: rest →
      ∃ d, step s = .next { s with pending := rest, bus := some (.readOk d) } ∧
        ∀ k < 32, d.getLsbD k =
          match k with
          | 0 => s.busy
          | 1 => s.done
          | 2 => s.err
          | 3 => s.ovr
          | 4 => s.prime
          | 8 => s.xsv
          | 9 => s.ksv
          | 10 => s.keyv
          | 11 => s.sb1v
          | 12 => s.sb2v
          | _ => false) ∧
    (s.irq = true ↔ (s.done = true ∧ s.ieDone = true) ∨ (s.err = true ∧ s.ieErr = true))

/-- R62, R67, R310, R71: a step with a pending host transaction performs it. A transaction that is misaligned, unmapped
or of another width gets the response ERROR and changes no state; every other transaction gets the response OK; a read
changes no state at any address. -/
def Obligations.HostTransactions : Prop :=
  ∀ (s : State) (addr : BitVec 16) (d : Word) (isWrite : Bool) (rest : List Event),
    (s.pending = .read addr :: rest →
      ∃ t, step s = .next t ∧ t = State.hostRead { s with pending := rest } addr ∧
        t.pending = rest ∧ s.SameCore t ∧
        (¬Mapped s.params addr → ∃ x, t.bus = some (.readError x)) ∧
        (Mapped s.params addr → ∃ x, t.bus = some (.readOk x))) ∧
    (s.pending = .write addr d :: rest →
      ∃ t, step s = .next t ∧ t = State.hostWrite { s with pending := rest } addr d ∧ t.pending = rest ∧
        (¬Mapped s.params addr → s.SameCore t ∧ t.bus = some .writeError) ∧
        (Mapped s.params addr → t.bus = some .writeOk)) ∧
    (s.pending = .otherWidth isWrite addr :: rest →
      ∃ t, step s = .next t ∧ t.pending = rest ∧ s.SameCore t ∧
        (isWrite = true → t.bus = some .writeError) ∧ (isWrite = false → ∃ x, t.bus = some (.readError x)))

/-- R70 (b), (e), R307: while BUSY = 1 a write to HCFG, a scalar register, a big-register word or a DM word is dropped
and sets OVR; a read of KSST or of one of those registers but HCFG returns a word that nothing the core holds
determines (a free value, log entry 4). -/
def Obligations.BusyHostAccess : Prop :=
  ∀ (s : State) (addr : BitVec 16) (d : Word), s.busy = true →
    (DroppedWhileBusy s.params addr → s.hostWrite addr d = { s with ovr := true, bus := some .writeOk }) ∧
    (HiddenWhileBusy s.params addr →
      (∃ x, (s.hostRead addr).bus = some (.readOk x)) ∧
      ∀ s' : State, s'.busy = true → s'.params = s.params → s'.freeCount = s.freeCount →
        (s'.hostRead addr).bus = (s.hostRead addr).bus)

/-- R26 to R33, R22, R67: what a host read of each control register and scalar register returns, and what a host write
of each does. -/
def Obligations.ControlRegisters : Prop :=
  ∀ (s : State) (d : Word), s.params.wf = true →
    (s.hostRead 0x0000).bus = some (.readOk s.params.idValue) ∧
    (s.hostRead 0x0004).bus = some (.readOk 0) ∧
    (∃ x, (s.hostRead 0x000C).bus = some (.readOk x) ∧ x.toNat = s.faultCause.toNat) ∧
    (s.hostRead 0x0010).bus = some (.readOk s.fcmd) ∧
    (∃ x, (s.hostRead 0x0014).bus = some (.readOk x) ∧ x.toNat = s.ieDone.toNat + 2 * s.ieErr.toNat) ∧
    (∃ x, (s.hostRead 0x0018).bus = some (.readOk x) ∧ x.toNat = s.hashLen.toNat + 2 ^ 8 * s.squish.toNat) ∧
    (∃ x y, (s.hostRead 0x0040).bus = some (.readOk x) ∧ (s.hostRead 0x0044).bus = some (.readOk y) ∧
      s.params.ivFixed.toNat = x.toNat + 2 ^ 32 * y.toNat) ∧
    (∃ x, (s.hostRead 0x0048).bus = some (.readOk x) ∧ x.toNat = s.params.w) ∧
    (∃ x, (s.hostRead 0x004C).bus = some (.readOk x) ∧ x.toNat = s.params.dmSize) ∧
    (s.busy = false →
      (∃ x, (s.hostRead 0x001C).bus = some (.readOk x) ∧
        x.toNat = s.ks.n.toNat + 2 ^ 16 * s.ks.i.toNat + 2 ^ 24 * s.ks.j.toNat) ∧
      (∀ k : ScalReg, (s.hostRead (BitVec.ofNat 16 (0x20 + 4 * k.val))).bus = some (.readOk (s.scal k)))) ∧
    s.hostWrite 0x0014 d = { s with ieDone := d.getLsbD 0, ieErr := d.getLsbD 1, bus := some .writeOk } ∧
    (s.busy = false →
      s.hostWrite 0x0018 d =
        { s with hashLen := BitVec.ofNat 8 d.toNat, squish := BitVec.ofNat 8 (d.toNat / 2 ^ 8), bus := some .writeOk } ∧
      (∀ k : ScalReg, ∃ t, s.hostWrite (BitVec.ofNat 16 (0x20 + 4 * k.val)) d = t ∧ t.scal k = d ∧
        (∀ j, j ≠ k → t.scal j = s.scal j) ∧ { t with scalRegs := s.scalRegs, bus := s.bus } = s)) ∧
    (∀ addr : BitVec 16,
      addr ∈ [0x0000#16, 0x000C#16, 0x0010#16, 0x001C#16, 0x0040#16, 0x0044#16, 0x0048#16, 0x004C#16] →
      s.hostWrite addr d = { s with bus := some .writeOk })

/-- R65: the big-register window: word `j` of `R[k]` reads as bits `[32j+31:32j]`; a host write replaces exactly those
32 bits, and a host read returns them. -/
def Obligations.BigRegisterWindow : Prop :=
  ∀ (s : State) (k : BigReg) (j : Nat) (d : Word), s.params.wf = true → s.BigOk → s.busy = false →
    j < s.params.w / 32 →
    (∃ x, (s.hostRead (BitVec.ofNat 16 (0x4000 + k.val * (s.params.w / 8) + 4 * j))).bus = some (.readOk x) ∧
      x.toNat = s.big k / 2 ^ (32 * j) % 2 ^ 32) ∧
    ∃ t u, s.hostWrite (BitVec.ofNat 16 (0x4000 + k.val * (s.params.w / 8) + 4 * j)) d = t ∧
      t.hostRead (BitVec.ofNat 16 (0x4000 + k.val * (s.params.w / 8) + 4 * j)) = u ∧
      u.bus = some (.readOk d) ∧
      t.big k < 2 ^ s.params.w ∧ t.big k / 2 ^ (32 * j) % 2 ^ 32 = d.toNat ∧
      (∀ i, i ≠ j → t.big k / 2 ^ (32 * i) % 2 ^ 32 = s.big k / 2 ^ (32 * i) % 2 ^ 32) ∧
      { t with bigRegs := s.bigRegs, bus := s.bus } = s ∧ (∀ k', k' ≠ k → t.big k' = s.big k')

/-- R66: the DM window: the word at byte address `a` reads as the little-endian integer of its four bytes; a host write
replaces those four bytes, and a host read returns them. -/
def Obligations.DataMemoryWindow : Prop :=
  ∀ (s : State) (a : Nat) (d : Word), s.params.wf = true → s.dm.wf = true → s.busy = false →
    a % 4 = 0 → a < s.params.dmSize →
    (∃ x, (s.hostRead (BitVec.ofNat 16 (0x8000 + a))).bus = some (.readOk x) ∧
      x.toNat = (s.dm.read a).toNat + 2 ^ 8 * (s.dm.read (a + 1)).toNat + 2 ^ 16 * (s.dm.read (a + 2)).toNat +
        2 ^ 24 * (s.dm.read (a + 3)).toNat) ∧
    ∃ t u, s.hostWrite (BitVec.ofNat 16 (0x8000 + a)) d = t ∧ t.hostRead (BitVec.ofNat 16 (0x8000 + a)) = u ∧
      u.bus = some (.readOk d) ∧
      (∀ j < 4, t.dm.read (a + j) = byteOf d.toNat j) ∧
      (∀ x, ¬(a ≤ x ∧ x < a + 4) → t.dm.read x = s.dm.read x) ∧
      { t with dm := s.dm, bus := s.bus } = s

/-! ## The round functions (44_block_cipher.md) -/

/-- R206, R207, R208, R210, R211 over integer halves, for every cipher context and every round `i < 8`: the eight subkeys;
`FI` where `FI_FN` is the reference formula; the three stages of `FO`; the mixing lines of `FL` and the inversion of its
halves; `f_i` as `FO(FL(x))` in the even rounds and `FL(FO(x))` in the odd ones. -/
def Obligations.RoundFunctions : Prop :=
  ∀ (c : CipherCtx) (i : Nat), i < 8 →
    ((subkeys c i).kl1.toNat = subkeyInt c i c.params.subkeyTable.kl1 ∧
      (subkeys c i).kl2.toNat = subkeyInt c i c.params.subkeyTable.kl2 ∧
      (subkeys c i).ko1.toNat = subkeyInt c i c.params.subkeyTable.ko1 ∧
      (subkeys c i).ko2.toNat = subkeyInt c i c.params.subkeyTable.ko2 ∧
      (subkeys c i).ko3.toNat = subkeyInt c i c.params.subkeyTable.ko3 ∧
      (subkeys c i).ki1.toNat = subkeyInt c i c.params.subkeyTable.ki1 ∧
      (subkeys c i).ki2.toNat = subkeyInt c i c.params.subkeyTable.ki2 ∧
      (subkeys c i).ki3.toNat = subkeyInt c i c.params.subkeyTable.ki3) ∧
    (c.params.fi = .ref → ∀ y z : Half, (fi c y z).toNat =
      ((c.sb1.toList.getD ((y.toNat ^^^ z.toNat) / 2 ^ 8) 0).toNat * 2 ^ 8 +
        (c.sb2.toList.getD ((y.toNat ^^^ z.toNat) % 2 ^ 8) 0).toNat) ^^^ rotl16Int y.toNat 8) ∧
    (∀ (k : Subkeys) (x : Word), ∃ l r : Nat → Half,
      (l 0).toNat = x.toNat / 2 ^ 16 ∧ (r 0).toNat = x.toNat % 2 ^ 16 ∧
      (l 1 = r 0 ∧ r 1 = fi c (l 0 ^^^ k.ko1) k.ki1 ^^^ r 0) ∧
      (l 2 = r 1 ∧ r 2 = fi c (l 1 ^^^ k.ko2) k.ki2 ^^^ r 1) ∧
      (l 3 = r 2 ∧ r 3 = fi c (l 2 ^^^ k.ko3) k.ki3 ^^^ r 2) ∧
      (fo c k x).toNat = (l 3).toNat * 2 ^ 16 + (r 3).toNat) ∧
    (∀ (k : Subkeys) (x : Word), ∃ l2 r2 : Half,
      r2.toNat = (x.toNat % 2 ^ 16) ^^^ rotl16Int (x.toNat / 2 ^ 16 &&& k.kl1.toNat) 1 ∧
      l2.toNat = (x.toNat / 2 ^ 16) ^^^ rotl16Int (r2.toNat ||| k.kl2.toNat) 1 ∧
      (fl c k x).toNat =
        (gf16Inv c.params.gf16Poly l2).toNat * 2 ^ 16 + (gf16Inv c.params.gf16Poly r2).toNat) ∧
    (∀ x : Word, roundF c i x =
      if i % 2 = 0 then fo c (subkeys c i) (fl c (subkeys c i) x)
      else fl c (subkeys c i) (fo c (subkeys c i) x))
end

