-- ==== Sys2Proof/Laws/State.lean ====
section
/-!
SUPPORT. One lemma per field of State and update: what each update leaves in each field. All hold by definition and
are simp lemmas, so that no proof unfolds a record update.
-/

namespace Sys2Proof.Machine

/-! ## `State.faultEntry` -/

@[simp] theorem State.faultEntry_params (s : State) (c : Cause) : (s.faultEntry c).params = s.params := rfl
@[simp] theorem State.faultEntry_bigRegs (s : State) (c : Cause) : (s.faultEntry c).bigRegs = s.bigRegs := rfl
@[simp] theorem State.faultEntry_scalRegs (s : State) (c : Cause) : (s.faultEntry c).scalRegs = s.scalRegs := rfl
@[simp] theorem State.faultEntry_dm (s : State) (c : Cause) : (s.faultEntry c).dm = s.dm := rfl
@[simp] theorem State.faultEntry_xs (s : State) (c : Cause) : (s.faultEntry c).xs = s.xs := rfl
@[simp] theorem State.faultEntry_xsv (s : State) (c : Cause) : (s.faultEntry c).xsv = s.xsv := rfl
@[simp] theorem State.faultEntry_ks (s : State) (c : Cause) : (s.faultEntry c).ks = s.ks := rfl
@[simp] theorem State.faultEntry_ksv (s : State) (c : Cause) : (s.faultEntry c).ksv = s.ksv := rfl
@[simp] theorem State.faultEntry_st (s : State) (c : Cause) : (s.faultEntry c).st = s.st := rfl
@[simp] theorem State.faultEntry_key (s : State) (c : Cause) : (s.faultEntry c).key = s.key := rfl
@[simp] theorem State.faultEntry_mkey (s : State) (c : Cause) : (s.faultEntry c).mkey = s.mkey := rfl
@[simp] theorem State.faultEntry_keyv (s : State) (c : Cause) : (s.faultEntry c).keyv = s.keyv := rfl
@[simp] theorem State.faultEntry_sb1 (s : State) (c : Cause) : (s.faultEntry c).sb1 = s.sb1 := rfl
@[simp] theorem State.faultEntry_sb2 (s : State) (c : Cause) : (s.faultEntry c).sb2 = s.sb2 := rfl
@[simp] theorem State.faultEntry_sb1v (s : State) (c : Cause) : (s.faultEntry c).sb1v = s.sb1v := rfl
@[simp] theorem State.faultEntry_sb2v (s : State) (c : Cause) : (s.faultEntry c).sb2v = s.sb2v := rfl
@[simp] theorem State.faultEntry_hashLen (s : State) (c : Cause) : (s.faultEntry c).hashLen = s.hashLen := rfl
@[simp] theorem State.faultEntry_squish (s : State) (c : Cause) : (s.faultEntry c).squish = s.squish := rfl
@[simp] theorem State.faultEntry_busy (s : State) (c : Cause) : (s.faultEntry c).busy = false := rfl
@[simp] theorem State.faultEntry_done (s : State) (c : Cause) : (s.faultEntry c).done = s.done := rfl
@[simp] theorem State.faultEntry_err (s : State) (c : Cause) : (s.faultEntry c).err = true := rfl
@[simp] theorem State.faultEntry_ovr (s : State) (c : Cause) : (s.faultEntry c).ovr = s.ovr := rfl
@[simp] theorem State.faultEntry_prime (s : State) (c : Cause) : (s.faultEntry c).prime = s.prime := rfl
@[simp] theorem State.faultEntry_faultCause (s : State) (c : Cause) : (s.faultEntry c).faultCause = c.code := rfl
@[simp] theorem State.faultEntry_fcmd (s : State) (c : Cause) : (s.faultEntry c).fcmd = s.cmdLatch := rfl
@[simp] theorem State.faultEntry_ieDone (s : State) (c : Cause) : (s.faultEntry c).ieDone = s.ieDone := rfl
@[simp] theorem State.faultEntry_ieErr (s : State) (c : Cause) : (s.faultEntry c).ieErr = s.ieErr := rfl
@[simp] theorem State.faultEntry_cmdLatch (s : State) (c : Cause) : (s.faultEntry c).cmdLatch = s.cmdLatch := rfl
@[simp] theorem State.faultEntry_pending (s : State) (c : Cause) : (s.faultEntry c).pending = s.pending := rfl
@[simp] theorem State.faultEntry_bus (s : State) (c : Cause) : (s.faultEntry c).bus = s.bus := rfl
@[simp] theorem State.faultEntry_freeCount (s : State) (c : Cause) : (s.faultEntry c).freeCount = s.freeCount := rfl

/-! ## `State.finish` -/

@[simp] theorem State.finish_params (s : State) : (s.finish).params = s.params := rfl
@[simp] theorem State.finish_bigRegs (s : State) : (s.finish).bigRegs = s.bigRegs := rfl
@[simp] theorem State.finish_scalRegs (s : State) : (s.finish).scalRegs = s.scalRegs := rfl
@[simp] theorem State.finish_dm (s : State) : (s.finish).dm = s.dm := rfl
@[simp] theorem State.finish_xs (s : State) : (s.finish).xs = s.xs := rfl
@[simp] theorem State.finish_xsv (s : State) : (s.finish).xsv = s.xsv := rfl
@[simp] theorem State.finish_ks (s : State) : (s.finish).ks = s.ks := rfl
@[simp] theorem State.finish_ksv (s : State) : (s.finish).ksv = s.ksv := rfl
@[simp] theorem State.finish_st (s : State) : (s.finish).st = s.st := rfl
@[simp] theorem State.finish_key (s : State) : (s.finish).key = s.key := rfl
@[simp] theorem State.finish_mkey (s : State) : (s.finish).mkey = s.mkey := rfl
@[simp] theorem State.finish_keyv (s : State) : (s.finish).keyv = s.keyv := rfl
@[simp] theorem State.finish_sb1 (s : State) : (s.finish).sb1 = s.sb1 := rfl
@[simp] theorem State.finish_sb2 (s : State) : (s.finish).sb2 = s.sb2 := rfl
@[simp] theorem State.finish_sb1v (s : State) : (s.finish).sb1v = s.sb1v := rfl
@[simp] theorem State.finish_sb2v (s : State) : (s.finish).sb2v = s.sb2v := rfl
@[simp] theorem State.finish_hashLen (s : State) : (s.finish).hashLen = s.hashLen := rfl
@[simp] theorem State.finish_squish (s : State) : (s.finish).squish = s.squish := rfl
@[simp] theorem State.finish_busy (s : State) : (s.finish).busy = false := rfl
@[simp] theorem State.finish_done (s : State) : (s.finish).done = true := rfl
@[simp] theorem State.finish_err (s : State) : (s.finish).err = s.err := rfl
@[simp] theorem State.finish_ovr (s : State) : (s.finish).ovr = s.ovr := rfl
@[simp] theorem State.finish_prime (s : State) : (s.finish).prime = s.prime := rfl
@[simp] theorem State.finish_faultCause (s : State) : (s.finish).faultCause = s.faultCause := rfl
@[simp] theorem State.finish_fcmd (s : State) : (s.finish).fcmd = s.fcmd := rfl
@[simp] theorem State.finish_ieDone (s : State) : (s.finish).ieDone = s.ieDone := rfl
@[simp] theorem State.finish_ieErr (s : State) : (s.finish).ieErr = s.ieErr := rfl
@[simp] theorem State.finish_cmdLatch (s : State) : (s.finish).cmdLatch = s.cmdLatch := rfl
@[simp] theorem State.finish_pending (s : State) : (s.finish).pending = s.pending := rfl
@[simp] theorem State.finish_bus (s : State) : (s.finish).bus = s.bus := rfl
@[simp] theorem State.finish_freeCount (s : State) : (s.finish).freeCount = s.freeCount := rfl

/-! ## `State.acknowledge` -/

@[simp] theorem State.acknowledge_params (s : State) : (s.acknowledge).params = s.params := rfl
@[simp] theorem State.acknowledge_bigRegs (s : State) : (s.acknowledge).bigRegs = s.bigRegs := rfl
@[simp] theorem State.acknowledge_scalRegs (s : State) : (s.acknowledge).scalRegs = s.scalRegs := rfl
@[simp] theorem State.acknowledge_dm (s : State) : (s.acknowledge).dm = s.dm := rfl
@[simp] theorem State.acknowledge_xs (s : State) : (s.acknowledge).xs = s.xs := rfl
@[simp] theorem State.acknowledge_xsv (s : State) : (s.acknowledge).xsv = s.xsv := rfl
@[simp] theorem State.acknowledge_ks (s : State) : (s.acknowledge).ks = s.ks := rfl
@[simp] theorem State.acknowledge_ksv (s : State) : (s.acknowledge).ksv = s.ksv := rfl
@[simp] theorem State.acknowledge_st (s : State) : (s.acknowledge).st = s.st := rfl
@[simp] theorem State.acknowledge_key (s : State) : (s.acknowledge).key = s.key := rfl
@[simp] theorem State.acknowledge_mkey (s : State) : (s.acknowledge).mkey = s.mkey := rfl
@[simp] theorem State.acknowledge_keyv (s : State) : (s.acknowledge).keyv = s.keyv := rfl
@[simp] theorem State.acknowledge_sb1 (s : State) : (s.acknowledge).sb1 = s.sb1 := rfl
@[simp] theorem State.acknowledge_sb2 (s : State) : (s.acknowledge).sb2 = s.sb2 := rfl
@[simp] theorem State.acknowledge_sb1v (s : State) : (s.acknowledge).sb1v = s.sb1v := rfl
@[simp] theorem State.acknowledge_sb2v (s : State) : (s.acknowledge).sb2v = s.sb2v := rfl
@[simp] theorem State.acknowledge_hashLen (s : State) : (s.acknowledge).hashLen = s.hashLen := rfl
@[simp] theorem State.acknowledge_squish (s : State) : (s.acknowledge).squish = s.squish := rfl
@[simp] theorem State.acknowledge_busy (s : State) : (s.acknowledge).busy = s.busy := rfl
@[simp] theorem State.acknowledge_done (s : State) : (s.acknowledge).done = s.done := rfl
@[simp] theorem State.acknowledge_err (s : State) : (s.acknowledge).err = false := rfl
@[simp] theorem State.acknowledge_ovr (s : State) : (s.acknowledge).ovr = s.ovr := rfl
@[simp] theorem State.acknowledge_prime (s : State) : (s.acknowledge).prime = s.prime := rfl
@[simp] theorem State.acknowledge_faultCause (s : State) : (s.acknowledge).faultCause = s.faultCause := rfl
@[simp] theorem State.acknowledge_fcmd (s : State) : (s.acknowledge).fcmd = s.fcmd := rfl
@[simp] theorem State.acknowledge_ieDone (s : State) : (s.acknowledge).ieDone = s.ieDone := rfl
@[simp] theorem State.acknowledge_ieErr (s : State) : (s.acknowledge).ieErr = s.ieErr := rfl
@[simp] theorem State.acknowledge_cmdLatch (s : State) : (s.acknowledge).cmdLatch = s.cmdLatch := rfl
@[simp] theorem State.acknowledge_pending (s : State) : (s.acknowledge).pending = s.pending := rfl
@[simp] theorem State.acknowledge_bus (s : State) : (s.acknowledge).bus = s.bus := rfl
@[simp] theorem State.acknowledge_freeCount (s : State) : (s.acknowledge).freeCount = s.freeCount := rfl

/-! ## `State.dropWrite` -/

@[simp] theorem State.dropWrite_params (s : State) : (s.dropWrite).params = s.params := rfl
@[simp] theorem State.dropWrite_bigRegs (s : State) : (s.dropWrite).bigRegs = s.bigRegs := rfl
@[simp] theorem State.dropWrite_scalRegs (s : State) : (s.dropWrite).scalRegs = s.scalRegs := rfl
@[simp] theorem State.dropWrite_dm (s : State) : (s.dropWrite).dm = s.dm := rfl
@[simp] theorem State.dropWrite_xs (s : State) : (s.dropWrite).xs = s.xs := rfl
@[simp] theorem State.dropWrite_xsv (s : State) : (s.dropWrite).xsv = s.xsv := rfl
@[simp] theorem State.dropWrite_ks (s : State) : (s.dropWrite).ks = s.ks := rfl
@[simp] theorem State.dropWrite_ksv (s : State) : (s.dropWrite).ksv = s.ksv := rfl
@[simp] theorem State.dropWrite_st (s : State) : (s.dropWrite).st = s.st := rfl
@[simp] theorem State.dropWrite_key (s : State) : (s.dropWrite).key = s.key := rfl
@[simp] theorem State.dropWrite_mkey (s : State) : (s.dropWrite).mkey = s.mkey := rfl
@[simp] theorem State.dropWrite_keyv (s : State) : (s.dropWrite).keyv = s.keyv := rfl
@[simp] theorem State.dropWrite_sb1 (s : State) : (s.dropWrite).sb1 = s.sb1 := rfl
@[simp] theorem State.dropWrite_sb2 (s : State) : (s.dropWrite).sb2 = s.sb2 := rfl
@[simp] theorem State.dropWrite_sb1v (s : State) : (s.dropWrite).sb1v = s.sb1v := rfl
@[simp] theorem State.dropWrite_sb2v (s : State) : (s.dropWrite).sb2v = s.sb2v := rfl
@[simp] theorem State.dropWrite_hashLen (s : State) : (s.dropWrite).hashLen = s.hashLen := rfl
@[simp] theorem State.dropWrite_squish (s : State) : (s.dropWrite).squish = s.squish := rfl
@[simp] theorem State.dropWrite_busy (s : State) : (s.dropWrite).busy = s.busy := rfl
@[simp] theorem State.dropWrite_done (s : State) : (s.dropWrite).done = s.done := rfl
@[simp] theorem State.dropWrite_err (s : State) : (s.dropWrite).err = s.err := rfl
@[simp] theorem State.dropWrite_ovr (s : State) : (s.dropWrite).ovr = true := rfl
@[simp] theorem State.dropWrite_prime (s : State) : (s.dropWrite).prime = s.prime := rfl
@[simp] theorem State.dropWrite_faultCause (s : State) : (s.dropWrite).faultCause = s.faultCause := rfl
@[simp] theorem State.dropWrite_fcmd (s : State) : (s.dropWrite).fcmd = s.fcmd := rfl
@[simp] theorem State.dropWrite_ieDone (s : State) : (s.dropWrite).ieDone = s.ieDone := rfl
@[simp] theorem State.dropWrite_ieErr (s : State) : (s.dropWrite).ieErr = s.ieErr := rfl
@[simp] theorem State.dropWrite_cmdLatch (s : State) : (s.dropWrite).cmdLatch = s.cmdLatch := rfl
@[simp] theorem State.dropWrite_pending (s : State) : (s.dropWrite).pending = s.pending := rfl
@[simp] theorem State.dropWrite_bus (s : State) : (s.dropWrite).bus = s.bus := rfl
@[simp] theorem State.dropWrite_freeCount (s : State) : (s.dropWrite).freeCount = s.freeCount := rfl

/-! ## `State.accept` -/

@[simp] theorem State.accept_params (s : State) (w : Word) : (s.accept w).params = s.params := rfl
@[simp] theorem State.accept_bigRegs (s : State) (w : Word) : (s.accept w).bigRegs = s.bigRegs := rfl
@[simp] theorem State.accept_scalRegs (s : State) (w : Word) : (s.accept w).scalRegs = s.scalRegs := rfl
@[simp] theorem State.accept_dm (s : State) (w : Word) : (s.accept w).dm = s.dm := rfl
@[simp] theorem State.accept_xs (s : State) (w : Word) : (s.accept w).xs = s.xs := rfl
@[simp] theorem State.accept_xsv (s : State) (w : Word) : (s.accept w).xsv = s.xsv := rfl
@[simp] theorem State.accept_ks (s : State) (w : Word) : (s.accept w).ks = s.ks := rfl
@[simp] theorem State.accept_ksv (s : State) (w : Word) : (s.accept w).ksv = s.ksv := rfl
@[simp] theorem State.accept_st (s : State) (w : Word) : (s.accept w).st = s.st := rfl
@[simp] theorem State.accept_key (s : State) (w : Word) : (s.accept w).key = s.key := rfl
@[simp] theorem State.accept_mkey (s : State) (w : Word) : (s.accept w).mkey = s.mkey := rfl
@[simp] theorem State.accept_keyv (s : State) (w : Word) : (s.accept w).keyv = s.keyv := rfl
@[simp] theorem State.accept_sb1 (s : State) (w : Word) : (s.accept w).sb1 = s.sb1 := rfl
@[simp] theorem State.accept_sb2 (s : State) (w : Word) : (s.accept w).sb2 = s.sb2 := rfl
@[simp] theorem State.accept_sb1v (s : State) (w : Word) : (s.accept w).sb1v = s.sb1v := rfl
@[simp] theorem State.accept_sb2v (s : State) (w : Word) : (s.accept w).sb2v = s.sb2v := rfl
@[simp] theorem State.accept_hashLen (s : State) (w : Word) : (s.accept w).hashLen = s.hashLen := rfl
@[simp] theorem State.accept_squish (s : State) (w : Word) : (s.accept w).squish = s.squish := rfl
@[simp] theorem State.accept_busy (s : State) (w : Word) : (s.accept w).busy = true := rfl
@[simp] theorem State.accept_done (s : State) (w : Word) : (s.accept w).done = false := rfl
@[simp] theorem State.accept_err (s : State) (w : Word) : (s.accept w).err = s.err := rfl
@[simp] theorem State.accept_ovr (s : State) (w : Word) : (s.accept w).ovr = s.ovr := rfl
@[simp] theorem State.accept_prime (s : State) (w : Word) : (s.accept w).prime = s.prime := rfl
@[simp] theorem State.accept_faultCause (s : State) (w : Word) : (s.accept w).faultCause = s.faultCause := rfl
@[simp] theorem State.accept_fcmd (s : State) (w : Word) : (s.accept w).fcmd = s.fcmd := rfl
@[simp] theorem State.accept_ieDone (s : State) (w : Word) : (s.accept w).ieDone = s.ieDone := rfl
@[simp] theorem State.accept_ieErr (s : State) (w : Word) : (s.accept w).ieErr = s.ieErr := rfl
@[simp] theorem State.accept_cmdLatch (s : State) (w : Word) : (s.accept w).cmdLatch = w := rfl
@[simp] theorem State.accept_pending (s : State) (w : Word) : (s.accept w).pending = s.pending := rfl
@[simp] theorem State.accept_bus (s : State) (w : Word) : (s.accept w).bus = s.bus := rfl
@[simp] theorem State.accept_freeCount (s : State) (w : Word) : (s.accept w).freeCount = s.freeCount := rfl

/-! ## `State.store` -/

@[simp] theorem State.store_params (s : State) (a : Nat) (bs : List Byte) : (s.store a bs).params = s.params := rfl
@[simp] theorem State.store_bigRegs (s : State) (a : Nat) (bs : List Byte) : (s.store a bs).bigRegs = s.bigRegs := rfl
@[simp] theorem State.store_scalRegs (s : State) (a : Nat) (bs : List Byte) : (s.store a bs).scalRegs = s.scalRegs := rfl
@[simp] theorem State.store_dm (s : State) (a : Nat) (bs : List Byte) : (s.store a bs).dm = s.dm.writeBytes a bs := rfl
@[simp] theorem State.store_xs (s : State) (a : Nat) (bs : List Byte) : (s.store a bs).xs = s.xs := rfl
@[simp] theorem State.store_xsv (s : State) (a : Nat) (bs : List Byte) : (s.store a bs).xsv = s.xsv := rfl
@[simp] theorem State.store_ks (s : State) (a : Nat) (bs : List Byte) : (s.store a bs).ks = s.ks := rfl
@[simp] theorem State.store_ksv (s : State) (a : Nat) (bs : List Byte) : (s.store a bs).ksv = s.ksv := rfl
@[simp] theorem State.store_st (s : State) (a : Nat) (bs : List Byte) : (s.store a bs).st = s.st := rfl
@[simp] theorem State.store_key (s : State) (a : Nat) (bs : List Byte) : (s.store a bs).key = s.key := rfl
@[simp] theorem State.store_mkey (s : State) (a : Nat) (bs : List Byte) : (s.store a bs).mkey = s.mkey := rfl
@[simp] theorem State.store_keyv (s : State) (a : Nat) (bs : List Byte) : (s.store a bs).keyv = s.keyv := rfl
@[simp] theorem State.store_sb1 (s : State) (a : Nat) (bs : List Byte) : (s.store a bs).sb1 = s.sb1 := rfl
@[simp] theorem State.store_sb2 (s : State) (a : Nat) (bs : List Byte) : (s.store a bs).sb2 = s.sb2 := rfl
@[simp] theorem State.store_sb1v (s : State) (a : Nat) (bs : List Byte) : (s.store a bs).sb1v = s.sb1v := rfl
@[simp] theorem State.store_sb2v (s : State) (a : Nat) (bs : List Byte) : (s.store a bs).sb2v = s.sb2v := rfl
@[simp] theorem State.store_hashLen (s : State) (a : Nat) (bs : List Byte) : (s.store a bs).hashLen = s.hashLen := rfl
@[simp] theorem State.store_squish (s : State) (a : Nat) (bs : List Byte) : (s.store a bs).squish = s.squish := rfl
@[simp] theorem State.store_busy (s : State) (a : Nat) (bs : List Byte) : (s.store a bs).busy = s.busy := rfl
@[simp] theorem State.store_done (s : State) (a : Nat) (bs : List Byte) : (s.store a bs).done = s.done := rfl
@[simp] theorem State.store_err (s : State) (a : Nat) (bs : List Byte) : (s.store a bs).err = s.err := rfl
@[simp] theorem State.store_ovr (s : State) (a : Nat) (bs : List Byte) : (s.store a bs).ovr = s.ovr := rfl
@[simp] theorem State.store_prime (s : State) (a : Nat) (bs : List Byte) : (s.store a bs).prime = s.prime := rfl
@[simp] theorem State.store_faultCause (s : State) (a : Nat) (bs : List Byte) : (s.store a bs).faultCause = s.faultCause := rfl
@[simp] theorem State.store_fcmd (s : State) (a : Nat) (bs : List Byte) : (s.store a bs).fcmd = s.fcmd := rfl
@[simp] theorem State.store_ieDone (s : State) (a : Nat) (bs : List Byte) : (s.store a bs).ieDone = s.ieDone := rfl
@[simp] theorem State.store_ieErr (s : State) (a : Nat) (bs : List Byte) : (s.store a bs).ieErr = s.ieErr := rfl
@[simp] theorem State.store_cmdLatch (s : State) (a : Nat) (bs : List Byte) : (s.store a bs).cmdLatch = s.cmdLatch := rfl
@[simp] theorem State.store_pending (s : State) (a : Nat) (bs : List Byte) : (s.store a bs).pending = s.pending := rfl
@[simp] theorem State.store_bus (s : State) (a : Nat) (bs : List Byte) : (s.store a bs).bus = s.bus := rfl
@[simp] theorem State.store_freeCount (s : State) (a : Nat) (bs : List Byte) : (s.store a bs).freeCount = s.freeCount := rfl

/-! ## `State.setBig` -/

@[simp] theorem State.setBig_params (s : State) (k : BigReg) (v : Nat) : (s.setBig k v).params = s.params := rfl
@[simp] theorem State.setBig_bigRegs (s : State) (k : BigReg) (v : Nat) : (s.setBig k v).bigRegs = s.bigRegs.set k (v % 2 ^ s.params.w) := rfl
@[simp] theorem State.setBig_scalRegs (s : State) (k : BigReg) (v : Nat) : (s.setBig k v).scalRegs = s.scalRegs := rfl
@[simp] theorem State.setBig_dm (s : State) (k : BigReg) (v : Nat) : (s.setBig k v).dm = s.dm := rfl
@[simp] theorem State.setBig_xs (s : State) (k : BigReg) (v : Nat) : (s.setBig k v).xs = s.xs := rfl
@[simp] theorem State.setBig_xsv (s : State) (k : BigReg) (v : Nat) : (s.setBig k v).xsv = s.xsv := rfl
@[simp] theorem State.setBig_ks (s : State) (k : BigReg) (v : Nat) : (s.setBig k v).ks = s.ks := rfl
@[simp] theorem State.setBig_ksv (s : State) (k : BigReg) (v : Nat) : (s.setBig k v).ksv = s.ksv := rfl
@[simp] theorem State.setBig_st (s : State) (k : BigReg) (v : Nat) : (s.setBig k v).st = s.st := rfl
@[simp] theorem State.setBig_key (s : State) (k : BigReg) (v : Nat) : (s.setBig k v).key = s.key := rfl
@[simp] theorem State.setBig_mkey (s : State) (k : BigReg) (v : Nat) : (s.setBig k v).mkey = s.mkey := rfl
@[simp] theorem State.setBig_keyv (s : State) (k : BigReg) (v : Nat) : (s.setBig k v).keyv = s.keyv := rfl
@[simp] theorem State.setBig_sb1 (s : State) (k : BigReg) (v : Nat) : (s.setBig k v).sb1 = s.sb1 := rfl
@[simp] theorem State.setBig_sb2 (s : State) (k : BigReg) (v : Nat) : (s.setBig k v).sb2 = s.sb2 := rfl
@[simp] theorem State.setBig_sb1v (s : State) (k : BigReg) (v : Nat) : (s.setBig k v).sb1v = s.sb1v := rfl
@[simp] theorem State.setBig_sb2v (s : State) (k : BigReg) (v : Nat) : (s.setBig k v).sb2v = s.sb2v := rfl
@[simp] theorem State.setBig_hashLen (s : State) (k : BigReg) (v : Nat) : (s.setBig k v).hashLen = s.hashLen := rfl
@[simp] theorem State.setBig_squish (s : State) (k : BigReg) (v : Nat) : (s.setBig k v).squish = s.squish := rfl
@[simp] theorem State.setBig_busy (s : State) (k : BigReg) (v : Nat) : (s.setBig k v).busy = s.busy := rfl
@[simp] theorem State.setBig_done (s : State) (k : BigReg) (v : Nat) : (s.setBig k v).done = s.done := rfl
@[simp] theorem State.setBig_err (s : State) (k : BigReg) (v : Nat) : (s.setBig k v).err = s.err := rfl
@[simp] theorem State.setBig_ovr (s : State) (k : BigReg) (v : Nat) : (s.setBig k v).ovr = s.ovr := rfl
@[simp] theorem State.setBig_prime (s : State) (k : BigReg) (v : Nat) : (s.setBig k v).prime = s.prime := rfl
@[simp] theorem State.setBig_faultCause (s : State) (k : BigReg) (v : Nat) : (s.setBig k v).faultCause = s.faultCause := rfl
@[simp] theorem State.setBig_fcmd (s : State) (k : BigReg) (v : Nat) : (s.setBig k v).fcmd = s.fcmd := rfl
@[simp] theorem State.setBig_ieDone (s : State) (k : BigReg) (v : Nat) : (s.setBig k v).ieDone = s.ieDone := rfl
@[simp] theorem State.setBig_ieErr (s : State) (k : BigReg) (v : Nat) : (s.setBig k v).ieErr = s.ieErr := rfl
@[simp] theorem State.setBig_cmdLatch (s : State) (k : BigReg) (v : Nat) : (s.setBig k v).cmdLatch = s.cmdLatch := rfl
@[simp] theorem State.setBig_pending (s : State) (k : BigReg) (v : Nat) : (s.setBig k v).pending = s.pending := rfl
@[simp] theorem State.setBig_bus (s : State) (k : BigReg) (v : Nat) : (s.setBig k v).bus = s.bus := rfl
@[simp] theorem State.setBig_freeCount (s : State) (k : BigReg) (v : Nat) : (s.setBig k v).freeCount = s.freeCount := rfl

/-! ## `State.setScal` -/

@[simp] theorem State.setScal_params (s : State) (k : ScalReg) (v : Word) : (s.setScal k v).params = s.params := rfl
@[simp] theorem State.setScal_bigRegs (s : State) (k : ScalReg) (v : Word) : (s.setScal k v).bigRegs = s.bigRegs := rfl
@[simp] theorem State.setScal_scalRegs (s : State) (k : ScalReg) (v : Word) : (s.setScal k v).scalRegs = s.scalRegs.set k v := rfl
@[simp] theorem State.setScal_dm (s : State) (k : ScalReg) (v : Word) : (s.setScal k v).dm = s.dm := rfl
@[simp] theorem State.setScal_xs (s : State) (k : ScalReg) (v : Word) : (s.setScal k v).xs = s.xs := rfl
@[simp] theorem State.setScal_xsv (s : State) (k : ScalReg) (v : Word) : (s.setScal k v).xsv = s.xsv := rfl
@[simp] theorem State.setScal_ks (s : State) (k : ScalReg) (v : Word) : (s.setScal k v).ks = s.ks := rfl
@[simp] theorem State.setScal_ksv (s : State) (k : ScalReg) (v : Word) : (s.setScal k v).ksv = s.ksv := rfl
@[simp] theorem State.setScal_st (s : State) (k : ScalReg) (v : Word) : (s.setScal k v).st = s.st := rfl
@[simp] theorem State.setScal_key (s : State) (k : ScalReg) (v : Word) : (s.setScal k v).key = s.key := rfl
@[simp] theorem State.setScal_mkey (s : State) (k : ScalReg) (v : Word) : (s.setScal k v).mkey = s.mkey := rfl
@[simp] theorem State.setScal_keyv (s : State) (k : ScalReg) (v : Word) : (s.setScal k v).keyv = s.keyv := rfl
@[simp] theorem State.setScal_sb1 (s : State) (k : ScalReg) (v : Word) : (s.setScal k v).sb1 = s.sb1 := rfl
@[simp] theorem State.setScal_sb2 (s : State) (k : ScalReg) (v : Word) : (s.setScal k v).sb2 = s.sb2 := rfl
@[simp] theorem State.setScal_sb1v (s : State) (k : ScalReg) (v : Word) : (s.setScal k v).sb1v = s.sb1v := rfl
@[simp] theorem State.setScal_sb2v (s : State) (k : ScalReg) (v : Word) : (s.setScal k v).sb2v = s.sb2v := rfl
@[simp] theorem State.setScal_hashLen (s : State) (k : ScalReg) (v : Word) : (s.setScal k v).hashLen = s.hashLen := rfl
@[simp] theorem State.setScal_squish (s : State) (k : ScalReg) (v : Word) : (s.setScal k v).squish = s.squish := rfl
@[simp] theorem State.setScal_busy (s : State) (k : ScalReg) (v : Word) : (s.setScal k v).busy = s.busy := rfl
@[simp] theorem State.setScal_done (s : State) (k : ScalReg) (v : Word) : (s.setScal k v).done = s.done := rfl
@[simp] theorem State.setScal_err (s : State) (k : ScalReg) (v : Word) : (s.setScal k v).err = s.err := rfl
@[simp] theorem State.setScal_ovr (s : State) (k : ScalReg) (v : Word) : (s.setScal k v).ovr = s.ovr := rfl
@[simp] theorem State.setScal_prime (s : State) (k : ScalReg) (v : Word) : (s.setScal k v).prime = s.prime := rfl
@[simp] theorem State.setScal_faultCause (s : State) (k : ScalReg) (v : Word) : (s.setScal k v).faultCause = s.faultCause := rfl
@[simp] theorem State.setScal_fcmd (s : State) (k : ScalReg) (v : Word) : (s.setScal k v).fcmd = s.fcmd := rfl
@[simp] theorem State.setScal_ieDone (s : State) (k : ScalReg) (v : Word) : (s.setScal k v).ieDone = s.ieDone := rfl
@[simp] theorem State.setScal_ieErr (s : State) (k : ScalReg) (v : Word) : (s.setScal k v).ieErr = s.ieErr := rfl
@[simp] theorem State.setScal_cmdLatch (s : State) (k : ScalReg) (v : Word) : (s.setScal k v).cmdLatch = s.cmdLatch := rfl
@[simp] theorem State.setScal_pending (s : State) (k : ScalReg) (v : Word) : (s.setScal k v).pending = s.pending := rfl
@[simp] theorem State.setScal_bus (s : State) (k : ScalReg) (v : Word) : (s.setScal k v).bus = s.bus := rfl
@[simp] theorem State.setScal_freeCount (s : State) (k : ScalReg) (v : Word) : (s.setScal k v).freeCount = s.freeCount := rfl

/-! ## `State.setPrime` -/

@[simp] theorem State.setPrime_params (s : State) (b : Bool) : (s.setPrime b).params = s.params := rfl
@[simp] theorem State.setPrime_bigRegs (s : State) (b : Bool) : (s.setPrime b).bigRegs = s.bigRegs := rfl
@[simp] theorem State.setPrime_scalRegs (s : State) (b : Bool) : (s.setPrime b).scalRegs = s.scalRegs := rfl
@[simp] theorem State.setPrime_dm (s : State) (b : Bool) : (s.setPrime b).dm = s.dm := rfl
@[simp] theorem State.setPrime_xs (s : State) (b : Bool) : (s.setPrime b).xs = s.xs := rfl
@[simp] theorem State.setPrime_xsv (s : State) (b : Bool) : (s.setPrime b).xsv = s.xsv := rfl
@[simp] theorem State.setPrime_ks (s : State) (b : Bool) : (s.setPrime b).ks = s.ks := rfl
@[simp] theorem State.setPrime_ksv (s : State) (b : Bool) : (s.setPrime b).ksv = s.ksv := rfl
@[simp] theorem State.setPrime_st (s : State) (b : Bool) : (s.setPrime b).st = s.st := rfl
@[simp] theorem State.setPrime_key (s : State) (b : Bool) : (s.setPrime b).key = s.key := rfl
@[simp] theorem State.setPrime_mkey (s : State) (b : Bool) : (s.setPrime b).mkey = s.mkey := rfl
@[simp] theorem State.setPrime_keyv (s : State) (b : Bool) : (s.setPrime b).keyv = s.keyv := rfl
@[simp] theorem State.setPrime_sb1 (s : State) (b : Bool) : (s.setPrime b).sb1 = s.sb1 := rfl
@[simp] theorem State.setPrime_sb2 (s : State) (b : Bool) : (s.setPrime b).sb2 = s.sb2 := rfl
@[simp] theorem State.setPrime_sb1v (s : State) (b : Bool) : (s.setPrime b).sb1v = s.sb1v := rfl
@[simp] theorem State.setPrime_sb2v (s : State) (b : Bool) : (s.setPrime b).sb2v = s.sb2v := rfl
@[simp] theorem State.setPrime_hashLen (s : State) (b : Bool) : (s.setPrime b).hashLen = s.hashLen := rfl
@[simp] theorem State.setPrime_squish (s : State) (b : Bool) : (s.setPrime b).squish = s.squish := rfl
@[simp] theorem State.setPrime_busy (s : State) (b : Bool) : (s.setPrime b).busy = s.busy := rfl
@[simp] theorem State.setPrime_done (s : State) (b : Bool) : (s.setPrime b).done = s.done := rfl
@[simp] theorem State.setPrime_err (s : State) (b : Bool) : (s.setPrime b).err = s.err := rfl
@[simp] theorem State.setPrime_ovr (s : State) (b : Bool) : (s.setPrime b).ovr = s.ovr := rfl
@[simp] theorem State.setPrime_prime (s : State) (b : Bool) : (s.setPrime b).prime = b := rfl
@[simp] theorem State.setPrime_faultCause (s : State) (b : Bool) : (s.setPrime b).faultCause = s.faultCause := rfl
@[simp] theorem State.setPrime_fcmd (s : State) (b : Bool) : (s.setPrime b).fcmd = s.fcmd := rfl
@[simp] theorem State.setPrime_ieDone (s : State) (b : Bool) : (s.setPrime b).ieDone = s.ieDone := rfl
@[simp] theorem State.setPrime_ieErr (s : State) (b : Bool) : (s.setPrime b).ieErr = s.ieErr := rfl
@[simp] theorem State.setPrime_cmdLatch (s : State) (b : Bool) : (s.setPrime b).cmdLatch = s.cmdLatch := rfl
@[simp] theorem State.setPrime_pending (s : State) (b : Bool) : (s.setPrime b).pending = s.pending := rfl
@[simp] theorem State.setPrime_bus (s : State) (b : Bool) : (s.setPrime b).bus = s.bus := rfl
@[simp] theorem State.setPrime_freeCount (s : State) (b : Bool) : (s.setPrime b).freeCount = s.freeCount := rfl

/-! ## `State.setIen` -/

@[simp] theorem State.setIen_params (s : State) (w : Word) : (s.setIen w).params = s.params := rfl
@[simp] theorem State.setIen_bigRegs (s : State) (w : Word) : (s.setIen w).bigRegs = s.bigRegs := rfl
@[simp] theorem State.setIen_scalRegs (s : State) (w : Word) : (s.setIen w).scalRegs = s.scalRegs := rfl
@[simp] theorem State.setIen_dm (s : State) (w : Word) : (s.setIen w).dm = s.dm := rfl
@[simp] theorem State.setIen_xs (s : State) (w : Word) : (s.setIen w).xs = s.xs := rfl
@[simp] theorem State.setIen_xsv (s : State) (w : Word) : (s.setIen w).xsv = s.xsv := rfl
@[simp] theorem State.setIen_ks (s : State) (w : Word) : (s.setIen w).ks = s.ks := rfl
@[simp] theorem State.setIen_ksv (s : State) (w : Word) : (s.setIen w).ksv = s.ksv := rfl
@[simp] theorem State.setIen_st (s : State) (w : Word) : (s.setIen w).st = s.st := rfl
@[simp] theorem State.setIen_key (s : State) (w : Word) : (s.setIen w).key = s.key := rfl
@[simp] theorem State.setIen_mkey (s : State) (w : Word) : (s.setIen w).mkey = s.mkey := rfl
@[simp] theorem State.setIen_keyv (s : State) (w : Word) : (s.setIen w).keyv = s.keyv := rfl
@[simp] theorem State.setIen_sb1 (s : State) (w : Word) : (s.setIen w).sb1 = s.sb1 := rfl
@[simp] theorem State.setIen_sb2 (s : State) (w : Word) : (s.setIen w).sb2 = s.sb2 := rfl
@[simp] theorem State.setIen_sb1v (s : State) (w : Word) : (s.setIen w).sb1v = s.sb1v := rfl
@[simp] theorem State.setIen_sb2v (s : State) (w : Word) : (s.setIen w).sb2v = s.sb2v := rfl
@[simp] theorem State.setIen_hashLen (s : State) (w : Word) : (s.setIen w).hashLen = s.hashLen := rfl
@[simp] theorem State.setIen_squish (s : State) (w : Word) : (s.setIen w).squish = s.squish := rfl
@[simp] theorem State.setIen_busy (s : State) (w : Word) : (s.setIen w).busy = s.busy := rfl
@[simp] theorem State.setIen_done (s : State) (w : Word) : (s.setIen w).done = s.done := rfl
@[simp] theorem State.setIen_err (s : State) (w : Word) : (s.setIen w).err = s.err := rfl
@[simp] theorem State.setIen_ovr (s : State) (w : Word) : (s.setIen w).ovr = s.ovr := rfl
@[simp] theorem State.setIen_prime (s : State) (w : Word) : (s.setIen w).prime = s.prime := rfl
@[simp] theorem State.setIen_faultCause (s : State) (w : Word) : (s.setIen w).faultCause = s.faultCause := rfl
@[simp] theorem State.setIen_fcmd (s : State) (w : Word) : (s.setIen w).fcmd = s.fcmd := rfl
@[simp] theorem State.setIen_ieDone (s : State) (w : Word) : (s.setIen w).ieDone = w.getLsbD 0 := rfl
@[simp] theorem State.setIen_ieErr (s : State) (w : Word) : (s.setIen w).ieErr = w.getLsbD 1 := rfl
@[simp] theorem State.setIen_cmdLatch (s : State) (w : Word) : (s.setIen w).cmdLatch = s.cmdLatch := rfl
@[simp] theorem State.setIen_pending (s : State) (w : Word) : (s.setIen w).pending = s.pending := rfl
@[simp] theorem State.setIen_bus (s : State) (w : Word) : (s.setIen w).bus = s.bus := rfl
@[simp] theorem State.setIen_freeCount (s : State) (w : Word) : (s.setIen w).freeCount = s.freeCount := rfl

/-! ## `State.setXs` -/

@[simp] theorem State.setXs_params (s : State) (v : BitVec 512) : (s.setXs v).params = s.params := rfl
@[simp] theorem State.setXs_bigRegs (s : State) (v : BitVec 512) : (s.setXs v).bigRegs = s.bigRegs := rfl
@[simp] theorem State.setXs_scalRegs (s : State) (v : BitVec 512) : (s.setXs v).scalRegs = s.scalRegs := rfl
@[simp] theorem State.setXs_dm (s : State) (v : BitVec 512) : (s.setXs v).dm = s.dm := rfl
@[simp] theorem State.setXs_xs (s : State) (v : BitVec 512) : (s.setXs v).xs = v := rfl
@[simp] theorem State.setXs_xsv (s : State) (v : BitVec 512) : (s.setXs v).xsv = s.xsv := rfl
@[simp] theorem State.setXs_ks (s : State) (v : BitVec 512) : (s.setXs v).ks = s.ks := rfl
@[simp] theorem State.setXs_ksv (s : State) (v : BitVec 512) : (s.setXs v).ksv = s.ksv := rfl
@[simp] theorem State.setXs_st (s : State) (v : BitVec 512) : (s.setXs v).st = s.st := rfl
@[simp] theorem State.setXs_key (s : State) (v : BitVec 512) : (s.setXs v).key = s.key := rfl
@[simp] theorem State.setXs_mkey (s : State) (v : BitVec 512) : (s.setXs v).mkey = s.mkey := rfl
@[simp] theorem State.setXs_keyv (s : State) (v : BitVec 512) : (s.setXs v).keyv = s.keyv := rfl
@[simp] theorem State.setXs_sb1 (s : State) (v : BitVec 512) : (s.setXs v).sb1 = s.sb1 := rfl
@[simp] theorem State.setXs_sb2 (s : State) (v : BitVec 512) : (s.setXs v).sb2 = s.sb2 := rfl
@[simp] theorem State.setXs_sb1v (s : State) (v : BitVec 512) : (s.setXs v).sb1v = s.sb1v := rfl
@[simp] theorem State.setXs_sb2v (s : State) (v : BitVec 512) : (s.setXs v).sb2v = s.sb2v := rfl
@[simp] theorem State.setXs_hashLen (s : State) (v : BitVec 512) : (s.setXs v).hashLen = s.hashLen := rfl
@[simp] theorem State.setXs_squish (s : State) (v : BitVec 512) : (s.setXs v).squish = s.squish := rfl
@[simp] theorem State.setXs_busy (s : State) (v : BitVec 512) : (s.setXs v).busy = s.busy := rfl
@[simp] theorem State.setXs_done (s : State) (v : BitVec 512) : (s.setXs v).done = s.done := rfl
@[simp] theorem State.setXs_err (s : State) (v : BitVec 512) : (s.setXs v).err = s.err := rfl
@[simp] theorem State.setXs_ovr (s : State) (v : BitVec 512) : (s.setXs v).ovr = s.ovr := rfl
@[simp] theorem State.setXs_prime (s : State) (v : BitVec 512) : (s.setXs v).prime = s.prime := rfl
@[simp] theorem State.setXs_faultCause (s : State) (v : BitVec 512) : (s.setXs v).faultCause = s.faultCause := rfl
@[simp] theorem State.setXs_fcmd (s : State) (v : BitVec 512) : (s.setXs v).fcmd = s.fcmd := rfl
@[simp] theorem State.setXs_ieDone (s : State) (v : BitVec 512) : (s.setXs v).ieDone = s.ieDone := rfl
@[simp] theorem State.setXs_ieErr (s : State) (v : BitVec 512) : (s.setXs v).ieErr = s.ieErr := rfl
@[simp] theorem State.setXs_cmdLatch (s : State) (v : BitVec 512) : (s.setXs v).cmdLatch = s.cmdLatch := rfl
@[simp] theorem State.setXs_pending (s : State) (v : BitVec 512) : (s.setXs v).pending = s.pending := rfl
@[simp] theorem State.setXs_bus (s : State) (v : BitVec 512) : (s.setXs v).bus = s.bus := rfl
@[simp] theorem State.setXs_freeCount (s : State) (v : BitVec 512) : (s.setXs v).freeCount = s.freeCount := rfl

/-! ## `State.seedXs` -/

@[simp] theorem State.seedXs_params (s : State) (v : BitVec 512) : (s.seedXs v).params = s.params := rfl
@[simp] theorem State.seedXs_bigRegs (s : State) (v : BitVec 512) : (s.seedXs v).bigRegs = s.bigRegs := rfl
@[simp] theorem State.seedXs_scalRegs (s : State) (v : BitVec 512) : (s.seedXs v).scalRegs = s.scalRegs := rfl
@[simp] theorem State.seedXs_dm (s : State) (v : BitVec 512) : (s.seedXs v).dm = s.dm := rfl
@[simp] theorem State.seedXs_xs (s : State) (v : BitVec 512) : (s.seedXs v).xs = v := rfl
@[simp] theorem State.seedXs_xsv (s : State) (v : BitVec 512) : (s.seedXs v).xsv = true := rfl
@[simp] theorem State.seedXs_ks (s : State) (v : BitVec 512) : (s.seedXs v).ks = s.ks := rfl
@[simp] theorem State.seedXs_ksv (s : State) (v : BitVec 512) : (s.seedXs v).ksv = s.ksv := rfl
@[simp] theorem State.seedXs_st (s : State) (v : BitVec 512) : (s.seedXs v).st = s.st := rfl
@[simp] theorem State.seedXs_key (s : State) (v : BitVec 512) : (s.seedXs v).key = s.key := rfl
@[simp] theorem State.seedXs_mkey (s : State) (v : BitVec 512) : (s.seedXs v).mkey = s.mkey := rfl
@[simp] theorem State.seedXs_keyv (s : State) (v : BitVec 512) : (s.seedXs v).keyv = s.keyv := rfl
@[simp] theorem State.seedXs_sb1 (s : State) (v : BitVec 512) : (s.seedXs v).sb1 = s.sb1 := rfl
@[simp] theorem State.seedXs_sb2 (s : State) (v : BitVec 512) : (s.seedXs v).sb2 = s.sb2 := rfl
@[simp] theorem State.seedXs_sb1v (s : State) (v : BitVec 512) : (s.seedXs v).sb1v = s.sb1v := rfl
@[simp] theorem State.seedXs_sb2v (s : State) (v : BitVec 512) : (s.seedXs v).sb2v = s.sb2v := rfl
@[simp] theorem State.seedXs_hashLen (s : State) (v : BitVec 512) : (s.seedXs v).hashLen = s.hashLen := rfl
@[simp] theorem State.seedXs_squish (s : State) (v : BitVec 512) : (s.seedXs v).squish = s.squish := rfl
@[simp] theorem State.seedXs_busy (s : State) (v : BitVec 512) : (s.seedXs v).busy = s.busy := rfl
@[simp] theorem State.seedXs_done (s : State) (v : BitVec 512) : (s.seedXs v).done = s.done := rfl
@[simp] theorem State.seedXs_err (s : State) (v : BitVec 512) : (s.seedXs v).err = s.err := rfl
@[simp] theorem State.seedXs_ovr (s : State) (v : BitVec 512) : (s.seedXs v).ovr = s.ovr := rfl
@[simp] theorem State.seedXs_prime (s : State) (v : BitVec 512) : (s.seedXs v).prime = s.prime := rfl
@[simp] theorem State.seedXs_faultCause (s : State) (v : BitVec 512) : (s.seedXs v).faultCause = s.faultCause := rfl
@[simp] theorem State.seedXs_fcmd (s : State) (v : BitVec 512) : (s.seedXs v).fcmd = s.fcmd := rfl
@[simp] theorem State.seedXs_ieDone (s : State) (v : BitVec 512) : (s.seedXs v).ieDone = s.ieDone := rfl
@[simp] theorem State.seedXs_ieErr (s : State) (v : BitVec 512) : (s.seedXs v).ieErr = s.ieErr := rfl
@[simp] theorem State.seedXs_cmdLatch (s : State) (v : BitVec 512) : (s.seedXs v).cmdLatch = s.cmdLatch := rfl
@[simp] theorem State.seedXs_pending (s : State) (v : BitVec 512) : (s.seedXs v).pending = s.pending := rfl
@[simp] theorem State.seedXs_bus (s : State) (v : BitVec 512) : (s.seedXs v).bus = s.bus := rfl
@[simp] theorem State.seedXs_freeCount (s : State) (v : BitVec 512) : (s.seedXs v).freeCount = s.freeCount := rfl

/-! ## `State.setKs` -/

@[simp] theorem State.setKs_params (s : State) (u : Keystream) : (s.setKs u).params = s.params := rfl
@[simp] theorem State.setKs_bigRegs (s : State) (u : Keystream) : (s.setKs u).bigRegs = s.bigRegs := rfl
@[simp] theorem State.setKs_scalRegs (s : State) (u : Keystream) : (s.setKs u).scalRegs = s.scalRegs := rfl
@[simp] theorem State.setKs_dm (s : State) (u : Keystream) : (s.setKs u).dm = s.dm := rfl
@[simp] theorem State.setKs_xs (s : State) (u : Keystream) : (s.setKs u).xs = s.xs := rfl
@[simp] theorem State.setKs_xsv (s : State) (u : Keystream) : (s.setKs u).xsv = s.xsv := rfl
@[simp] theorem State.setKs_ks (s : State) (u : Keystream) : (s.setKs u).ks = u := rfl
@[simp] theorem State.setKs_ksv (s : State) (u : Keystream) : (s.setKs u).ksv = s.ksv := rfl
@[simp] theorem State.setKs_st (s : State) (u : Keystream) : (s.setKs u).st = s.st := rfl
@[simp] theorem State.setKs_key (s : State) (u : Keystream) : (s.setKs u).key = s.key := rfl
@[simp] theorem State.setKs_mkey (s : State) (u : Keystream) : (s.setKs u).mkey = s.mkey := rfl
@[simp] theorem State.setKs_keyv (s : State) (u : Keystream) : (s.setKs u).keyv = s.keyv := rfl
@[simp] theorem State.setKs_sb1 (s : State) (u : Keystream) : (s.setKs u).sb1 = s.sb1 := rfl
@[simp] theorem State.setKs_sb2 (s : State) (u : Keystream) : (s.setKs u).sb2 = s.sb2 := rfl
@[simp] theorem State.setKs_sb1v (s : State) (u : Keystream) : (s.setKs u).sb1v = s.sb1v := rfl
@[simp] theorem State.setKs_sb2v (s : State) (u : Keystream) : (s.setKs u).sb2v = s.sb2v := rfl
@[simp] theorem State.setKs_hashLen (s : State) (u : Keystream) : (s.setKs u).hashLen = s.hashLen := rfl
@[simp] theorem State.setKs_squish (s : State) (u : Keystream) : (s.setKs u).squish = s.squish := rfl
@[simp] theorem State.setKs_busy (s : State) (u : Keystream) : (s.setKs u).busy = s.busy := rfl
@[simp] theorem State.setKs_done (s : State) (u : Keystream) : (s.setKs u).done = s.done := rfl
@[simp] theorem State.setKs_err (s : State) (u : Keystream) : (s.setKs u).err = s.err := rfl
@[simp] theorem State.setKs_ovr (s : State) (u : Keystream) : (s.setKs u).ovr = s.ovr := rfl
@[simp] theorem State.setKs_prime (s : State) (u : Keystream) : (s.setKs u).prime = s.prime := rfl
@[simp] theorem State.setKs_faultCause (s : State) (u : Keystream) : (s.setKs u).faultCause = s.faultCause := rfl
@[simp] theorem State.setKs_fcmd (s : State) (u : Keystream) : (s.setKs u).fcmd = s.fcmd := rfl
@[simp] theorem State.setKs_ieDone (s : State) (u : Keystream) : (s.setKs u).ieDone = s.ieDone := rfl
@[simp] theorem State.setKs_ieErr (s : State) (u : Keystream) : (s.setKs u).ieErr = s.ieErr := rfl
@[simp] theorem State.setKs_cmdLatch (s : State) (u : Keystream) : (s.setKs u).cmdLatch = s.cmdLatch := rfl
@[simp] theorem State.setKs_pending (s : State) (u : Keystream) : (s.setKs u).pending = s.pending := rfl
@[simp] theorem State.setKs_bus (s : State) (u : Keystream) : (s.setKs u).bus = s.bus := rfl
@[simp] theorem State.setKs_freeCount (s : State) (u : Keystream) : (s.setKs u).freeCount = s.freeCount := rfl

/-! ## `State.initKs` -/

@[simp] theorem State.initKs_params (s : State) (key : List Byte) (n : Nat) : (s.initKs key n).params = s.params := rfl
@[simp] theorem State.initKs_bigRegs (s : State) (key : List Byte) (n : Nat) : (s.initKs key n).bigRegs = s.bigRegs := rfl
@[simp] theorem State.initKs_scalRegs (s : State) (key : List Byte) (n : Nat) : (s.initKs key n).scalRegs = s.scalRegs := rfl
@[simp] theorem State.initKs_dm (s : State) (key : List Byte) (n : Nat) : (s.initKs key n).dm = s.dm := rfl
@[simp] theorem State.initKs_xs (s : State) (key : List Byte) (n : Nat) : (s.initKs key n).xs = s.xs := rfl
@[simp] theorem State.initKs_xsv (s : State) (key : List Byte) (n : Nat) : (s.initKs key n).xsv = s.xsv := rfl
@[simp] theorem State.initKs_ks (s : State) (key : List Byte) (n : Nat) : (s.initKs key n).ks = ksInit key n := rfl
@[simp] theorem State.initKs_ksv (s : State) (key : List Byte) (n : Nat) : (s.initKs key n).ksv = true := rfl
@[simp] theorem State.initKs_st (s : State) (key : List Byte) (n : Nat) : (s.initKs key n).st = s.st := rfl
@[simp] theorem State.initKs_key (s : State) (key : List Byte) (n : Nat) : (s.initKs key n).key = s.key := rfl
@[simp] theorem State.initKs_mkey (s : State) (key : List Byte) (n : Nat) : (s.initKs key n).mkey = s.mkey := rfl
@[simp] theorem State.initKs_keyv (s : State) (key : List Byte) (n : Nat) : (s.initKs key n).keyv = s.keyv := rfl
@[simp] theorem State.initKs_sb1 (s : State) (key : List Byte) (n : Nat) : (s.initKs key n).sb1 = s.sb1 := rfl
@[simp] theorem State.initKs_sb2 (s : State) (key : List Byte) (n : Nat) : (s.initKs key n).sb2 = s.sb2 := rfl
@[simp] theorem State.initKs_sb1v (s : State) (key : List Byte) (n : Nat) : (s.initKs key n).sb1v = s.sb1v := rfl
@[simp] theorem State.initKs_sb2v (s : State) (key : List Byte) (n : Nat) : (s.initKs key n).sb2v = s.sb2v := rfl
@[simp] theorem State.initKs_hashLen (s : State) (key : List Byte) (n : Nat) : (s.initKs key n).hashLen = s.hashLen := rfl
@[simp] theorem State.initKs_squish (s : State) (key : List Byte) (n : Nat) : (s.initKs key n).squish = s.squish := rfl
@[simp] theorem State.initKs_busy (s : State) (key : List Byte) (n : Nat) : (s.initKs key n).busy = s.busy := rfl
@[simp] theorem State.initKs_done (s : State) (key : List Byte) (n : Nat) : (s.initKs key n).done = s.done := rfl
@[simp] theorem State.initKs_err (s : State) (key : List Byte) (n : Nat) : (s.initKs key n).err = s.err := rfl
@[simp] theorem State.initKs_ovr (s : State) (key : List Byte) (n : Nat) : (s.initKs key n).ovr = s.ovr := rfl
@[simp] theorem State.initKs_prime (s : State) (key : List Byte) (n : Nat) : (s.initKs key n).prime = s.prime := rfl
@[simp] theorem State.initKs_faultCause (s : State) (key : List Byte) (n : Nat) : (s.initKs key n).faultCause = s.faultCause := rfl
@[simp] theorem State.initKs_fcmd (s : State) (key : List Byte) (n : Nat) : (s.initKs key n).fcmd = s.fcmd := rfl
@[simp] theorem State.initKs_ieDone (s : State) (key : List Byte) (n : Nat) : (s.initKs key n).ieDone = s.ieDone := rfl
@[simp] theorem State.initKs_ieErr (s : State) (key : List Byte) (n : Nat) : (s.initKs key n).ieErr = s.ieErr := rfl
@[simp] theorem State.initKs_cmdLatch (s : State) (key : List Byte) (n : Nat) : (s.initKs key n).cmdLatch = s.cmdLatch := rfl
@[simp] theorem State.initKs_pending (s : State) (key : List Byte) (n : Nat) : (s.initKs key n).pending = s.pending := rfl
@[simp] theorem State.initKs_bus (s : State) (key : List Byte) (n : Nat) : (s.initKs key n).bus = s.bus := rfl
@[simp] theorem State.initKs_freeCount (s : State) (key : List Byte) (n : Nat) : (s.initKs key n).freeCount = s.freeCount := rfl

/-! ## `State.setSt` -/

@[simp] theorem State.setSt_params (s : State) (t : Table) : (s.setSt t).params = s.params := rfl
@[simp] theorem State.setSt_bigRegs (s : State) (t : Table) : (s.setSt t).bigRegs = s.bigRegs := rfl
@[simp] theorem State.setSt_scalRegs (s : State) (t : Table) : (s.setSt t).scalRegs = s.scalRegs := rfl
@[simp] theorem State.setSt_dm (s : State) (t : Table) : (s.setSt t).dm = s.dm := rfl
@[simp] theorem State.setSt_xs (s : State) (t : Table) : (s.setSt t).xs = s.xs := rfl
@[simp] theorem State.setSt_xsv (s : State) (t : Table) : (s.setSt t).xsv = s.xsv := rfl
@[simp] theorem State.setSt_ks (s : State) (t : Table) : (s.setSt t).ks = s.ks := rfl
@[simp] theorem State.setSt_ksv (s : State) (t : Table) : (s.setSt t).ksv = s.ksv := rfl
@[simp] theorem State.setSt_st (s : State) (t : Table) : (s.setSt t).st = t := rfl
@[simp] theorem State.setSt_key (s : State) (t : Table) : (s.setSt t).key = s.key := rfl
@[simp] theorem State.setSt_mkey (s : State) (t : Table) : (s.setSt t).mkey = s.mkey := rfl
@[simp] theorem State.setSt_keyv (s : State) (t : Table) : (s.setSt t).keyv = s.keyv := rfl
@[simp] theorem State.setSt_sb1 (s : State) (t : Table) : (s.setSt t).sb1 = s.sb1 := rfl
@[simp] theorem State.setSt_sb2 (s : State) (t : Table) : (s.setSt t).sb2 = s.sb2 := rfl
@[simp] theorem State.setSt_sb1v (s : State) (t : Table) : (s.setSt t).sb1v = s.sb1v := rfl
@[simp] theorem State.setSt_sb2v (s : State) (t : Table) : (s.setSt t).sb2v = s.sb2v := rfl
@[simp] theorem State.setSt_hashLen (s : State) (t : Table) : (s.setSt t).hashLen = s.hashLen := rfl
@[simp] theorem State.setSt_squish (s : State) (t : Table) : (s.setSt t).squish = s.squish := rfl
@[simp] theorem State.setSt_busy (s : State) (t : Table) : (s.setSt t).busy = s.busy := rfl
@[simp] theorem State.setSt_done (s : State) (t : Table) : (s.setSt t).done = s.done := rfl
@[simp] theorem State.setSt_err (s : State) (t : Table) : (s.setSt t).err = s.err := rfl
@[simp] theorem State.setSt_ovr (s : State) (t : Table) : (s.setSt t).ovr = s.ovr := rfl
@[simp] theorem State.setSt_prime (s : State) (t : Table) : (s.setSt t).prime = s.prime := rfl
@[simp] theorem State.setSt_faultCause (s : State) (t : Table) : (s.setSt t).faultCause = s.faultCause := rfl
@[simp] theorem State.setSt_fcmd (s : State) (t : Table) : (s.setSt t).fcmd = s.fcmd := rfl
@[simp] theorem State.setSt_ieDone (s : State) (t : Table) : (s.setSt t).ieDone = s.ieDone := rfl
@[simp] theorem State.setSt_ieErr (s : State) (t : Table) : (s.setSt t).ieErr = s.ieErr := rfl
@[simp] theorem State.setSt_cmdLatch (s : State) (t : Table) : (s.setSt t).cmdLatch = s.cmdLatch := rfl
@[simp] theorem State.setSt_pending (s : State) (t : Table) : (s.setSt t).pending = s.pending := rfl
@[simp] theorem State.setSt_bus (s : State) (t : Table) : (s.setSt t).bus = s.bus := rfl
@[simp] theorem State.setSt_freeCount (s : State) (t : Table) : (s.setSt t).freeCount = s.freeCount := rfl

/-! ## `State.setKey` -/

@[simp] theorem State.setKey_params (s : State) (k : BitVec 128) : (s.setKey k).params = s.params := rfl
@[simp] theorem State.setKey_bigRegs (s : State) (k : BitVec 128) : (s.setKey k).bigRegs = s.bigRegs := rfl
@[simp] theorem State.setKey_scalRegs (s : State) (k : BitVec 128) : (s.setKey k).scalRegs = s.scalRegs := rfl
@[simp] theorem State.setKey_dm (s : State) (k : BitVec 128) : (s.setKey k).dm = s.dm := rfl
@[simp] theorem State.setKey_xs (s : State) (k : BitVec 128) : (s.setKey k).xs = s.xs := rfl
@[simp] theorem State.setKey_xsv (s : State) (k : BitVec 128) : (s.setKey k).xsv = s.xsv := rfl
@[simp] theorem State.setKey_ks (s : State) (k : BitVec 128) : (s.setKey k).ks = s.ks := rfl
@[simp] theorem State.setKey_ksv (s : State) (k : BitVec 128) : (s.setKey k).ksv = s.ksv := rfl
@[simp] theorem State.setKey_st (s : State) (k : BitVec 128) : (s.setKey k).st = s.st := rfl
@[simp] theorem State.setKey_key (s : State) (k : BitVec 128) : (s.setKey k).key = k := rfl
@[simp] theorem State.setKey_mkey (s : State) (k : BitVec 128) : (s.setKey k).mkey = k ^^^ s.params.nums := rfl
@[simp] theorem State.setKey_keyv (s : State) (k : BitVec 128) : (s.setKey k).keyv = true := rfl
@[simp] theorem State.setKey_sb1 (s : State) (k : BitVec 128) : (s.setKey k).sb1 = s.sb1 := rfl
@[simp] theorem State.setKey_sb2 (s : State) (k : BitVec 128) : (s.setKey k).sb2 = s.sb2 := rfl
@[simp] theorem State.setKey_sb1v (s : State) (k : BitVec 128) : (s.setKey k).sb1v = s.sb1v := rfl
@[simp] theorem State.setKey_sb2v (s : State) (k : BitVec 128) : (s.setKey k).sb2v = s.sb2v := rfl
@[simp] theorem State.setKey_hashLen (s : State) (k : BitVec 128) : (s.setKey k).hashLen = s.hashLen := rfl
@[simp] theorem State.setKey_squish (s : State) (k : BitVec 128) : (s.setKey k).squish = s.squish := rfl
@[simp] theorem State.setKey_busy (s : State) (k : BitVec 128) : (s.setKey k).busy = s.busy := rfl
@[simp] theorem State.setKey_done (s : State) (k : BitVec 128) : (s.setKey k).done = s.done := rfl
@[simp] theorem State.setKey_err (s : State) (k : BitVec 128) : (s.setKey k).err = s.err := rfl
@[simp] theorem State.setKey_ovr (s : State) (k : BitVec 128) : (s.setKey k).ovr = s.ovr := rfl
@[simp] theorem State.setKey_prime (s : State) (k : BitVec 128) : (s.setKey k).prime = s.prime := rfl
@[simp] theorem State.setKey_faultCause (s : State) (k : BitVec 128) : (s.setKey k).faultCause = s.faultCause := rfl
@[simp] theorem State.setKey_fcmd (s : State) (k : BitVec 128) : (s.setKey k).fcmd = s.fcmd := rfl
@[simp] theorem State.setKey_ieDone (s : State) (k : BitVec 128) : (s.setKey k).ieDone = s.ieDone := rfl
@[simp] theorem State.setKey_ieErr (s : State) (k : BitVec 128) : (s.setKey k).ieErr = s.ieErr := rfl
@[simp] theorem State.setKey_cmdLatch (s : State) (k : BitVec 128) : (s.setKey k).cmdLatch = s.cmdLatch := rfl
@[simp] theorem State.setKey_pending (s : State) (k : BitVec 128) : (s.setKey k).pending = s.pending := rfl
@[simp] theorem State.setKey_bus (s : State) (k : BitVec 128) : (s.setKey k).bus = s.bus := rfl
@[simp] theorem State.setKey_freeCount (s : State) (k : BitVec 128) : (s.setKey k).freeCount = s.freeCount := rfl

/-! ## `State.setSb1` -/

@[simp] theorem State.setSb1_params (s : State) (t : Table) : (s.setSb1 t).params = s.params := rfl
@[simp] theorem State.setSb1_bigRegs (s : State) (t : Table) : (s.setSb1 t).bigRegs = s.bigRegs := rfl
@[simp] theorem State.setSb1_scalRegs (s : State) (t : Table) : (s.setSb1 t).scalRegs = s.scalRegs := rfl
@[simp] theorem State.setSb1_dm (s : State) (t : Table) : (s.setSb1 t).dm = s.dm := rfl
@[simp] theorem State.setSb1_xs (s : State) (t : Table) : (s.setSb1 t).xs = s.xs := rfl
@[simp] theorem State.setSb1_xsv (s : State) (t : Table) : (s.setSb1 t).xsv = s.xsv := rfl
@[simp] theorem State.setSb1_ks (s : State) (t : Table) : (s.setSb1 t).ks = s.ks := rfl
@[simp] theorem State.setSb1_ksv (s : State) (t : Table) : (s.setSb1 t).ksv = s.ksv := rfl
@[simp] theorem State.setSb1_st (s : State) (t : Table) : (s.setSb1 t).st = s.st := rfl
@[simp] theorem State.setSb1_key (s : State) (t : Table) : (s.setSb1 t).key = s.key := rfl
@[simp] theorem State.setSb1_mkey (s : State) (t : Table) : (s.setSb1 t).mkey = s.mkey := rfl
@[simp] theorem State.setSb1_keyv (s : State) (t : Table) : (s.setSb1 t).keyv = s.keyv := rfl
@[simp] theorem State.setSb1_sb1 (s : State) (t : Table) : (s.setSb1 t).sb1 = t := rfl
@[simp] theorem State.setSb1_sb2 (s : State) (t : Table) : (s.setSb1 t).sb2 = s.sb2 := rfl
@[simp] theorem State.setSb1_sb1v (s : State) (t : Table) : (s.setSb1 t).sb1v = true := rfl
@[simp] theorem State.setSb1_sb2v (s : State) (t : Table) : (s.setSb1 t).sb2v = s.sb2v := rfl
@[simp] theorem State.setSb1_hashLen (s : State) (t : Table) : (s.setSb1 t).hashLen = s.hashLen := rfl
@[simp] theorem State.setSb1_squish (s : State) (t : Table) : (s.setSb1 t).squish = s.squish := rfl
@[simp] theorem State.setSb1_busy (s : State) (t : Table) : (s.setSb1 t).busy = s.busy := rfl
@[simp] theorem State.setSb1_done (s : State) (t : Table) : (s.setSb1 t).done = s.done := rfl
@[simp] theorem State.setSb1_err (s : State) (t : Table) : (s.setSb1 t).err = s.err := rfl
@[simp] theorem State.setSb1_ovr (s : State) (t : Table) : (s.setSb1 t).ovr = s.ovr := rfl
@[simp] theorem State.setSb1_prime (s : State) (t : Table) : (s.setSb1 t).prime = s.prime := rfl
@[simp] theorem State.setSb1_faultCause (s : State) (t : Table) : (s.setSb1 t).faultCause = s.faultCause := rfl
@[simp] theorem State.setSb1_fcmd (s : State) (t : Table) : (s.setSb1 t).fcmd = s.fcmd := rfl
@[simp] theorem State.setSb1_ieDone (s : State) (t : Table) : (s.setSb1 t).ieDone = s.ieDone := rfl
@[simp] theorem State.setSb1_ieErr (s : State) (t : Table) : (s.setSb1 t).ieErr = s.ieErr := rfl
@[simp] theorem State.setSb1_cmdLatch (s : State) (t : Table) : (s.setSb1 t).cmdLatch = s.cmdLatch := rfl
@[simp] theorem State.setSb1_pending (s : State) (t : Table) : (s.setSb1 t).pending = s.pending := rfl
@[simp] theorem State.setSb1_bus (s : State) (t : Table) : (s.setSb1 t).bus = s.bus := rfl
@[simp] theorem State.setSb1_freeCount (s : State) (t : Table) : (s.setSb1 t).freeCount = s.freeCount := rfl

/-! ## `State.setSb2` -/

@[simp] theorem State.setSb2_params (s : State) (t : Table) : (s.setSb2 t).params = s.params := rfl
@[simp] theorem State.setSb2_bigRegs (s : State) (t : Table) : (s.setSb2 t).bigRegs = s.bigRegs := rfl
@[simp] theorem State.setSb2_scalRegs (s : State) (t : Table) : (s.setSb2 t).scalRegs = s.scalRegs := rfl
@[simp] theorem State.setSb2_dm (s : State) (t : Table) : (s.setSb2 t).dm = s.dm := rfl
@[simp] theorem State.setSb2_xs (s : State) (t : Table) : (s.setSb2 t).xs = s.xs := rfl
@[simp] theorem State.setSb2_xsv (s : State) (t : Table) : (s.setSb2 t).xsv = s.xsv := rfl
@[simp] theorem State.setSb2_ks (s : State) (t : Table) : (s.setSb2 t).ks = s.ks := rfl
@[simp] theorem State.setSb2_ksv (s : State) (t : Table) : (s.setSb2 t).ksv = s.ksv := rfl
@[simp] theorem State.setSb2_st (s : State) (t : Table) : (s.setSb2 t).st = s.st := rfl
@[simp] theorem State.setSb2_key (s : State) (t : Table) : (s.setSb2 t).key = s.key := rfl
@[simp] theorem State.setSb2_mkey (s : State) (t : Table) : (s.setSb2 t).mkey = s.mkey := rfl
@[simp] theorem State.setSb2_keyv (s : State) (t : Table) : (s.setSb2 t).keyv = s.keyv := rfl
@[simp] theorem State.setSb2_sb1 (s : State) (t : Table) : (s.setSb2 t).sb1 = s.sb1 := rfl
@[simp] theorem State.setSb2_sb2 (s : State) (t : Table) : (s.setSb2 t).sb2 = t := rfl
@[simp] theorem State.setSb2_sb1v (s : State) (t : Table) : (s.setSb2 t).sb1v = s.sb1v := rfl
@[simp] theorem State.setSb2_sb2v (s : State) (t : Table) : (s.setSb2 t).sb2v = true := rfl
@[simp] theorem State.setSb2_hashLen (s : State) (t : Table) : (s.setSb2 t).hashLen = s.hashLen := rfl
@[simp] theorem State.setSb2_squish (s : State) (t : Table) : (s.setSb2 t).squish = s.squish := rfl
@[simp] theorem State.setSb2_busy (s : State) (t : Table) : (s.setSb2 t).busy = s.busy := rfl
@[simp] theorem State.setSb2_done (s : State) (t : Table) : (s.setSb2 t).done = s.done := rfl
@[simp] theorem State.setSb2_err (s : State) (t : Table) : (s.setSb2 t).err = s.err := rfl
@[simp] theorem State.setSb2_ovr (s : State) (t : Table) : (s.setSb2 t).ovr = s.ovr := rfl
@[simp] theorem State.setSb2_prime (s : State) (t : Table) : (s.setSb2 t).prime = s.prime := rfl
@[simp] theorem State.setSb2_faultCause (s : State) (t : Table) : (s.setSb2 t).faultCause = s.faultCause := rfl
@[simp] theorem State.setSb2_fcmd (s : State) (t : Table) : (s.setSb2 t).fcmd = s.fcmd := rfl
@[simp] theorem State.setSb2_ieDone (s : State) (t : Table) : (s.setSb2 t).ieDone = s.ieDone := rfl
@[simp] theorem State.setSb2_ieErr (s : State) (t : Table) : (s.setSb2 t).ieErr = s.ieErr := rfl
@[simp] theorem State.setSb2_cmdLatch (s : State) (t : Table) : (s.setSb2 t).cmdLatch = s.cmdLatch := rfl
@[simp] theorem State.setSb2_pending (s : State) (t : Table) : (s.setSb2 t).pending = s.pending := rfl
@[simp] theorem State.setSb2_bus (s : State) (t : Table) : (s.setSb2 t).bus = s.bus := rfl
@[simp] theorem State.setSb2_freeCount (s : State) (t : Table) : (s.setSb2 t).freeCount = s.freeCount := rfl

/-! ## `State.respond` -/

@[simp] theorem State.respond_params (s : State) (r : BusResponse) : (s.respond r).params = s.params := rfl
@[simp] theorem State.respond_bigRegs (s : State) (r : BusResponse) : (s.respond r).bigRegs = s.bigRegs := rfl
@[simp] theorem State.respond_scalRegs (s : State) (r : BusResponse) : (s.respond r).scalRegs = s.scalRegs := rfl
@[simp] theorem State.respond_dm (s : State) (r : BusResponse) : (s.respond r).dm = s.dm := rfl
@[simp] theorem State.respond_xs (s : State) (r : BusResponse) : (s.respond r).xs = s.xs := rfl
@[simp] theorem State.respond_xsv (s : State) (r : BusResponse) : (s.respond r).xsv = s.xsv := rfl
@[simp] theorem State.respond_ks (s : State) (r : BusResponse) : (s.respond r).ks = s.ks := rfl
@[simp] theorem State.respond_ksv (s : State) (r : BusResponse) : (s.respond r).ksv = s.ksv := rfl
@[simp] theorem State.respond_st (s : State) (r : BusResponse) : (s.respond r).st = s.st := rfl
@[simp] theorem State.respond_key (s : State) (r : BusResponse) : (s.respond r).key = s.key := rfl
@[simp] theorem State.respond_mkey (s : State) (r : BusResponse) : (s.respond r).mkey = s.mkey := rfl
@[simp] theorem State.respond_keyv (s : State) (r : BusResponse) : (s.respond r).keyv = s.keyv := rfl
@[simp] theorem State.respond_sb1 (s : State) (r : BusResponse) : (s.respond r).sb1 = s.sb1 := rfl
@[simp] theorem State.respond_sb2 (s : State) (r : BusResponse) : (s.respond r).sb2 = s.sb2 := rfl
@[simp] theorem State.respond_sb1v (s : State) (r : BusResponse) : (s.respond r).sb1v = s.sb1v := rfl
@[simp] theorem State.respond_sb2v (s : State) (r : BusResponse) : (s.respond r).sb2v = s.sb2v := rfl
@[simp] theorem State.respond_hashLen (s : State) (r : BusResponse) : (s.respond r).hashLen = s.hashLen := rfl
@[simp] theorem State.respond_squish (s : State) (r : BusResponse) : (s.respond r).squish = s.squish := rfl
@[simp] theorem State.respond_busy (s : State) (r : BusResponse) : (s.respond r).busy = s.busy := rfl
@[simp] theorem State.respond_done (s : State) (r : BusResponse) : (s.respond r).done = s.done := rfl
@[simp] theorem State.respond_err (s : State) (r : BusResponse) : (s.respond r).err = s.err := rfl
@[simp] theorem State.respond_ovr (s : State) (r : BusResponse) : (s.respond r).ovr = s.ovr := rfl
@[simp] theorem State.respond_prime (s : State) (r : BusResponse) : (s.respond r).prime = s.prime := rfl
@[simp] theorem State.respond_faultCause (s : State) (r : BusResponse) : (s.respond r).faultCause = s.faultCause := rfl
@[simp] theorem State.respond_fcmd (s : State) (r : BusResponse) : (s.respond r).fcmd = s.fcmd := rfl
@[simp] theorem State.respond_ieDone (s : State) (r : BusResponse) : (s.respond r).ieDone = s.ieDone := rfl
@[simp] theorem State.respond_ieErr (s : State) (r : BusResponse) : (s.respond r).ieErr = s.ieErr := rfl
@[simp] theorem State.respond_cmdLatch (s : State) (r : BusResponse) : (s.respond r).cmdLatch = s.cmdLatch := rfl
@[simp] theorem State.respond_pending (s : State) (r : BusResponse) : (s.respond r).pending = s.pending := rfl
@[simp] theorem State.respond_bus (s : State) (r : BusResponse) : (s.respond r).bus = some r := rfl
@[simp] theorem State.respond_freeCount (s : State) (r : BusResponse) : (s.respond r).freeCount = s.freeCount := rfl

/-! ## `State.respondFree` -/

@[simp] theorem State.respondFree_params (s : State) (r : Word → BusResponse) : (s.respondFree r).params = s.params := rfl
@[simp] theorem State.respondFree_bigRegs (s : State) (r : Word → BusResponse) : (s.respondFree r).bigRegs = s.bigRegs := rfl
@[simp] theorem State.respondFree_scalRegs (s : State) (r : Word → BusResponse) : (s.respondFree r).scalRegs = s.scalRegs := rfl
@[simp] theorem State.respondFree_dm (s : State) (r : Word → BusResponse) : (s.respondFree r).dm = s.dm := rfl
@[simp] theorem State.respondFree_xs (s : State) (r : Word → BusResponse) : (s.respondFree r).xs = s.xs := rfl
@[simp] theorem State.respondFree_xsv (s : State) (r : Word → BusResponse) : (s.respondFree r).xsv = s.xsv := rfl
@[simp] theorem State.respondFree_ks (s : State) (r : Word → BusResponse) : (s.respondFree r).ks = s.ks := rfl
@[simp] theorem State.respondFree_ksv (s : State) (r : Word → BusResponse) : (s.respondFree r).ksv = s.ksv := rfl
@[simp] theorem State.respondFree_st (s : State) (r : Word → BusResponse) : (s.respondFree r).st = s.st := rfl
@[simp] theorem State.respondFree_key (s : State) (r : Word → BusResponse) : (s.respondFree r).key = s.key := rfl
@[simp] theorem State.respondFree_mkey (s : State) (r : Word → BusResponse) : (s.respondFree r).mkey = s.mkey := rfl
@[simp] theorem State.respondFree_keyv (s : State) (r : Word → BusResponse) : (s.respondFree r).keyv = s.keyv := rfl
@[simp] theorem State.respondFree_sb1 (s : State) (r : Word → BusResponse) : (s.respondFree r).sb1 = s.sb1 := rfl
@[simp] theorem State.respondFree_sb2 (s : State) (r : Word → BusResponse) : (s.respondFree r).sb2 = s.sb2 := rfl
@[simp] theorem State.respondFree_sb1v (s : State) (r : Word → BusResponse) : (s.respondFree r).sb1v = s.sb1v := rfl
@[simp] theorem State.respondFree_sb2v (s : State) (r : Word → BusResponse) : (s.respondFree r).sb2v = s.sb2v := rfl
@[simp] theorem State.respondFree_hashLen (s : State) (r : Word → BusResponse) : (s.respondFree r).hashLen = s.hashLen := rfl
@[simp] theorem State.respondFree_squish (s : State) (r : Word → BusResponse) : (s.respondFree r).squish = s.squish := rfl
@[simp] theorem State.respondFree_busy (s : State) (r : Word → BusResponse) : (s.respondFree r).busy = s.busy := rfl
@[simp] theorem State.respondFree_done (s : State) (r : Word → BusResponse) : (s.respondFree r).done = s.done := rfl
@[simp] theorem State.respondFree_err (s : State) (r : Word → BusResponse) : (s.respondFree r).err = s.err := rfl
@[simp] theorem State.respondFree_ovr (s : State) (r : Word → BusResponse) : (s.respondFree r).ovr = s.ovr := rfl
@[simp] theorem State.respondFree_prime (s : State) (r : Word → BusResponse) : (s.respondFree r).prime = s.prime := rfl
@[simp] theorem State.respondFree_faultCause (s : State) (r : Word → BusResponse) : (s.respondFree r).faultCause = s.faultCause := rfl
@[simp] theorem State.respondFree_fcmd (s : State) (r : Word → BusResponse) : (s.respondFree r).fcmd = s.fcmd := rfl
@[simp] theorem State.respondFree_ieDone (s : State) (r : Word → BusResponse) : (s.respondFree r).ieDone = s.ieDone := rfl
@[simp] theorem State.respondFree_ieErr (s : State) (r : Word → BusResponse) : (s.respondFree r).ieErr = s.ieErr := rfl
@[simp] theorem State.respondFree_cmdLatch (s : State) (r : Word → BusResponse) : (s.respondFree r).cmdLatch = s.cmdLatch := rfl
@[simp] theorem State.respondFree_pending (s : State) (r : Word → BusResponse) : (s.respondFree r).pending = s.pending := rfl
@[simp] theorem State.respondFree_bus (s : State) (r : Word → BusResponse) : (s.respondFree r).bus = some (r s.freeWord) := rfl
@[simp] theorem State.respondFree_freeCount (s : State) (r : Word → BusResponse) : (s.respondFree r).freeCount = s.freeCount + 1 := rfl

/-! ## `State.resetEvent` -/

@[simp] theorem State.resetEvent_params (s : State) : s.resetEvent.params = s.params := rfl
@[simp] theorem State.resetEvent_bigRegs (s : State) : s.resetEvent.bigRegs = (State.resetOf s.params).bigRegs := rfl
@[simp] theorem State.resetEvent_scalRegs (s : State) : s.resetEvent.scalRegs = (State.resetOf s.params).scalRegs := rfl
@[simp] theorem State.resetEvent_dm (s : State) : s.resetEvent.dm = (State.resetOf s.params).dm := rfl
@[simp] theorem State.resetEvent_xs (s : State) : s.resetEvent.xs = (State.resetOf s.params).xs := rfl
@[simp] theorem State.resetEvent_xsv (s : State) : s.resetEvent.xsv = (State.resetOf s.params).xsv := rfl
@[simp] theorem State.resetEvent_ks (s : State) : s.resetEvent.ks = (State.resetOf s.params).ks := rfl
@[simp] theorem State.resetEvent_ksv (s : State) : s.resetEvent.ksv = (State.resetOf s.params).ksv := rfl
@[simp] theorem State.resetEvent_st (s : State) : s.resetEvent.st = (State.resetOf s.params).st := rfl
@[simp] theorem State.resetEvent_key (s : State) : s.resetEvent.key = (State.resetOf s.params).key := rfl
@[simp] theorem State.resetEvent_mkey (s : State) : s.resetEvent.mkey = (State.resetOf s.params).mkey := rfl
@[simp] theorem State.resetEvent_keyv (s : State) : s.resetEvent.keyv = (State.resetOf s.params).keyv := rfl
@[simp] theorem State.resetEvent_sb1 (s : State) : s.resetEvent.sb1 = (State.resetOf s.params).sb1 := rfl
@[simp] theorem State.resetEvent_sb2 (s : State) : s.resetEvent.sb2 = (State.resetOf s.params).sb2 := rfl
@[simp] theorem State.resetEvent_sb1v (s : State) : s.resetEvent.sb1v = (State.resetOf s.params).sb1v := rfl
@[simp] theorem State.resetEvent_sb2v (s : State) : s.resetEvent.sb2v = (State.resetOf s.params).sb2v := rfl
@[simp] theorem State.resetEvent_hashLen (s : State) : s.resetEvent.hashLen = (State.resetOf s.params).hashLen := rfl
@[simp] theorem State.resetEvent_squish (s : State) : s.resetEvent.squish = (State.resetOf s.params).squish := rfl
@[simp] theorem State.resetEvent_busy (s : State) : s.resetEvent.busy = (State.resetOf s.params).busy := rfl
@[simp] theorem State.resetEvent_done (s : State) : s.resetEvent.done = (State.resetOf s.params).done := rfl
@[simp] theorem State.resetEvent_err (s : State) : s.resetEvent.err = (State.resetOf s.params).err := rfl
@[simp] theorem State.resetEvent_ovr (s : State) : s.resetEvent.ovr = (State.resetOf s.params).ovr := rfl
@[simp] theorem State.resetEvent_prime (s : State) : s.resetEvent.prime = (State.resetOf s.params).prime := rfl
@[simp] theorem State.resetEvent_faultCause (s : State) : s.resetEvent.faultCause = (State.resetOf s.params).faultCause := rfl
@[simp] theorem State.resetEvent_fcmd (s : State) : s.resetEvent.fcmd = (State.resetOf s.params).fcmd := rfl
@[simp] theorem State.resetEvent_ieDone (s : State) : s.resetEvent.ieDone = (State.resetOf s.params).ieDone := rfl
@[simp] theorem State.resetEvent_ieErr (s : State) : s.resetEvent.ieErr = (State.resetOf s.params).ieErr := rfl
@[simp] theorem State.resetEvent_cmdLatch (s : State) : s.resetEvent.cmdLatch = (State.resetOf s.params).cmdLatch := rfl
@[simp] theorem State.resetEvent_pending (s : State) : s.resetEvent.pending = s.pending := rfl
@[simp] theorem State.resetEvent_bus (s : State) : s.resetEvent.bus = (State.resetOf s.params).bus := rfl
@[simp] theorem State.resetEvent_freeCount (s : State) : s.resetEvent.freeCount = s.freeCount := rfl

end Sys2Proof.Machine
end

