-- ==== Sys2Proof/Laws/Access.lean ====
section
/-!
SUPPORT. What the register accessors read after each update, and what one write of a big or a scalar register does.
-/

namespace Sys2Proof.Machine

/-! ## One write -/

theorem vector_get_set {α : Type} {n : Nat} (v : Vector α n) (i j : Fin n) (x : α) :
    (v.set i.val x i.isLt).get j = if i = j then x else v.get j := by
  simp only [Vector.get_eq_getElem, Vector.getElem_set, Fin.ext_iff]

/-- `R[k] <- v` followed by a read of any register. -/
theorem State.big_setBig (s : State) (k j : BigReg) (v : Nat) :
    (s.setBig k v).big j = if k = j then v % 2 ^ s.params.w else s.big j :=
  vector_get_set ..

/-- `S[k] <- v` followed by a read of any register. -/
theorem State.scal_setScal (s : State) (k j : ScalReg) (v : Word) :
    (s.setScal k v).scal j = if k = j then v else s.scal j :=
  vector_get_set ..

theorem State.big_setBig_same (s : State) (k : BigReg) {v : Nat} (h : v < 2 ^ s.params.w) :
    (s.setBig k v).big k = v := by
  rw [State.big_setBig, if_pos rfl, Nat.mod_eq_of_lt h]

theorem State.big_setBig_ne (s : State) {k j : BigReg} (v : Nat) (h : j ≠ k) : (s.setBig k v).big j = s.big j := by
  rw [State.big_setBig, if_neg (Ne.symm h)]

/-- A write keeps every big register below `2^W`. -/
theorem State.bigOk_setBig (s : State) (k : BigReg) (v : Nat) (h : s.BigOk) : (s.setBig k v).BigOk := by
  intro j
  rw [State.big_setBig]
  split
  · exact Nat.mod_lt _ (Nat.two_pow_pos _)
  · exact h j

/-- Registers are the same when the register file is. -/
theorem State.big_congr {s t : State} (h : t.bigRegs = s.bigRegs) (k : BigReg) : t.big k = s.big k := by
  unfold State.big; rw [h]

theorem State.scal_congr {s t : State} (h : t.scalRegs = s.scalRegs) (k : ScalReg) : t.scal k = s.scal k := by
  unfold State.scal; rw [h]

/-- The two's complement encoding fits the register. -/
theorem State.twos_lt (s : State) (x : Int) : s.twos x < 2 ^ s.params.w := by
  unfold State.twos
  have hp : (0 : Int) < (2 ^ s.params.w : Nat) := by exact_mod_cast Nat.two_pow_pos _
  have h1 := Int.emod_lt_of_pos x hp
  have h0 := Int.emod_nonneg x (ne_of_gt hp)
  omega

/-! ## After `State.faultEntry` -/

@[simp] theorem State.faultEntry_big (s : State) (c : Cause) (j : BigReg) :
    (s.faultEntry c).big j = s.big j := rfl
@[simp] theorem State.faultEntry_scal (s : State) (c : Cause) (j : ScalReg) :
    (s.faultEntry c).scal j = s.scal j := rfl
@[simp] theorem State.faultEntry_scalNat (s : State) (c : Cause) (j : ScalReg) :
    (s.faultEntry c).scalNat j = s.scalNat j := rfl

/-! ## After `State.finish` -/

@[simp] theorem State.finish_big (s : State) (j : BigReg) :
    (s.finish).big j = s.big j := rfl
@[simp] theorem State.finish_scal (s : State) (j : ScalReg) :
    (s.finish).scal j = s.scal j := rfl
@[simp] theorem State.finish_scalNat (s : State) (j : ScalReg) :
    (s.finish).scalNat j = s.scalNat j := rfl

/-! ## After `State.acknowledge` -/

@[simp] theorem State.acknowledge_big (s : State) (j : BigReg) :
    (s.acknowledge).big j = s.big j := rfl
@[simp] theorem State.acknowledge_scal (s : State) (j : ScalReg) :
    (s.acknowledge).scal j = s.scal j := rfl
@[simp] theorem State.acknowledge_scalNat (s : State) (j : ScalReg) :
    (s.acknowledge).scalNat j = s.scalNat j := rfl

/-! ## After `State.dropWrite` -/

@[simp] theorem State.dropWrite_big (s : State) (j : BigReg) :
    (s.dropWrite).big j = s.big j := rfl
@[simp] theorem State.dropWrite_scal (s : State) (j : ScalReg) :
    (s.dropWrite).scal j = s.scal j := rfl
@[simp] theorem State.dropWrite_scalNat (s : State) (j : ScalReg) :
    (s.dropWrite).scalNat j = s.scalNat j := rfl

/-! ## After `State.accept` -/

@[simp] theorem State.accept_big (s : State) (w : Word) (j : BigReg) :
    (s.accept w).big j = s.big j := rfl
@[simp] theorem State.accept_scal (s : State) (w : Word) (j : ScalReg) :
    (s.accept w).scal j = s.scal j := rfl
@[simp] theorem State.accept_scalNat (s : State) (w : Word) (j : ScalReg) :
    (s.accept w).scalNat j = s.scalNat j := rfl

/-! ## After `State.store` -/

@[simp] theorem State.store_big (s : State) (a : Nat) (bs : List Byte) (j : BigReg) :
    (s.store a bs).big j = s.big j := rfl
@[simp] theorem State.store_scal (s : State) (a : Nat) (bs : List Byte) (j : ScalReg) :
    (s.store a bs).scal j = s.scal j := rfl
@[simp] theorem State.store_scalNat (s : State) (a : Nat) (bs : List Byte) (j : ScalReg) :
    (s.store a bs).scalNat j = s.scalNat j := rfl

/-! ## After `State.setBig` -/

@[simp] theorem State.setBig_scal (s : State) (r : BigReg) (v : Nat) (j : ScalReg) :
    (s.setBig r v).scal j = s.scal j := rfl
@[simp] theorem State.setBig_scalNat (s : State) (r : BigReg) (v : Nat) (j : ScalReg) :
    (s.setBig r v).scalNat j = s.scalNat j := rfl

/-! ## After `State.setScal` -/

@[simp] theorem State.setScal_big (s : State) (r : ScalReg) (v : Word) (j : BigReg) :
    (s.setScal r v).big j = s.big j := rfl

/-! ## After `State.setPrime` -/

@[simp] theorem State.setPrime_big (s : State) (b : Bool) (j : BigReg) :
    (s.setPrime b).big j = s.big j := rfl
@[simp] theorem State.setPrime_scal (s : State) (b : Bool) (j : ScalReg) :
    (s.setPrime b).scal j = s.scal j := rfl
@[simp] theorem State.setPrime_scalNat (s : State) (b : Bool) (j : ScalReg) :
    (s.setPrime b).scalNat j = s.scalNat j := rfl

/-! ## After `State.setIen` -/

@[simp] theorem State.setIen_big (s : State) (w : Word) (j : BigReg) :
    (s.setIen w).big j = s.big j := rfl
@[simp] theorem State.setIen_scal (s : State) (w : Word) (j : ScalReg) :
    (s.setIen w).scal j = s.scal j := rfl
@[simp] theorem State.setIen_scalNat (s : State) (w : Word) (j : ScalReg) :
    (s.setIen w).scalNat j = s.scalNat j := rfl

/-! ## After `State.setXs` -/

@[simp] theorem State.setXs_big (s : State) (v : BitVec 512) (j : BigReg) :
    (s.setXs v).big j = s.big j := rfl
@[simp] theorem State.setXs_scal (s : State) (v : BitVec 512) (j : ScalReg) :
    (s.setXs v).scal j = s.scal j := rfl
@[simp] theorem State.setXs_scalNat (s : State) (v : BitVec 512) (j : ScalReg) :
    (s.setXs v).scalNat j = s.scalNat j := rfl

/-! ## After `State.seedXs` -/

@[simp] theorem State.seedXs_big (s : State) (v : BitVec 512) (j : BigReg) :
    (s.seedXs v).big j = s.big j := rfl
@[simp] theorem State.seedXs_scal (s : State) (v : BitVec 512) (j : ScalReg) :
    (s.seedXs v).scal j = s.scal j := rfl
@[simp] theorem State.seedXs_scalNat (s : State) (v : BitVec 512) (j : ScalReg) :
    (s.seedXs v).scalNat j = s.scalNat j := rfl

/-! ## After `State.setKs` -/

@[simp] theorem State.setKs_big (s : State) (u : Keystream) (j : BigReg) :
    (s.setKs u).big j = s.big j := rfl
@[simp] theorem State.setKs_scal (s : State) (u : Keystream) (j : ScalReg) :
    (s.setKs u).scal j = s.scal j := rfl
@[simp] theorem State.setKs_scalNat (s : State) (u : Keystream) (j : ScalReg) :
    (s.setKs u).scalNat j = s.scalNat j := rfl

/-! ## After `State.initKs` -/

@[simp] theorem State.initKs_big (s : State) (key : List Byte) (n : Nat) (j : BigReg) :
    (s.initKs key n).big j = s.big j := rfl
@[simp] theorem State.initKs_scal (s : State) (key : List Byte) (n : Nat) (j : ScalReg) :
    (s.initKs key n).scal j = s.scal j := rfl
@[simp] theorem State.initKs_scalNat (s : State) (key : List Byte) (n : Nat) (j : ScalReg) :
    (s.initKs key n).scalNat j = s.scalNat j := rfl

/-! ## After `State.setSt` -/

@[simp] theorem State.setSt_big (s : State) (t : Table) (j : BigReg) :
    (s.setSt t).big j = s.big j := rfl
@[simp] theorem State.setSt_scal (s : State) (t : Table) (j : ScalReg) :
    (s.setSt t).scal j = s.scal j := rfl
@[simp] theorem State.setSt_scalNat (s : State) (t : Table) (j : ScalReg) :
    (s.setSt t).scalNat j = s.scalNat j := rfl

/-! ## After `State.setKey` -/

@[simp] theorem State.setKey_big (s : State) (k : BitVec 128) (j : BigReg) :
    (s.setKey k).big j = s.big j := rfl
@[simp] theorem State.setKey_scal (s : State) (k : BitVec 128) (j : ScalReg) :
    (s.setKey k).scal j = s.scal j := rfl
@[simp] theorem State.setKey_scalNat (s : State) (k : BitVec 128) (j : ScalReg) :
    (s.setKey k).scalNat j = s.scalNat j := rfl

/-! ## After `State.setSb1` -/

@[simp] theorem State.setSb1_big (s : State) (t : Table) (j : BigReg) :
    (s.setSb1 t).big j = s.big j := rfl
@[simp] theorem State.setSb1_scal (s : State) (t : Table) (j : ScalReg) :
    (s.setSb1 t).scal j = s.scal j := rfl
@[simp] theorem State.setSb1_scalNat (s : State) (t : Table) (j : ScalReg) :
    (s.setSb1 t).scalNat j = s.scalNat j := rfl

/-! ## After `State.setSb2` -/

@[simp] theorem State.setSb2_big (s : State) (t : Table) (j : BigReg) :
    (s.setSb2 t).big j = s.big j := rfl
@[simp] theorem State.setSb2_scal (s : State) (t : Table) (j : ScalReg) :
    (s.setSb2 t).scal j = s.scal j := rfl
@[simp] theorem State.setSb2_scalNat (s : State) (t : Table) (j : ScalReg) :
    (s.setSb2 t).scalNat j = s.scalNat j := rfl

/-! ## After `State.respond` -/

@[simp] theorem State.respond_big (s : State) (r : BusResponse) (j : BigReg) :
    (s.respond r).big j = s.big j := rfl
@[simp] theorem State.respond_scal (s : State) (r : BusResponse) (j : ScalReg) :
    (s.respond r).scal j = s.scal j := rfl
@[simp] theorem State.respond_scalNat (s : State) (r : BusResponse) (j : ScalReg) :
    (s.respond r).scalNat j = s.scalNat j := rfl

/-! ## After `State.respondFree` -/

@[simp] theorem State.respondFree_big (s : State) (r : Word → BusResponse) (j : BigReg) :
    (s.respondFree r).big j = s.big j := rfl
@[simp] theorem State.respondFree_scal (s : State) (r : Word → BusResponse) (j : ScalReg) :
    (s.respondFree r).scal j = s.scal j := rfl
@[simp] theorem State.respondFree_scalNat (s : State) (r : Word → BusResponse) (j : ScalReg) :
    (s.respondFree r).scalNat j = s.scalNat j := rfl

end Sys2Proof.Machine
end

