-- ==== Sys2Proof/Laws/Memory.lean ====
section
/-!
SUPPORT. The laws of the data memory: read after write, the canonical form, and what `readBytes` and `writeBytes` do.
-/

namespace Sys2Proof.Machine

theorem cellsOk_cons_iff (a : Nat) (b : Byte) (cs : List Host.Cell) :
    cellsOk ((a, b) :: cs) = true ↔ b ≠ Memory.unlisted ∧ (∀ c ∈ cs, a < c.1) ∧ cellsOk cs = true := by
  induction cs generalizing a b with
  | nil => simp [cellsOk]
  | cons c cs ih =>
    obtain ⟨a', b'⟩ := c
    have h := ih a' b'
    simp only [cellsOk, Bool.and_eq_true, bne_iff_ne, decide_eq_true_eq, List.mem_cons, forall_eq_or_imp]
    constructor
    · rintro ⟨⟨hb, hlt⟩, hok⟩
      exact ⟨hb, ⟨hlt, fun c hc => Nat.lt_trans hlt ((h.mp hok).2.1 c hc)⟩, hok⟩
    · rintro ⟨hb, ⟨hlt, -⟩, hok⟩
      exact ⟨⟨hb, hlt⟩, hok⟩

/-- An address that `putCell` lists is the one put or was listed before. -/
theorem mem_putCell {a : Nat} {b : Byte} {cs : List Host.Cell} {c : Host.Cell} (h : c ∈ putCell a b cs) :
    c.1 = a ∨ c ∈ cs := by
  induction cs with
  | nil =>
    unfold putCell at h
    split at h <;> simp_all
  | cons d cs ih =>
    obtain ⟨a', b'⟩ := d
    unfold putCell at h
    split at h
    · split at h
      · exact .inr h
      · rcases List.mem_cons.mp h with rfl | h
        · exact .inl rfl
        · exact .inr h
    · split at h
      · split at h
        · exact .inr (List.mem_cons_of_mem _ h)
        · rcases List.mem_cons.mp h with rfl | h
          · exact .inl rfl
          · exact .inr (List.mem_cons_of_mem _ h)
      · rcases List.mem_cons.mp h with rfl | h
        · exact .inr (List.mem_cons_self ..)
        · rcases ih h with h | h
          · exact .inl h
          · exact .inr (List.mem_cons_of_mem _ h)

theorem cellsOk_putCell (a : Nat) (b : Byte) {cs : List Host.Cell} (h : cellsOk cs = true) :
    cellsOk (putCell a b cs) = true := by
  induction cs with
  | nil =>
    unfold putCell
    split
    · rfl
    · simpa [cellsOk] using ‹_›
  | cons d cs ih =>
    obtain ⟨a', b'⟩ := d
    obtain ⟨hb', hlt, hok⟩ := (cellsOk_cons_iff ..).mp h
    unfold putCell
    split
    · rename_i ha
      split
      · exact h
      · refine (cellsOk_cons_iff ..).mpr ⟨‹_›, ?_, h⟩
        intro c hc
        rcases List.mem_cons.mp hc with rfl | hc
        · exact ha
        · exact Nat.lt_trans ha (hlt c hc)
    · split
      · rename_i ha
        subst ha
        split
        · exact hok
        · exact (cellsOk_cons_iff ..).mpr ⟨‹_›, hlt, hok⟩
      · refine (cellsOk_cons_iff ..).mpr ⟨hb', ?_, ih hok⟩
        intro c hc
        rcases mem_putCell hc with hc | hc
        · omega
        · exact hlt c hc

/-- A write keeps the canonical form. -/
theorem Memory.wf_write (m : Memory) (a : Nat) (b : Byte) (h : m.wf = true) : (m.write a b).wf = true :=
  cellsOk_putCell a b h

theorem lookup_none_of_lt {a : Nat} {cs : List Host.Cell} (h : ∀ c ∈ cs, a < c.1) : cs.lookup a = none := by
  induction cs with
  | nil => rfl
  | cons d cs ih =>
    have hd := h d (List.mem_cons_self ..)
    have hne : (a == d.1) = false := by simpa using Nat.ne_of_lt hd
    rw [List.lookup_cons, hne]
    exact ih fun c hc => h c (List.mem_cons_of_mem _ hc)

theorem lookup_putCell_same (a : Nat) (b : Byte) {cs : List Host.Cell} (h : cellsOk cs = true) :
    (putCell a b cs).lookup a = if b = Memory.unlisted then none else some b := by
  induction cs with
  | nil => by_cases hb : b = Memory.unlisted <;> simp [putCell, hb]
  | cons d cs ih =>
    obtain ⟨a', b'⟩ := d
    obtain ⟨-, hlt, hok⟩ := (cellsOk_cons_iff ..).mp h
    unfold putCell
    by_cases h1 : a < a'
    · have hn : List.lookup a ((a', b') :: cs) = none := lookup_none_of_lt fun c hc => by
        rcases List.mem_cons.mp hc with rfl | hc
        · exact h1
        · exact Nat.lt_trans h1 (hlt c hc)
      by_cases hb : b = Memory.unlisted
      · simp only [h1, hb, if_true, hn]
      · simp [h1, hb]
    · by_cases h2 : a = a'
      · subst h2
        by_cases hb : b = Memory.unlisted
        · simp [hb, lookup_none_of_lt hlt]
        · simp [hb]
      · have hne : (a == a') = false := by simpa using h2
        simp only [h1, h2, if_false, List.lookup_cons, hne, ih hok]

theorem lookup_putCell_ne {a x : Nat} (b : Byte) (h : x ≠ a) (cs : List Host.Cell) :
    (putCell a b cs).lookup x = cs.lookup x := by
  have hxa : (x == a) = false := by simpa using h
  induction cs with
  | nil => by_cases hb : b = Memory.unlisted <;> simp [putCell, hb, List.lookup_cons, hxa]
  | cons d cs ih =>
    obtain ⟨a', b'⟩ := d
    unfold putCell
    by_cases h1 : a < a'
    · by_cases hb : b = Memory.unlisted
      · simp only [h1, hb, if_true]
      · simp [h1, hb, List.lookup_cons, hxa]
    · by_cases h2 : a = a'
      · subst h2
        by_cases hb : b = Memory.unlisted <;> simp [hb, List.lookup_cons, hxa]
      · simp only [h1, h2, if_false, List.lookup_cons, ih]

/-- Reading where a byte was just written gives that byte. -/
theorem Memory.read_write_same (m : Memory) (a : Nat) (b : Byte) (h : m.wf = true) :
    (m.write a b).read a = b := by
  unfold Memory.read Memory.write
  rw [lookup_putCell_same a b h]
  by_cases hb : b = Memory.unlisted <;> simp [hb]

/-- A write leaves every other byte alone. -/
theorem Memory.read_write_ne (m : Memory) {a x : Nat} (b : Byte) (h : x ≠ a) : (m.write a b).read x = m.read x := by
  unfold Memory.read Memory.write
  rw [lookup_putCell_ne b h]

theorem Memory.below_write (m : Memory) {a n : Nat} (b : Byte) (ha : a < n) (h : m.below n = true) :
    (m.write a b).below n = true := by
  simp only [Memory.below, List.all_eq_true, decide_eq_true_eq] at h ⊢
  intro c hc
  rcases mem_putCell hc with hc | hc
  · omega
  · exact h c hc

theorem Memory.read_of_cells_nil (a : Nat) : (Memory.mk []).read a = 0 := rfl

/-- Memories in canonical form that read alike everywhere are equal. -/
theorem Memory.eq_of_read_eq {m m' : Memory} (h : m.wf = true) (h' : m'.wf = true)
    (hr : ∀ a, m.read a = m'.read a) : m = m' := by
  obtain ⟨cs⟩ := m
  obtain ⟨cs'⟩ := m'
  simp only [Memory.wf] at h h'
  simp only [Memory.read] at hr
  congr 1
  induction cs generalizing cs' with
  | nil =>
    cases cs' with
    | nil => rfl
    | cons d cs' =>
      obtain ⟨a, b⟩ := d
      have := hr a
      have hb := ((cellsOk_cons_iff ..).mp h').1
      simp at this
      exact absurd this.symm hb
  | cons d cs ih =>
    obtain ⟨a, b⟩ := d
    obtain ⟨hb, hlt, hok⟩ := (cellsOk_cons_iff ..).mp h
    cases cs' with
    | nil =>
      have := hr a
      simp at this
      exact absurd this hb
    | cons d' cs' =>
      obtain ⟨a', b'⟩ := d'
      obtain ⟨hb', hlt', hok'⟩ := (cellsOk_cons_iff ..).mp h'
      have haa : a = a' := by
        rcases Nat.lt_trichotomy a a' with hl | he | hl
        · have := hr a
          have hn : List.lookup a ((a', b') :: cs') = none := lookup_none_of_lt fun c hc => by
            rcases List.mem_cons.mp hc with rfl | hc
            · exact hl
            · exact Nat.lt_trans hl (hlt' c hc)
          rw [hn] at this
          simp at this
          exact absurd this hb
        · exact he
        · have := hr a'
          have hn : List.lookup a' ((a, b) :: cs) = none := lookup_none_of_lt fun c hc => by
            rcases List.mem_cons.mp hc with rfl | hc
            · exact hl
            · exact Nat.lt_trans hl (hlt c hc)
          rw [hn] at this
          simp at this
          exact absurd this.symm hb'
      subst haa
      have hbb : b = b' := by simpa using hr a
      subst hbb
      congr 1
      refine ih hok cs' hok' fun x => ?_
      by_cases hx : x = a
      · subst hx
        rw [lookup_none_of_lt hlt, lookup_none_of_lt hlt']
      · have := hr x
        have hxa : (x == a) = false := by simpa using hx
        simpa [List.lookup_cons, hxa] using this

/-! ## Byte ranges -/

@[simp] theorem Memory.length_readBytes (m : Memory) (n a : Nat) : (m.readBytes n a).length = n := by
  induction n generalizing a with
  | zero => rfl
  | succ n ih => simp [Memory.readBytes, ih]

theorem Memory.getElem?_readBytes (m : Memory) {n a k : Nat} (h : k < n) :
    (m.readBytes n a)[k]? = some (m.read (a + k)) := by
  induction n generalizing a k with
  | zero => omega
  | succ n ih =>
    cases k with
    | zero => simp [Memory.readBytes]
    | succ k =>
      simp only [Memory.readBytes, List.getElem?_cons_succ]
      rw [ih (by omega)]
      congr 2
      omega

theorem Memory.wf_writeBytes (m : Memory) (a : Nat) (bs : List Byte) (h : m.wf = true) :
    (m.writeBytes a bs).wf = true := by
  induction bs generalizing m a with
  | nil => exact h
  | cons b bs ih => exact ih _ _ (m.wf_write a b h)

theorem Memory.below_writeBytes (m : Memory) {a n : Nat} (bs : List Byte) (ha : a + bs.length ≤ n)
    (h : m.below n = true) : (m.writeBytes a bs).below n = true := by
  induction bs generalizing m a with
  | nil => exact h
  | cons b bs ih =>
    simp only [List.length_cons] at ha
    exact ih _ (by omega) (m.below_write b (by omega) h)

/-- `writeBytes` leaves every byte outside its range alone. -/
theorem Memory.read_writeBytes_outside (m : Memory) {a x : Nat} (bs : List Byte)
    (h : x < a ∨ a + bs.length ≤ x) : (m.writeBytes a bs).read x = m.read x := by
  induction bs generalizing m a with
  | nil => rfl
  | cons b bs ih =>
    simp only [List.length_cons] at h
    rw [Memory.writeBytes, ih _ (by omega), m.read_write_ne b (by omega)]

/-- `writeBytes` puts byte `k` of the string at `a + k`. -/
theorem Memory.read_writeBytes_inside (m : Memory) {a k : Nat} (bs : List Byte) (hm : m.wf = true)
    (h : k < bs.length) : (m.writeBytes a bs).read (a + k) = bs[k] := by
  induction bs generalizing m a k with
  | nil => simp at h
  | cons b bs ih =>
    cases k with
    | zero =>
      rw [Memory.writeBytes, Memory.read_writeBytes_outside _ _ (by omega)]
      exact m.read_write_same a b hm
    | succ k =>
      have := ih (m.write a b) (a := a + 1) (k := k) (m.wf_write a b hm) (by simpa using h)
      rw [Memory.writeBytes, show a + (k + 1) = a + 1 + k by omega, this]
      rfl

/-- Reading back the range just written gives the bytes written. -/
theorem Memory.readBytes_writeBytes (m : Memory) (a : Nat) (bs : List Byte) (hm : m.wf = true) :
    (m.writeBytes a bs).readBytes bs.length a = bs := by
  apply List.ext_getElem?
  intro k
  by_cases hk : k < bs.length
  · rw [Memory.getElem?_readBytes _ hk, m.read_writeBytes_inside bs hm hk, List.getElem?_eq_getElem hk]
  · rw [List.getElem?_eq_none (by simpa using hk), List.getElem?_eq_none (by simpa using hk)]

/-! ## The core's data memory -/

@[simp] theorem State.length_load (s : State) (a n : Nat) : (s.load a n).length = n := by simp [State.load]

theorem State.outOfDm_eq_false_iff (s : State) (a n : Nat) : s.outOfDm a n = false ↔ a + n ≤ s.params.dmSize := by
  simp [State.outOfDm]

end Sys2Proof.Machine
end

