-- ==== Sys2Proof/Laws/Bus.lean ====
section
/-!
SUPPORT. The laws of the host window: which addresses name something (20_memory.md R61, R62), and a word of a big
register read and replaced (20_memory.md R65).
-/

namespace Sys2Proof.Machine

open Sys2Proof.Config (Params)

/-! ## The address map -/

theorem controlTarget_isSome : ∀ a < 0x50, a % 4 = 0 → (controlTarget a).isSome = true := by decide

/-- An address names something iff it is aligned and mapped. -/
theorem target_isSome_iff (p : Params) (addr : BitVec 16) : (target p addr).isSome = true ↔ Mapped p addr := by
  unfold target Mapped
  simp only
  by_cases h4 : addr.toNat % 4 = 0
  · rw [if_neg (by simpa using h4)]
    by_cases h1 : addr.toNat < 0x50
    · rw [if_pos h1]
      simp [controlTarget_isSome _ h1 h4, h4, h1]
    · rw [if_neg h1]
      by_cases h2 : 0x4000 ≤ addr.toNat ∧ addr.toNat < 0x4000 + 2 * p.w
      · rw [if_pos h2]
        simp [h4, h2]
      · rw [if_neg h2]
        by_cases h3 : 0x8000 ≤ addr.toNat ∧ addr.toNat < 0x8000 + p.dmSize
        · rw [if_pos h3]
          simp [h4, h3]
        · rw [if_neg h3]
          simp [h4, h1, h2, h3]
  · rw [if_pos h4]
    simp [h4]

/-! ## Words of a big register -/

theorem wordOf_toNat (v j : Nat) : (wordOf v j).toNat = v / 2 ^ (32 * j) % 2 ^ 32 := BitVec.toNat_ofNat ..

theorem putWord_div (v j : Nat) (d : Word) : putWord v j d / 2 ^ (32 * j) = d.toNat + v / 2 ^ (32 * j + 32) * 2 ^ 32 := by
  unfold putWord
  have hp : 0 < 2 ^ (32 * j) := Nat.two_pow_pos _
  have hlt := Nat.mod_lt v hp
  rw [pow_add 2 (32 * j) 32]
  have : v % 2 ^ (32 * j) + d.toNat * 2 ^ (32 * j) + v / (2 ^ (32 * j) * 2 ^ 32) * (2 ^ (32 * j) * 2 ^ 32)
      = v % 2 ^ (32 * j) + 2 ^ (32 * j) * (d.toNat + v / (2 ^ (32 * j) * 2 ^ 32) * 2 ^ 32) := by ring
  rw [this, Nat.add_mul_div_left _ _ hp, Nat.div_eq_of_lt hlt, Nat.zero_add]

theorem putWord_mod (v j : Nat) (d : Word) : putWord v j d % 2 ^ (32 * j) = v % 2 ^ (32 * j) := by
  unfold putWord
  rw [pow_add 2 (32 * j) 32]
  have : v % 2 ^ (32 * j) + d.toNat * 2 ^ (32 * j) + v / (2 ^ (32 * j) * 2 ^ 32) * (2 ^ (32 * j) * 2 ^ 32)
      = v % 2 ^ (32 * j) + 2 ^ (32 * j) * (d.toNat + v / (2 ^ (32 * j) * 2 ^ 32) * 2 ^ 32) := by ring
  rw [this, Nat.add_mul_mod_self_left, Nat.mod_mod]

/-- The word just replaced reads as written. -/
theorem wordOf_putWord_same (v j : Nat) (d : Word) : wordOf (putWord v j d) j = d := by
  apply BitVec.eq_of_toNat_eq
  rw [wordOf_toNat, putWord_div]
  have := d.isLt
  omega

/-- Every other word of the register is kept. -/
theorem wordOf_putWord_ne (v : Nat) {i j : Nat} (d : Word) (h : i ≠ j) : wordOf (putWord v j d) i = wordOf v i := by
  apply BitVec.eq_of_toNat_eq
  rw [wordOf_toNat, wordOf_toNat]
  rcases Nat.lt_or_gt_of_ne h with hlt | hgt
  · obtain ⟨k, rfl⟩ : ∃ k, j = i + 1 + k := ⟨j - (i + 1), by omega⟩
    have hexp : 2 ^ (32 * (i + 1 + k)) = 2 ^ (32 * i) * 2 ^ 32 * 2 ^ (32 * k) := by
      rw [← pow_add, ← pow_add]; congr 1; ring
    have key : ∀ x : Nat, x / 2 ^ (32 * i) % 2 ^ 32 = x % 2 ^ (32 * (i + 1 + k)) / 2 ^ (32 * i) % 2 ^ 32 := by
      intro x
      rw [hexp, Nat.mul_assoc, Nat.mod_mul_right_div_self, Nat.mod_mul_right_mod]
    rw [key (putWord v (i + 1 + k) d), putWord_mod, ← key]
  · obtain ⟨k, rfl⟩ : ∃ k, i = j + 1 + k := ⟨i - (j + 1), by omega⟩
    have hexp : 2 ^ (32 * (j + 1 + k)) = 2 ^ (32 * j) * (2 ^ 32 * 2 ^ (32 * k)) := by
      rw [← pow_add, ← pow_add]; congr 1; ring
    have hd := d.isLt
    have hv : v / 2 ^ (32 * j + 32) = v / 2 ^ (32 * j) / 2 ^ 32 := by rw [pow_add, Nat.div_div_eq_div_mul]
    rw [hexp, ← Nat.div_div_eq_div_mul, ← Nat.div_div_eq_div_mul, ← Nat.div_div_eq_div_mul,
      ← Nat.div_div_eq_div_mul, putWord_div, hv]
    congr 2
    omega

/-- Replacing a word inside the register keeps it inside the register. -/
theorem putWord_lt {v j w : Nat} (d : Word) (hv : v < 2 ^ w) (hj : 32 * j + 32 ≤ w) : putWord v j d < 2 ^ w := by
  obtain ⟨k, rfl⟩ : ∃ k, w = 32 * j + 32 + k := ⟨w - (32 * j + 32), by omega⟩
  have hp : 0 < 2 ^ (32 * j) := Nat.two_pow_pos _
  rw [pow_add, pow_add, Nat.mul_assoc, Nat.mul_comm, ← Nat.div_lt_iff_lt_mul hp, putWord_div]
  have hv' : v / 2 ^ (32 * j + 32) < 2 ^ k := by
    rw [Nat.div_lt_iff_lt_mul (Nat.two_pow_pos _), Nat.mul_comm, ← pow_add]
    exact hv
  have hd := d.isLt
  nlinarith

end Sys2Proof.Machine
end

