-- ==== Sys2Proof/Laws/Bytes.lean ====
section
/-!
SUPPORT. The laws of `le_int`, `le_bytes`, `rotl16` and of cutting a byte string into pieces.
-/

namespace Sys2Proof.Machine

theorem leInt_lt (bs : List Byte) : leInt bs < 256 ^ bs.length := by
  induction bs with
  | nil => simp [leInt]
  | cons b bs ih =>
    have := b.isLt
    simp only [leInt, List.length_cons, Nat.pow_succ]
    omega

@[simp] theorem length_leBytes (n v : Nat) : (leBytes n v).length = n := by
  induction n generalizing v with
  | zero => rfl
  | succ n ih => simp [leBytes, ih]

/-- Byte `k` of `le_bytes(v, n)` is `v / 256^k` modulo 256. -/
theorem getElem?_leBytes {n k : Nat} (v : Nat) (h : k < n) :
    (leBytes n v)[k]? = some (BitVec.ofNat 8 (v / 256 ^ k)) := by
  induction n generalizing v k with
  | zero => omega
  | succ n ih =>
    cases k with
    | zero => simp [leBytes]
    | succ k =>
      simp only [leBytes, List.getElem?_cons_succ]
      rw [ih _ (by omega), Nat.div_div_eq_div_mul, Nat.pow_succ']

/-- `le_int` of `le_bytes(v, n)` drops the bits at or above `8n`. -/
theorem leInt_leBytes (n v : Nat) : leInt (leBytes n v) = v % 256 ^ n := by
  induction n generalizing v with
  | zero => simp [leInt, leBytes, Nat.mod_one]
  | succ n ih =>
    rw [leBytes, leInt, ih, BitVec.toNat_ofNat, show 256 ^ (n + 1) = 256 * 256 ^ n from Nat.pow_succ', Nat.mod_mul]

/-- `le_bytes` of `le_int` gives the byte string back. -/
theorem leBytes_leInt (bs : List Byte) : leBytes bs.length (leInt bs) = bs := by
  induction bs with
  | nil => rfl
  | cons b bs ih =>
    have hb := b.isLt
    simp only [List.length_cons, leBytes, leInt]
    have h1 : (b.toNat + 256 * leInt bs) / 256 = leInt bs := by omega
    have h2 : BitVec.ofNat 8 (b.toNat + 256 * leInt bs) = b := by
      apply BitVec.eq_of_toNat_eq
      rw [BitVec.toNat_ofNat]
      omega
    rw [h1, h2, ih]

/-- Byte `k` of the integer of a byte string. -/
theorem leInt_byte (bs : List Byte) {k : Nat} (h : k < bs.length) : leInt bs / 256 ^ k % 256 = (bs[k]).toNat := by
  induction bs generalizing k with
  | nil => simp at h
  | cons b bs ih =>
    have hb := b.isLt
    cases k with
    | zero => simp only [leInt, pow_zero, Nat.div_one, List.getElem_cons_zero]; omega
    | succ k =>
      have := ih (k := k) (by simpa using h)
      rw [List.getElem_cons_succ, ← this, Nat.pow_succ', ← Nat.div_div_eq_div_mul]
      congr 2
      simp only [leInt]
      omega

@[simp] theorem length_pieces (size count : Nat) (m : List Byte) : (pieces size count m).length = count := by
  induction count generalizing m with
  | zero => rfl
  | succ n ih => simp [pieces, ih]

/-- A byte string of `size · count` bytes is the concatenation of its pieces. -/
theorem flatten_pieces (size count : Nat) (m : List Byte) (h : m.length = size * count) :
    (pieces size count m).flatten = m := by
  induction count generalizing m with
  | zero => simp_all [pieces]
  | succ n ih =>
    rw [pieces, List.flatten_cons, ih _ (by rw [List.length_drop, h, Nat.mul_succ]; omega)]
    exact List.take_append_drop size m

/-- Every piece of a byte string of at least `size · count` bytes has `size` bytes. -/
theorem length_of_mem_pieces {size count : Nat} {m b : List Byte} (h : size * count ≤ m.length)
    (hb : b ∈ pieces size count m) : b.length = size := by
  induction count generalizing m with
  | zero => simp [pieces] at hb
  | succ n ih =>
    rw [Nat.mul_succ] at h
    rcases List.mem_cons.mp hb with rfl | hb
    · simp; omega
    · exact ih (by rw [List.length_drop]; omega) hb

end Sys2Proof.Machine
end

