-- ==== Sys2Proof/Laws/Cipher.lean ====
section
/-!
SUPPORT. The laws of the block cipher and the chaining modes: a decryption round undoes an encryption round
(44_block_cipher.md R213), a chain of decryptions undoes a chain of encryptions, and blocks are byte strings
(45_chaining_modes.md R230).
-/

namespace Sys2Proof.Machine

/-! ## Halves, rotations, subkeys over the integers (R206 to R211) -/

/-- `rotl16` over the integers (00_scope.md R13). -/
theorem toNat_rotl16 (v : Half) (k : Nat) : (rotl16 v k).toNat = rotl16Int v.toNat k := by
  unfold rotl16 rotl16Int
  by_cases h : k = 0
  · subst h
    have : v.toNat / 65536 = 0 := Nat.div_eq_of_lt v.isLt
    simp [Nat.shiftRight_eq_div_pow, this, Nat.mod_eq_of_lt v.isLt]
  · rw [if_neg h]
    have hv : v.toNat >>> (16 - k) < 2 ^ 16 := by
      rw [Nat.shiftRight_eq_div_pow]; exact lt_of_le_of_lt (Nat.div_le_self _ _) v.isLt
    rw [Nat.or_mod_two_pow, Nat.mod_eq_of_lt hv]
    simp [BitVec.toNat_shiftLeft, BitVec.toNat_ushiftRight]


/-- The high half over the integers. -/
theorem toNat_highHalf (x : Word) : (highHalf x).toNat = x.toNat / 2 ^ 16 := by
  have := x.isLt
  simp [highHalf, BitVec.extractLsb'_toNat, Nat.shiftRight_eq_div_pow]; omega

/-- The low half over the integers. -/
theorem toNat_lowHalf (x : Word) : (lowHalf x).toNat = x.toNat % 2 ^ 16 := by
  simp [lowHalf, BitVec.extractLsb'_toNat]

/-- Two halves side by side. -/
theorem toNat_append16 (a b : Half) : (a ++ b : BitVec 32).toNat = a.toNat * 2 ^ 16 + b.toNat := by
  rw [BitVec.toNat_append, ← Nat.shiftLeft_add_eq_or_of_lt b.isLt, Nat.shiftLeft_eq]

/-- Two bytes side by side. -/
theorem toNat_append8 (a b : Byte) : (a ++ b : BitVec 16).toNat = a.toNat * 2 ^ 8 + b.toNat := by
  rw [BitVec.toNat_append, ← Nat.shiftLeft_add_eq_or_of_lt b.isLt, Nat.shiftLeft_eq]

/-- A subkey over the integers (44_block_cipher.md R206). -/
theorem toNat_subkey (c : CipherCtx) (i : Nat) (row : Config.SubkeyRow) :
    (subkey c i row).toNat = subkeyInt c i row := by
  unfold subkey subkeyInt keyWindow
  rw [toNat_rotl16]
  cases row.source <;> simp [BitVec.extractLsb'_toNat, Nat.shiftRight_eq_div_pow]

/-- An entry of a table as an entry of its list. -/
theorem Table.at_eq_getD (t : Table) (b : Byte) : Table.at t b = t.toList.getD b.toNat 0 := by
  unfold Table.at
  rw [Vector.get_eq_getElem, List.getD_eq_getElem?_getD, List.getElem?_eq_getElem (by simpa using b.isLt)]
  simp

/-! ## Rounds (R212, R213) -/

theorem decRound_encRound (c : CipherCtx) (p : Word × Word) (i : Nat) : decRound c (encRound c p i) i = p := by
  simp [decRound, encRound]

theorem encRound_decRound (c : CipherCtx) (p : Word × Word) (i : Nat) : encRound c (decRound c p i) i = p := by
  simp [decRound, encRound]

theorem toNat_joinBlock (p : Word × Word) : (joinBlock p).toNat = p.1.toNat * 2 ^ 32 + p.2.toNat := by
  unfold joinBlock
  rw [BitVec.toNat_append, ← Nat.shiftLeft_add_eq_or_of_lt p.2.isLt, Nat.shiftLeft_eq]

theorem toNat_splitBlock_fst (x : Block) : (splitBlock x).1.toNat = x.toNat / 2 ^ 32 % 2 ^ 32 := by
  simp [splitBlock, BitVec.extractLsb'_toNat, Nat.shiftRight_eq_div_pow]

theorem toNat_splitBlock_snd (x : Block) : (splitBlock x).2.toNat = x.toNat % 2 ^ 32 := by
  simp [splitBlock, BitVec.extractLsb'_toNat]

theorem splitBlock_joinBlock (p : Word × Word) : splitBlock (joinBlock p) = p := by
  have h1 := p.1.isLt
  have h2 := p.2.isLt
  refine Prod.ext (BitVec.eq_of_toNat_eq ?_) (BitVec.eq_of_toNat_eq ?_)
  · rw [toNat_splitBlock_fst, toNat_joinBlock]
    omega
  · rw [toNat_splitBlock_snd, toNat_joinBlock]
    omega

theorem joinBlock_splitBlock (x : Block) : joinBlock (splitBlock x) = x := by
  have := x.isLt
  apply BitVec.eq_of_toNat_eq
  rw [toNat_joinBlock, toNat_splitBlock_fst, toNat_splitBlock_snd]
  omega

/-! ## Chains -/

theorem length_cbcEnc (e : Block → Block) (v : Block) (ps : List Block) : (cbcEnc e v ps).length = ps.length := by
  induction ps generalizing v with
  | nil => rfl
  | cons p ps ih => simp [cbcEnc, ih]

theorem length_cbcDec (d : Block → Block) (v : Block) (cs : List Block) : (cbcDec d v cs).length = cs.length := by
  induction cs generalizing v with
  | nil => rfl
  | cons c cs ih => simp [cbcDec, ih]

theorem length_pcbcEnc (e : Block → Block) (v : Block) (ps : List Block) : (pcbcEnc e v ps).length = ps.length := by
  induction ps generalizing v with
  | nil => rfl
  | cons p ps ih => simp [pcbcEnc, ih]

theorem length_pcbcDec (d : Block → Block) (v : Block) (cs : List Block) : (pcbcDec d v cs).length = cs.length := by
  induction cs generalizing v with
  | nil => rfl
  | cons c cs ih => simp [pcbcDec, ih]

theorem length_ctrMask (e : Block → Block) (i : Nat) (ps : List Block) : (ctrMask e i ps).length = ps.length := by
  induction ps generalizing i with
  | nil => rfl
  | cons p ps ih => simp [ctrMask, ih]

theorem length_encChain (e : Block → Block) (iv : Block) (mode : Mode) (ps : List Block) :
    (encChain e iv mode ps).length = ps.length := by
  cases mode
  · simp [encChain]
  · exact length_cbcEnc ..
  · exact length_pcbcEnc ..
  · exact length_ctrMask ..

theorem length_decChain (e d : Block → Block) (iv : Block) (mode : Mode) (cs : List Block) :
    (decChain e d iv mode cs).length = cs.length := by
  cases mode
  · simp [decChain]
  · exact length_cbcDec ..
  · exact length_pcbcDec ..
  · exact length_ctrMask ..

/-- A decrypting chain undoes the encrypting chain of its mode, when `d` undoes `e`. -/
theorem decChain_encChain {e d : Block → Block} (h : ∀ x, d (e x) = x) (iv : Block) (mode : Mode) (ps : List Block) :
    decChain e d iv mode (encChain e iv mode ps) = ps := by
  cases mode with
  | ecb => simp [decChain, encChain, Function.comp_def, h]
  | cbc =>
    change cbcDec d iv (cbcEnc e iv ps) = ps
    induction ps generalizing iv with
    | nil => rfl
    | cons p ps ih => simp [cbcEnc, cbcDec, h, ih]
  | pcbc =>
    change pcbcDec d iv (pcbcEnc e iv ps) = ps
    induction ps generalizing iv with
    | nil => rfl
    | cons p ps ih => simp [pcbcEnc, pcbcDec, h, ih]
  | ctr =>
    change ctrMask e 0 (ctrMask e 0 ps) = ps
    generalize 0 = i
    induction ps generalizing i with
    | nil => rfl
    | cons p ps ih => simp [ctrMask, ih]

/-! ## Blocks and bytes (R230) -/

theorem length_blocksOf (msg : List Byte) : (blocksOf msg).length = (msg.length + 7) / 8 := by
  simp [blocksOf, ceilDiv8]

theorem length_bytesOf (bs : List Block) : (bytesOf bs).length = 8 * bs.length := by
  induction bs with
  | nil => rfl
  | cons b bs ih =>
    rw [bytesOf, List.flatMap_cons, List.length_append, length_leBytes, List.length_cons]
    have : (List.flatMap (fun b : Block => leBytes 8 b.toNat) bs).length = 8 * bs.length := ih
    omega

/-- Eight bytes as a block and back. -/
theorem leBytes_block {b : List Byte} (h : b.length = 8) : leBytes 8 (BitVec.ofNat 64 (leInt b)).toNat = b := by
  have hlt := leInt_lt b
  rw [h] at hlt
  rw [BitVec.toNat_ofNat, Nat.mod_eq_of_lt (by simpa using hlt)]
  conv_rhs => rw [← leBytes_leInt b, h]

theorem flatMap_pieces_leBytes (count : Nat) (m : List Byte) (h : m.length = 8 * count) :
    bytesOf ((pieces 8 count m).map fun b => BitVec.ofNat 64 (leInt b)) = m := by
  induction count generalizing m with
  | zero =>
    obtain rfl : m = [] := List.eq_nil_of_length_eq_zero (by omega)
    rfl
  | succ n ih =>
    have hd : (m.drop 8).length = 8 * n := by rw [List.length_drop]; omega
    have ht : (m.take 8).length = 8 := by rw [List.length_take]; omega
    rw [pieces, List.map_cons, bytesOf, List.flatMap_cons, leBytes_block ht]
    have := ih _ hd
    rw [bytesOf] at this
    rw [this, List.take_append_drop]

/-- The blocks of a message, written back as bytes, are the message followed by its zero padding. -/
theorem bytesOf_blocksOf (msg : List Byte) :
    bytesOf (blocksOf msg) = msg ++ List.replicate (8 * ((msg.length + 7) / 8) - msg.length) 0 := by
  unfold blocksOf ceilDiv8
  exact flatMap_pieces_leBytes _ _ (by rw [List.length_append, List.length_replicate]; omega)

/-- Blocks written as bytes are read back as the same blocks. -/
theorem blocksOf_bytesOf (bs : List Block) : blocksOf (bytesOf bs) = bs := by
  have hlen := length_bytesOf bs
  have hn : (8 * bs.length + 7) / 8 = bs.length := by omega
  unfold blocksOf ceilDiv8
  simp only [hlen, hn, Nat.sub_self, List.replicate_zero, List.append_nil]
  clear hlen hn
  induction bs with
  | nil => rfl
  | cons b bs ih =>
    rw [List.length_cons, pieces, bytesOf, List.flatMap_cons]
    have ht : (leBytes 8 b.toNat ++ List.flatMap (fun b : Block => leBytes 8 b.toNat) bs).take 8 = leBytes 8 b.toNat := by
      rw [List.take_append_of_le_length (by simp), List.take_of_length_le (by simp)]
    have hd : (leBytes 8 b.toNat ++ List.flatMap (fun b : Block => leBytes 8 b.toNat) bs).drop 8 = bytesOf bs := by
      rw [List.drop_append_of_le_length (by simp), List.drop_of_length_le (by simp)]
      rfl
    rw [ht, hd, List.map_cons, ih, leInt_leBytes]
    congr 1
    apply BitVec.eq_of_toNat_eq
    rw [BitVec.toNat_ofNat]
    have := b.isLt
    omega

end Sys2Proof.Machine
end

