-- ==== Sys2Proof/Laws/Decode.lean ====
section
/-!
SUPPORT. The laws of the command word: the fields of an assembled word, and a word as the assembly of its fields.
-/

namespace Sys2Proof

theorem opOf_toNat (w : Word) : (opOf w).toNat = w.toNat / 2 ^ 24 % 2 ^ 8 := by
  simp [opOf, BitVec.extractLsb'_toNat, Nat.shiftRight_eq_div_pow]

theorem f1Of_toNat (w : Word) : (f1Of w).toNat = w.toNat / 2 ^ 20 % 2 ^ 4 := by
  simp [f1Of, BitVec.extractLsb'_toNat, Nat.shiftRight_eq_div_pow]

theorem f2Of_toNat (w : Word) : (f2Of w).toNat = w.toNat / 2 ^ 16 % 2 ^ 4 := by
  simp [f2Of, BitVec.extractLsb'_toNat, Nat.shiftRight_eq_div_pow]

theorem f3Of_toNat (w : Word) : (f3Of w).toNat = w.toNat / 2 ^ 12 % 2 ^ 4 := by
  simp [f3Of, BitVec.extractLsb'_toNat, Nat.shiftRight_eq_div_pow]

theorem f4Of_toNat (w : Word) : (f4Of w).toNat = w.toNat / 2 ^ 8 % 2 ^ 4 := by
  simp [f4Of, BitVec.extractLsb'_toNat, Nat.shiftRight_eq_div_pow]

theorem imm8Of_toNat (w : Word) : (imm8Of w).toNat = w.toNat % 2 ^ 8 := by
  simp [imm8Of, BitVec.extractLsb'_toNat]

/-- The bounds within which `assemble` keeps its fields apart. -/
structure FieldsFit (op f1 f2 f3 f4 imm : Nat) : Prop where
  op : op < 256
  f1 : f1 < 16
  f2 : f2 < 16
  f3 : f3 < 16
  f4 : f4 < 16
  imm : imm < 256

variable {op f1 f2 f3 f4 imm : Nat}

theorem assemble_toNat (h : FieldsFit op f1 f2 f3 f4 imm) :
    (assemble op f1 f2 f3 f4 imm).toNat
      = op * 2 ^ 24 + f1 * 2 ^ 20 + f2 * 2 ^ 16 + f3 * 2 ^ 12 + f4 * 2 ^ 8 + imm := by
  obtain ⟨ho, h1, h2, h3, h4, hi⟩ := h
  rw [assemble, BitVec.toNat_ofNat, Nat.mod_eq_of_lt]
  omega

theorem opOf_assemble (h : FieldsFit op f1 f2 f3 f4 imm) : (opOf (assemble op f1 f2 f3 f4 imm)).toNat = op := by
  rw [opOf_toNat, assemble_toNat h]
  obtain ⟨ho, h1, h2, h3, h4, hi⟩ := h
  omega

theorem f1Of_assemble (h : FieldsFit op f1 f2 f3 f4 imm) : (f1Of (assemble op f1 f2 f3 f4 imm)).toNat = f1 := by
  rw [f1Of_toNat, assemble_toNat h]
  obtain ⟨ho, h1, h2, h3, h4, hi⟩ := h
  omega

theorem f2Of_assemble (h : FieldsFit op f1 f2 f3 f4 imm) : (f2Of (assemble op f1 f2 f3 f4 imm)).toNat = f2 := by
  rw [f2Of_toNat, assemble_toNat h]
  obtain ⟨ho, h1, h2, h3, h4, hi⟩ := h
  omega

theorem f3Of_assemble (h : FieldsFit op f1 f2 f3 f4 imm) : (f3Of (assemble op f1 f2 f3 f4 imm)).toNat = f3 := by
  rw [f3Of_toNat, assemble_toNat h]
  obtain ⟨ho, h1, h2, h3, h4, hi⟩ := h
  omega

theorem f4Of_assemble (h : FieldsFit op f1 f2 f3 f4 imm) : (f4Of (assemble op f1 f2 f3 f4 imm)).toNat = f4 := by
  rw [f4Of_toNat, assemble_toNat h]
  obtain ⟨ho, h1, h2, h3, h4, hi⟩ := h
  omega

theorem imm8Of_assemble (h : FieldsFit op f1 f2 f3 f4 imm) :
    (imm8Of (assemble op f1 f2 f3 f4 imm)).toNat = imm := by
  rw [imm8Of_toNat, assemble_toNat h]
  obtain ⟨ho, h1, h2, h3, h4, hi⟩ := h
  omega

/-- A word is the assembly of its six fields. -/
theorem assemble_fields (w : Word) :
    assemble (opOf w).toNat (f1Of w).toNat (f2Of w).toNat (f3Of w).toNat (f4Of w).toNat (imm8Of w).toNat = w := by
  apply BitVec.eq_of_toNat_eq
  rw [assemble_toNat ⟨(opOf w).isLt, (f1Of w).isLt, (f2Of w).isLt, (f3Of w).isLt, (f4Of w).isLt, (imm8Of w).isLt⟩,
    opOf_toNat, f1Of_toNat, f2Of_toNat, f3Of_toNat, f4Of_toNat, imm8Of_toNat]
  have := w.isLt
  omega

/-! ## The uses of a field -/

theorem zeroField_ok_iff (f : Field) (v : Nat) (u : Unit) : zeroField f v = .ok u ↔ v = 0 := by
  unfold zeroField
  split <;> simp_all

theorem scalField_ok_iff (f : Field) (v : BitVec 4) (k : ScalReg) : scalField f v = .ok k ↔ v.toNat = k.val := by
  unfold scalField
  split
  · rw [Except.ok.injEq, Fin.ext_iff]
  · have := k.isLt
    constructor
    · simp
    · omega

theorem bigField_val (v : BitVec 4) : (bigField v).val = v.toNat := rfl

theorem bigField13_ok_iff (v : BitVec 4) (k : BigReg) : bigField13 v = .ok k ↔ v.toNat = k.val ∧ k.val ≤ 13 := by
  unfold bigField13
  split
  · rw [Except.ok.injEq, Fin.ext_iff, bigField_val]
    omega
  · constructor
    · simp
    · omega

theorem boxField_ok_iff (v : Byte) (b : Box) : boxField v = .ok b ↔ v.toNat = b.imm := by
  have h : ∀ n : Nat, n < 256 → (v = BitVec.ofNat 8 n ↔ v.toNat = n) := fun n hn => by
    rw [← BitVec.toNat_inj, BitVec.toNat_ofNat, Nat.mod_eq_of_lt hn]
  unfold boxField
  rw [show (0 : Byte) = BitVec.ofNat 8 0 from rfl, show (1 : Byte) = BitVec.ofNat 8 1 from rfl]
  simp only [h 0 (by decide), h 1 (by decide)]
  split
  · cases b <;> simp_all [Box.imm]
  · split <;> cases b <;> simp_all [Box.imm]

theorem modeField_ok_iff (v : Byte) (m : Mode) : modeField v = .ok m ↔ v.toNat = m.imm := by
  have h : ∀ n : Nat, n < 256 → (v = BitVec.ofNat 8 n ↔ v.toNat = n) := fun n hn => by
    rw [← BitVec.toNat_inj, BitVec.toNat_ofNat, Nat.mod_eq_of_lt hn]
  unfold modeField
  rw [show (0 : Byte) = BitVec.ofNat 8 0 from rfl, show (1 : Byte) = BitVec.ofNat 8 1 from rfl,
    show (2 : Byte) = BitVec.ofNat 8 2 from rfl, show (3 : Byte) = BitVec.ofNat 8 3 from rfl]
  simp only [h 0 (by decide), h 1 (by decide), h 2 (by decide), h 3 (by decide)]
  split
  · cases m <;> simp_all [Mode.imm]
  · split
    · cases m <;> simp_all [Mode.imm]
    · split
      · cases m <;> simp_all [Mode.imm]
      · split <;> cases m <;> simp_all [Mode.imm]

end Sys2Proof
end

