-- ==== Sys2Proof/Laws/Field.lean ====
section
/-!
SUPPORT. The field functions of the cipher (44_block_cipher.md R209) as arithmetic of polynomials over GF(2): what a
number stands for, what `gf16_mul` and the power loop of `gf16_inv` compute modulo the polynomial, and that the check of
`GF16_POLY` finds every reducible polynomial of degree 16.
-/

namespace Sys2Proof.Machine

open Polynomial
open Sys2Proof.Config (gf2Mod gf2Irreducible)

/-! ## Numbers as polynomials -/

/-- The polynomial whose coefficient of `x^k` is bit `k` of a number (44_block_cipher.md R209). -/
noncomputable def polyOf (n : Nat) : (ZMod 2)[X] := ∑ k ∈ Finset.range n, if n.testBit k then X ^ k else 0

theorem lt_of_testBit {n k : Nat} (h : n.testBit k = true) : k < n :=
  lt_of_lt_of_le Nat.lt_two_pow_self (Nat.ge_two_pow_of_testBit h)

theorem coeff_polyOf (n k : Nat) : (polyOf n).coeff k = if n.testBit k then 1 else 0 := by
  rw [polyOf, finsetSum_coeff]
  by_cases hk : n.testBit k = true
  · rw [Finset.sum_eq_single k]
    · simp [hk]
    · intro j _ hj
      split <;> simp [coeff_X_pow, hj.symm]
    · intro h
      exact absurd (Finset.mem_range.mpr (lt_of_testBit hk)) h
  · rw [if_neg hk]
    apply Finset.sum_eq_zero
    intro j _
    by_cases hj : j = k
    · subst hj; simp [hk]
    · split <;> simp [coeff_X_pow, Ne.symm hj]

theorem polyOf_zero : polyOf 0 = 0 := by simp [polyOf]

theorem polyOf_one : polyOf 1 = 1 := by simp [polyOf]

theorem polyOf_xor (a b : Nat) : polyOf (a ^^^ b) = polyOf a + polyOf b := by
  ext k
  simp only [coeff_add, coeff_polyOf, Nat.testBit_xor]
  cases a.testBit k <;> cases b.testBit k <;> decide

theorem polyOf_shiftLeft (a d : Nat) : polyOf (a <<< d) = X ^ d * polyOf a := by
  ext k
  simp only [coeff_X_pow_mul', coeff_polyOf, Nat.testBit_shiftLeft]
  by_cases h : d ≤ k <;> simp [h]

theorem polyOf_double (a : Nat) : polyOf (2 * a) = X * polyOf a := by
  have := polyOf_shiftLeft a 1
  rwa [Nat.shiftLeft_eq, pow_one, pow_one, Nat.mul_comm] at this

theorem polyOf_injective {a b : Nat} (h : polyOf a = polyOf b) : a = b := by
  apply Nat.eq_of_testBit_eq
  intro k
  have := congrArg (fun p => p.coeff k) h
  simp only [coeff_polyOf] at this
  cases ha : a.testBit k <;> cases hb : b.testBit k <;> simp_all

theorem polyOf_natDegree_lt {a n : Nat} (hn : 0 < n) (h : a < 2 ^ n) : (polyOf a).natDegree < n := by
  apply lt_of_le_of_lt (natDegree_le_iff_coeff_eq_zero (n := n - 1) |>.mpr fun k hk => ?_) (Nat.sub_lt hn Nat.one_pos)
  rw [coeff_polyOf, Nat.testBit_lt_two_pow (lt_of_lt_of_le h (Nat.pow_le_pow_right (by decide) (by omega)))]
  rfl

theorem polyOf_natDegree {a : Nat} (h : a ≠ 0) : (polyOf a).natDegree = a.log2 := by
  apply le_antisymm
  · exact Nat.le_of_lt_succ (polyOf_natDegree_lt (Nat.succ_pos _) Nat.lt_log2_self)
  · apply le_natDegree_of_ne_zero
    rw [coeff_polyOf, Nat.testBit_log2 h]
    decide

/-- Every polynomial of degree below `n` is that of a number below `2^n`. -/
theorem exists_polyOf {g : (ZMod 2)[X]} {n : Nat} (h : g.natDegree < n) : ∃ m < 2 ^ n, polyOf m = g := by
  refine ⟨Nat.ofBits fun i : Fin n => decide (g.coeff i ≠ 0), Nat.ofBits_lt_two_pow _, ?_⟩
  ext k
  rw [coeff_polyOf]
  by_cases hk : k < n
  · rw [Nat.testBit_ofBits_lt _ _ hk]
    have : ∀ x : ZMod 2, (if decide (x ≠ 0) = true then (1 : ZMod 2) else 0) = x := by decide
    exact this _
  · rw [Nat.testBit_lt_two_pow (lt_of_lt_of_le (Nat.ofBits_lt_two_pow _) (Nat.pow_le_pow_right (by decide) (by omega))),
      coeff_eq_zero_of_natDegree_lt (by omega)]
    rfl

/-! ## The check of `GF16_POLY` -/

/-- A number that is not 0 stands for a polynomial that is not 0. -/
theorem polyOf_ne_zero {a : Nat} (h : a ≠ 0) : polyOf a ≠ 0 := fun h0 => h (polyOf_injective (h0.trans polyOf_zero.symm))

theorem xor_shift_lt {a d : Nat} (ha : a ≠ 0) (hd : d ≠ 0) (h : d.log2 ≤ a.log2) :
    a ^^^ (d <<< (a.log2 - d.log2)) < 2 ^ a.log2 := by
  apply Nat.lt_pow_two_of_testBit
  intro k hk
  rw [Nat.testBit_xor, Nat.testBit_shiftLeft]
  rcases Nat.eq_or_lt_of_le hk with rfl | hlt
  · have : a.log2 - (a.log2 - d.log2) = d.log2 := by omega
    simp [this, Nat.testBit_log2 ha, Nat.testBit_log2 hd]
  · rw [Nat.testBit_lt_two_pow (lt_of_lt_of_le Nat.lt_log2_self (Nat.pow_le_pow_right (by decide) hlt)),
      Nat.testBit_lt_two_pow (x := d) (lt_of_lt_of_le Nat.lt_log2_self (Nat.pow_le_pow_right (by decide) (by omega)))]
    simp

/-- A multiple of `d` leaves the remainder 0. -/
theorem gf2Mod_eq_zero {fuel a d : Nat} (hd : d ≠ 0) (hfuel : a < 2 ^ fuel) (h : polyOf d ∣ polyOf a) :
    gf2Mod fuel a d = 0 := by
  induction fuel generalizing a with
  | zero => rw [gf2Mod]; simpa using hfuel
  | succ fuel ih =>
    rw [gf2Mod]
    split
    · rename_i hc
      by_contra ha
      have hlt := hc.resolve_left ha
      have := natDegree_le_of_dvd h (polyOf_ne_zero ha)
      rw [polyOf_natDegree ha, polyOf_natDegree hd] at this
      omega
    · rename_i hc
      rw [not_or, not_lt] at hc
      apply ih
      · refine lt_of_lt_of_le (xor_shift_lt hc.1 hd hc.2) (Nat.pow_le_pow_right (by decide) ?_)
        exact Nat.le_of_lt_succ ((Nat.log2_lt hc.1).mpr hfuel)
      · rw [polyOf_xor, polyOf_shiftLeft]
        exact dvd_add h (Dvd.intro_left _ rfl)

theorem polyOf_natDegree_poly {p : BitVec 17} (hp : p.getLsbD 16 = true) : (polyOf p.toNat).natDegree = 16 := by
  apply le_antisymm
  · exact Nat.le_of_lt_succ (polyOf_natDegree_lt (by decide) p.isLt)
  · apply le_natDegree_of_ne_zero
    rw [coeff_polyOf, BitVec.testBit_toNat, hp]
    decide

theorem polyOf_monic {p : BitVec 17} (hp : p.getLsbD 16 = true) : (polyOf p.toNat).Monic := by
  rw [Monic, leadingCoeff, polyOf_natDegree_poly hp, coeff_polyOf, BitVec.testBit_toNat, hp]
  rfl

/-- A polynomial of degree 16 that passes the check is irreducible (00_scope.md R9). -/
theorem polyOf_irreducible {p : BitVec 17} (hp : p.getLsbD 16 = true) (h : gf2Irreducible p = true) :
    Irreducible (polyOf p.toNat) := by
  rw [(polyOf_monic hp).irreducible_iff_natDegree']
  refine ⟨fun h1 => ?_, fun f g _ _ hfg hmem => ?_⟩
  · have := polyOf_natDegree_poly hp
    rw [h1, natDegree_one] at this
    omega
  · rw [polyOf_natDegree_poly hp, Finset.mem_Ioc] at hmem
    obtain ⟨m, hm, rfl⟩ := exists_polyOf (g := g) (n := 9) (by omega)
    have hm2 : 2 ≤ m := by
      by_contra hlt
      have := polyOf_natDegree_lt (a := m) (n := 1) (by decide) (by omega)
      omega
    rw [gf2Irreducible, List.all_eq_true] at h
    have := h (m - 2) (List.mem_range.mpr (by omega))
    rw [Nat.sub_add_cancel hm2] at this
    rw [gf2Mod_eq_zero (by omega) p.isLt (Dvd.intro_left f hfg)] at this
    simp at this

/-! ## The field -/

/-- The class of a number's polynomial modulo the polynomial `p`. -/
noncomputable def gfOf (p : BitVec 17) (n : Nat) : AdjoinRoot (polyOf p.toNat) := AdjoinRoot.mk _ (polyOf n)

theorem gfOf_zero (p : BitVec 17) : gfOf p 0 = 0 := by rw [gfOf, polyOf_zero, map_zero]

theorem gfOf_one (p : BitVec 17) : gfOf p 1 = 1 := by rw [gfOf, polyOf_one, map_one]

theorem gfOf_xor (p : BitVec 17) (a b : Nat) : gfOf p (a ^^^ b) = gfOf p a + gfOf p b := by
  rw [gfOf, polyOf_xor, map_add]; rfl

/-- Numbers below `2^16` stand for different elements. -/
theorem gfOf_injective {p : BitVec 17} (hp : p.getLsbD 16 = true) {a b : Nat} (ha : a < 2 ^ 16) (hb : b < 2 ^ 16)
    (h : gfOf p a = gfOf p b) : a = b := by
  by_contra hne
  have hx : a ^^^ b ≠ 0 := fun h0 => hne (Nat.xor_eq_zero_iff.mp h0)
  have h0 : gfOf p (a ^^^ b) = 0 := by
    rw [gfOf_xor, h, ← gfOf_xor, Nat.xor_self, gfOf_zero]
  have hdeg := natDegree_le_of_dvd (AdjoinRoot.mk_eq_zero.mp h0) (polyOf_ne_zero hx)
  have := polyOf_natDegree_lt (n := 16) (by decide) (Nat.xor_lt_two_pow ha hb)
  rw [polyOf_natDegree_poly hp] at hdeg
  omega

theorem toNat_gf16Double {p a : BitVec 17} (ha : a.toNat < 2 ^ 16) :
    (gf16Double p a).toNat = if 2 ^ 16 ≤ 2 * a.toNat then (2 * a.toNat) ^^^ p.toNat else 2 * a.toNat := by
  have h2 : (a <<< 1).toNat = 2 * a.toNat := by
    rw [BitVec.toNat_shiftLeft, Nat.shiftLeft_eq, Nat.mod_eq_of_lt (by omega)]; omega
  have hb : (a <<< 1).getLsbD 16 = decide (2 ^ 16 ≤ 2 * a.toNat) := by
    rw [← BitVec.testBit_toNat, h2, Nat.testBit_eq_decide_div_mod_eq]
    congr 1
    apply propext
    omega
  rw [gf16Double, hb]
  by_cases h : 2 ^ 16 ≤ 2 * a.toNat
  · rw [decide_eq_true h, if_pos rfl, if_pos h, BitVec.toNat_xor, h2]
  · rw [decide_eq_false h, if_neg h, if_neg (by decide), h2]

theorem gf16Double_lt {p a : BitVec 17} (hp : p.getLsbD 16 = true) (ha : a.toNat < 2 ^ 16) :
    (gf16Double p a).toNat < 2 ^ 16 := by
  rw [toNat_gf16Double ha]
  split
  · rename_i h
    apply Nat.lt_pow_two_of_testBit
    intro k hk
    rw [Nat.testBit_xor]
    rcases Nat.eq_or_lt_of_le hk with rfl | hlt
    · have : (2 * a.toNat).testBit 16 = true := by
        rw [Nat.testBit_eq_decide_div_mod_eq, decide_eq_true_eq]; omega
      rw [this, BitVec.testBit_toNat, hp]
      rfl
    · have hpow : 2 ^ 17 ≤ 2 ^ k := Nat.pow_le_pow_right (by decide) hlt
      rw [Nat.testBit_lt_two_pow (by omega), Nat.testBit_lt_two_pow (lt_of_lt_of_le p.isLt hpow)]
      rfl
  · omega

theorem gfOf_gf16Double {p a : BitVec 17} (ha : a.toNat < 2 ^ 16) :
    gfOf p (gf16Double p a).toNat = AdjoinRoot.root _ * gfOf p a.toNat := by
  have key : gfOf p (2 * a.toNat) = AdjoinRoot.root _ * gfOf p a.toNat := by
    rw [gfOf, polyOf_double, map_mul, AdjoinRoot.mk_X]; rfl
  rw [toNat_gf16Double ha]
  split
  · rw [gfOf_xor, key, show gfOf p p.toNat = 0 from AdjoinRoot.mk_self, add_zero]
  · exact key

theorem xor_one_of_even (n : Nat) : (2 * n) ^^^ 1 = 2 * n + 1 := by
  apply Nat.eq_of_testBit_eq
  intro k
  cases k with
  | zero => simp
  | succ k => simp [Nat.testBit_succ, show (2 * n + 1) / 2 = n by omega]

/-- A number as its half and its lowest bit. -/
theorem gfOf_half_split (p : BitVec 17) (b : Half) :
    gfOf p b.toNat = AdjoinRoot.root _ * gfOf p (b >>> 1).toNat + gfOf p (b.toNat % 2) := by
  have hsplit : b.toNat = (2 * (b >>> 1).toNat) ^^^ (b.toNat % 2) := by
    rw [BitVec.toNat_ushiftRight, Nat.shiftRight_eq_div_pow, pow_one]
    rcases Nat.mod_two_eq_zero_or_one b.toNat with h | h
    · rw [h, Nat.xor_zero]; omega
    · rw [h, xor_one_of_even]; omega
  conv_lhs => rw [hsplit]
  rw [gfOf_xor, gfOf, polyOf_double, map_mul, AdjoinRoot.mk_X]
  rfl

/-- What the loop of `gf16_mul` computes. -/
theorem gf16MulLoop_spec {p : BitVec 17} (hp : p.getLsbD 16 = true) (count : Nat) (r a : BitVec 17) (b : Half)
    (hr : r.toNat < 2 ^ 16) (ha : a.toNat < 2 ^ 16) (hb : b.toNat < 2 ^ count) :
    (gf16MulLoop p count r a b).toNat < 2 ^ 16 ∧
      gfOf p (gf16MulLoop p count r a b).toNat = gfOf p r.toNat + gfOf p a.toNat * gfOf p b.toNat := by
  induction count generalizing r a b with
  | zero =>
    have h0 : b.toNat = 0 := by omega
    rw [gf16MulLoop, h0, gfOf_zero, mul_zero, add_zero]
    exact ⟨hr, rfl⟩
  | succ count ih =>
    have hbit : b.getLsbD 0 = decide (b.toNat % 2 = 1) := by
      rw [← BitVec.testBit_toNat, Nat.testBit_zero]
    have hs : (b >>> 1).toNat < 2 ^ count := by
      rw [BitVec.toNat_ushiftRight, Nat.shiftRight_eq_div_pow, pow_one]
      rw [pow_succ] at hb
      omega
    have hr' : (if b.getLsbD 0 = true then r ^^^ a else r).toNat < 2 ^ 16 := by
      split
      · rw [BitVec.toNat_xor]; exact Nat.xor_lt_two_pow hr ha
      · exact hr
    have := ih _ _ _ hr' (gf16Double_lt hp ha) hs
    rw [gf16MulLoop]
    refine ⟨this.1, this.2.trans ?_⟩
    rw [gfOf_gf16Double ha, gfOf_half_split p b, hbit]
    rcases Nat.mod_two_eq_zero_or_one b.toNat with h | h
    · simp only [h, gfOf_zero]
      simp
      ring
    · simp only [h, gfOf_one, BitVec.toNat_xor, decide_true, if_true, gfOf_xor]
      ring

/-- `gf16_mul` is the product modulo the polynomial (R209). -/
theorem gfOf_gf16Mul {p : BitVec 17} (hp : p.getLsbD 16 = true) (a b : Half) :
    gfOf p (gf16Mul p a b).toNat = gfOf p a.toNat * gfOf p b.toNat := by
  have hw : (a.setWidth 17).toNat = a.toNat := by
    rw [BitVec.toNat_setWidth, Nat.mod_eq_of_lt (by have := a.isLt; omega)]
  have h := gf16MulLoop_spec hp 16 0 (a.setWidth 17) b (by decide) (by rw [hw]; exact a.isLt) b.isLt
  rw [gf16Mul, BitVec.toNat_setWidth, Nat.mod_eq_of_lt h.1, h.2, hw]
  simp [gfOf_zero]

/-- What the power loop of `gf16_inv` computes. -/
theorem gfOf_gf16PowLoop {p : BitVec 17} (hp : p.getLsbD 16 = true) (count : Nat) (result base : Half) (e : Nat)
    (he : e < 2 ^ count) :
    gfOf p (gf16PowLoop p count result base e).toNat = gfOf p result.toNat * gfOf p base.toNat ^ e := by
  induction count generalizing result base e with
  | zero =>
    have h0 : e = 0 := by omega
    rw [gf16PowLoop, h0, pow_zero, mul_one]
  | succ count ih =>
    rw [pow_succ] at he
    rw [gf16PowLoop, ih _ _ _ (by omega), gfOf_gf16Mul hp, ← pow_two, ← pow_mul]
    conv_rhs => rw [← Nat.div_add_mod e 2, pow_add]
    rcases Nat.mod_two_eq_zero_or_one e with h | h
    · simp [h]
    · rw [h, if_pos rfl, gfOf_gf16Mul hp]; ring


/-- `gf16_inv` is the power `2^16 - 2` (R209). -/
theorem gfOf_gf16Inv {p : BitVec 17} (hp : p.getLsbD 16 = true) {a : Half} (ha : a ≠ 0) :
    gfOf p (gf16Inv p a).toNat = gfOf p a.toNat ^ (2 ^ 16 - 2) := by
  rw [gf16Inv, if_neg ha, gfOf_gf16PowLoop hp _ _ _ _ (by decide)]
  rw [show (1 : Half).toNat = 1 from rfl, gfOf_one, one_mul]

/-- Modulo a polynomial that passes the check the power `2^16 - 1` of every class but 0 is 1. -/
theorem gfOf_pow {p : BitVec 17} (hp : p.getLsbD 16 = true) (h : gf2Irreducible p = true)
    {x : AdjoinRoot (polyOf p.toNat)} (hx : x ≠ 0) : x ^ (2 ^ 16 - 1) = 1 := by
  have : Fact (Irreducible (polyOf p.toNat)) := ⟨polyOf_irreducible hp h⟩
  have hne := (polyOf_irreducible hp h).ne_zero
  have : Module.Finite (ZMod 2) (AdjoinRoot (polyOf p.toNat)) := (AdjoinRoot.powerBasis hne).finite
  have : Finite (AdjoinRoot (polyOf p.toNat)) := Module.finite_of_finite (ZMod 2)
  let _ := Fintype.ofFinite (AdjoinRoot (polyOf p.toNat))
  have hcard : Fintype.card (AdjoinRoot (polyOf p.toNat)) = 2 ^ 16 := by
    rw [← Nat.card_eq_fintype_card, Module.natCard_eq_pow_finrank (K := ZMod 2), (AdjoinRoot.powerBasis hne).finrank,
      AdjoinRoot.powerBasis_dim, polyOf_natDegree_poly hp, Nat.card_zmod]
  have := FiniteField.pow_card_sub_one_eq_one x hx
  rwa [hcard] at this

end Sys2Proof.Machine
end

