-- ==== Sys2Proof/Laws/Frame.lean ====
section
/-!
SUPPORT. The frames of the shared operations: a completion after one write stays inside the footprint of that write.
-/

namespace Sys2Proof.Machine

/-- A completion that writes nothing. -/
theorem State.completesIn_finish (s : State) : s.CompletesIn s.finish {} := by
  constructor <;> intros <;> first | rfl | exact ⟨rfl, rfl⟩ | exact ⟨rfl, rfl, rfl⟩

/-- A completion that writes one big register. -/
theorem State.completesIn_setBig (s : State) (k : BigReg) (v : Nat) :
    s.CompletesIn (s.setBig k v).finish { big := [k] } := by
  constructor
  case big => intro j hj; exact State.big_setBig_ne s v (by simpa using hj)
  all_goals intros; first | rfl | exact ⟨rfl, rfl⟩ | exact ⟨rfl, rfl, rfl⟩

/-- A completion that stores bytes to DM. -/
theorem State.completesIn_store (s : State) (a : Nat) (bs : List Byte) :
    s.CompletesIn (s.store a bs).finish { dmAddr := a, dmLen := bs.length } := by
  constructor
  case dm =>
    intro x hx
    exact Memory.read_writeBytes_outside s.dm bs (by simp only at hx; omega)
  all_goals intros; first | rfl | exact ⟨rfl, rfl⟩ | exact ⟨rfl, rfl, rfl⟩

/-- A footprint may be named by equal addresses and lengths. -/
theorem State.completesIn_congr {s t : State} {f f' : Footprint} (h : s.CompletesIn t f) (hf : f = f') :
    s.CompletesIn t f' := hf ▸ h

end Sys2Proof.Machine
end

