-- ==== Sys2Proof/Laws/Keystream.lean ====
section
/-!
SUPPORT. The laws of the keystream unit (42_keystream.md R161, R162, R165, R166): a swap inside the part in use keeps a
permutation and leaves the rest alone; hence key scheduling makes an initialised unit and an output step keeps one.
-/

namespace Sys2Proof.Machine

/-! ## Swaps -/

/-- Entry `k` after a swap is the entry that the transposition of the indices names. -/
theorem Table.get_swap (t : Table) (i j : Byte) (k : Fin 256) :
    (Table.swap t i j).get k = t.get (Equiv.swap i.toFin j.toFin k) := by
  unfold Table.swap Table.at
  rw [vector_get_set, vector_get_set, Equiv.swap_apply_def]
  by_cases hj : k = j.toFin
  · subst hj
    by_cases hi : j.toFin = i.toFin
    · simp [hi]
    · simp [hi]
  · by_cases hi : k = i.toFin
    · subst hi
      simp [Ne.symm hj]
    · simp [hi, hj, Ne.symm hi, Ne.symm hj]

/-- A transposition of two indices in use keeps the indices in use. -/
theorem swap_val_lt {n : Nat} {i j k : Fin 256} (hi : i.val < n) (hj : j.val < n) (hk : k.val < n) :
    (Equiv.swap i j k).val < n := by
  rw [Equiv.swap_apply_def]
  split
  · exact hj
  · split
    · exact hi
    · exact hk

/-- A swap of two entries in use keeps a permutation. -/
theorem Table.isPerm_swap {t : Table} {n : Nat} {i j : Byte} (h : Table.IsPerm t n) (hi : i.toNat < n)
    (hj : j.toNat < n) : Table.IsPerm (Table.swap t i j) n := by
  refine ⟨fun k hk => ?_, fun k hk l hl hkl => ?_⟩
  · rw [Table.get_swap]
    exact h.1 _ (swap_val_lt hi hj hk)
  · rw [Table.get_swap, Table.get_swap] at hkl
    exact (Equiv.swap _ _).injective (h.2 _ (swap_val_lt hi hj hk) _ (swap_val_lt hi hj hl) hkl)

/-- A swap of two entries in use leaves the entries from `n` on alone. -/
theorem Table.get_swap_top {t : Table} {n : Nat} {i j : Byte} (hi : i.toNat < n) (hj : j.toNat < n) {k : Fin 256}
    (hk : n ≤ k.val) : (Table.swap t i j).get k = t.get k := by
  have h1 : k ≠ j.toFin := fun h => by
    have : k.val = j.toNat := congrArg Fin.val h
    omega
  have h2 : k ≠ i.toFin := fun h => by
    have : k.val = i.toNat := congrArg Fin.val h
    omega
  rw [Table.get_swap, Equiv.swap_apply_of_ne_of_ne h2 h1]

/-! ## Key scheduling (R161) -/

theorem get_identityTable (n : Nat) (k : Fin 256) :
    (identityTable n).get k = if k.val < n then BitVec.ofNat 8 k.val else 0 := by
  simp [identityTable, Vector.get_eq_getElem]

theorem identityTable_isPerm (n : Nat) : Table.IsPerm (identityTable n) n := by
  have hval : ∀ i : Fin 256, i.val < n → ((identityTable n).get i).toNat = i.val := fun i hi => by
    rw [get_identityTable, if_pos hi, BitVec.toNat_ofNat, Nat.mod_eq_of_lt i.isLt]
  refine ⟨fun i hi => ?_, fun i hi j hj hij => ?_⟩
  · rw [hval i hi]
    exact hi
  · have := congrArg BitVec.toNat hij
    rw [hval i hi, hval j hj] at this
    exact Fin.ext this

theorem ofNat_mod_lt {n v : Nat} (hn : 0 < n) (h : n ≤ 256) : (BitVec.ofNat 8 (v % n)).toNat < n := by
  have := Nat.mod_lt v hn
  rw [BitVec.toNat_ofNat, Nat.mod_eq_of_lt (by omega)]
  exact this

/-- The swap loop keeps a permutation of the first `n` entries and leaves the others alone. -/
theorem ksaLoop_spec (key : List Byte) {n : Nat} (hn : n ≤ 256) (count i : Nat) (j : Byte) (t : Table)
    (hi : i + count ≤ n) (h : Table.IsPerm t n) :
    Table.IsPerm (ksaLoop key n count i j t) n ∧
      ∀ k : Fin 256, n ≤ k.val → (ksaLoop key n count i j t).get k = t.get k := by
  induction count generalizing i j t with
  | zero => exact ⟨h, fun _ _ => rfl⟩
  | succ c ih =>
    have hI : (BitVec.ofNat 8 i).toNat < n := by
      rw [BitVec.toNat_ofNat, Nat.mod_eq_of_lt (by omega)]
      omega
    have hJ : (ksaIndex key n t i j).toNat < n := ofNat_mod_lt (by omega) hn
    obtain ⟨h1, h2⟩ := ih (i + 1) (ksaIndex key n t i j) _ (by omega) (Table.isPerm_swap h hI hJ)
    exact ⟨h1, fun k hk => by rw [ksaLoop, h2 k hk, Table.get_swap_top hI hJ hk]⟩

theorem ksInit_n {n : Nat} (key : List Byte) (h : n ≤ 256) : (ksInit key n).n.toNat = n := by
  simp only [ksInit, BitVec.toNat_ofNat]
  omega

/-- Key scheduling makes an initialised unit. -/
theorem ksInit_ok (key : List Byte) {n : Nat} (h1 : 1 ≤ n) (h : n ≤ 256) : (ksInit key n).Ok := by
  have hn := ksInit_n key h
  refine ⟨by omega, by omega, ?_, ?_, ?_⟩
  · rw [hn]
    exact (ksaLoop_spec key h n 0 0 _ (by omega) (identityTable_isPerm n)).1
  · rw [hn]
    exact h1
  · rw [hn]
    exact h1

/-- Entries at index `N` and above are 0 after key scheduling. -/
theorem ksInit_top (key : List Byte) {n : Nat} (h : n ≤ 256) (k : Fin 256) (hk : n ≤ k.val) :
    (ksInit key n).s.get k = 0 := by
  unfold ksInit
  rw [(ksaLoop_spec key h n 0 0 _ (by omega) (identityTable_isPerm n)).2 k hk, get_identityTable,
    if_neg (by omega)]

/-- Only the key bytes at indices below the count of turns matter. -/
theorem ksaLoop_congr {key key' : List Byte} {n : Nat} (count i : Nat) (j : Byte) (t : Table)
    (h : ∀ k, i ≤ k → k < i + count → key.getD (k % key.length) 0 = key'.getD (k % key'.length) 0) :
    ksaLoop key n count i j t = ksaLoop key' n count i j t := by
  induction count generalizing i j t with
  | zero => rfl
  | succ c ih =>
    have hk := h i (le_refl i) (by omega)
    have hidx : ksaIndex key n t i j = ksaIndex key' n t i j := by unfold ksaIndex; rw [hk]
    rw [ksaLoop, ksaLoop, hidx]
    exact ih _ _ _ fun k h1 h2 => h k (by omega) (by omega)

/-! ## Output steps (R162) -/

theorem Keystream.nextI_lt {u : Keystream} (h : u.Ok) : u.nextI.toNat < u.n.toNat := ofNat_mod_lt h.pos h.le

theorem Keystream.nextJ_lt {u : Keystream} (h : u.Ok) : u.nextJ.toNat < u.n.toNat := ofNat_mod_lt h.pos h.le

/-- An output step keeps an initialised unit. -/
theorem Keystream.advance_ok {u : Keystream} (h : u.Ok) : u.advance.Ok :=
  ⟨h.pos, h.le, Table.isPerm_swap h.perm (Keystream.nextI_lt h) (Keystream.nextJ_lt h), Keystream.nextI_lt h, Keystream.nextJ_lt h⟩

theorem Keystream.advance_n (u : Keystream) : u.advance.n = u.n := rfl

theorem Keystream.advance_top {u : Keystream} (h : u.Ok) {k : Fin 256} (hk : u.n.toNat ≤ k.val) :
    u.advance.s.get k = u.s.get k := Table.get_swap_top (Keystream.nextI_lt h) (Keystream.nextJ_lt h) hk

/-- The byte that an initialised unit gives lies below `KS.N`. -/
theorem Keystream.output_lt {u : Keystream} (h : u.Ok) : u.output.toNat < u.n.toNat :=
  h.perm.1 _ (ofNat_mod_lt h.pos h.le)

theorem Keystream.iterate_advance_ok {u : Keystream} (h : u.Ok) (k : Nat) : (Keystream.advance^[k] u).Ok := by
  induction k generalizing u with
  | zero => exact h
  | succ k ih => exact ih (Keystream.advance_ok h)

theorem Keystream.iterate_advance_n (u : Keystream) (k : Nat) : (Keystream.advance^[k] u).n = u.n := by
  induction k generalizing u with
  | zero => rfl
  | succ k ih => exact ih u.advance

theorem Keystream.iterate_advance_top {u : Keystream} (h : u.Ok) (k : Nat) {i : Fin 256} (hi : u.n.toNat ≤ i.val) :
    (Keystream.advance^[k] u).s.get i = u.s.get i := by
  induction k generalizing u with
  | zero => rfl
  | succ k ih => rw [Function.iterate_succ_apply, ih (Keystream.advance_ok h) hi, Keystream.advance_top h hi]

@[simp] theorem length_ksTake (n : Nat) (u : Keystream) : (ksTake n u).1.length = n := by
  induction n generalizing u with
  | zero => rfl
  | succ n ih => simp [ksTake, ih]

/-- `n` calls of `ks_next` leave the unit `n` output steps on. -/
theorem ksTake_unit (n : Nat) (u : Keystream) : (ksTake n u).2 = Keystream.advance^[n] u := by
  induction n generalizing u with
  | zero => rfl
  | succ n ih => rw [ksTake, ih]; rfl

/-- Byte `k` of `n` calls of `ks_next` is the output after `k + 1` steps. -/
theorem getElem_ksTake {n k : Nat} (u : Keystream) (h : k < n) :
    (ksTake n u).1[k]? = some (Keystream.advance^[k + 1] u).output := by
  induction n generalizing u k with
  | zero => omega
  | succ n ih =>
    cases k with
    | zero => rfl
    | succ k => exact ih u.advance (by omega)

/-! ## Masking (R166) -/

theorem length_xorBytes (a b : List Byte) : (xorBytes a b).length = min a.length b.length := List.length_zipWith ..

/-- The same mask twice is no mask. -/
theorem xorBytes_xorBytes (a b : List Byte) (h : a.length = b.length) : xorBytes (xorBytes a b) b = a := by
  induction a generalizing b with
  | nil => rfl
  | cons x xs ih =>
    cases b with
    | nil => simp at h
    | cons y ys =>
      have := ih ys (by simpa using h)
      simp only [xorBytes, List.zipWith_cons_cons, BitVec.xor_assoc, BitVec.xor_self, BitVec.xor_zero]
      exact congrArg _ this

theorem length_first (t : Table) {n : Nat} (h : n ≤ 256) : (Table.first t n).length = n := by
  simp [Table.first, h]

theorem getElem?_first (t : Table) {n : Nat} (h : n ≤ 256) {k : Nat} (hk : k < n) :
    (Table.first t n)[k]? = some (t.get ⟨k, by omega⟩) := by
  simp only [Table.first, Vector.get_eq_getElem, List.getElem?_take, hk, if_true]
  rw [List.getElem?_eq_getElem (by simp; omega)]
  simp

end Sys2Proof.Machine
end

