-- ==== Sys2Proof/Laws/NumberTheory.lean ====
section
/-!
SUPPORT. What the loops of the number-theory commands compute (40_number_theory.md R123, R125, R128, R129, R132): the
fuel is always enough, and one lemma for each loop says all its result.
-/

namespace Sys2Proof.Machine

open Sys2Proof.Config (XsStep)

/-! ## Square and multiply (R123) -/

theorem modexpLoop_eq (m : Nat) (hm : 0 < m) (fuel result base e : Nat) (hf : e ≤ fuel) (hr : result < m) :
    modexpLoop m fuel result base e = result * base ^ e % m := by
  induction fuel generalizing result base e with
  | zero =>
    obtain rfl : e = 0 := by omega
    simp [modexpLoop, Nat.mod_eq_of_lt hr]
  | succ n ih =>
    unfold modexpLoop
    by_cases he : e = 0
    · subst he
      simp [Nat.mod_eq_of_lt hr]
    · rw [if_neg he]
      have hdecomp : e = 2 * (e / 2) + e % 2 := (Nat.div_add_mod e 2).symm
      have hsq : (base * base % m) ^ (e / 2) % m = base ^ (2 * (e / 2)) % m := by
        rw [← Nat.pow_mod, pow_mul, pow_two]
      by_cases hodd : e % 2 = 1
      · rw [if_pos hodd, ih _ _ _ (by omega) (Nat.mod_lt _ hm), Nat.mul_mod, Nat.mod_mod, hsq, ← Nat.mul_mod]
        conv_rhs => rw [hdecomp, hodd, pow_succ]
        congr 1
        ring
      · rw [if_neg hodd, ih _ _ _ (by omega) hr, Nat.mul_mod, hsq, ← Nat.mul_mod]
        conv_rhs => rw [hdecomp, show e % 2 = 0 by omega, Nat.add_zero]

/-- Square-and-multiply computes the power modulo `m`, with `0^0 = 1`. -/
theorem modexp_eq (a b m : Nat) (hm : 0 < m) : modexp a b m = a ^ b % m := by
  unfold modexp
  rw [modexpLoop_eq m hm _ _ _ _ (le_refl b) (Nat.mod_lt _ hm), Nat.mul_mod, Nat.mod_mod, ← Nat.pow_mod,
    ← Nat.mul_mod, one_mul]

/-! ## Extended Euclid (R125) -/

/-- The loop's triple is a Bezout identity of the gcd, from any rows that are combinations of `a` and `b`. -/
theorem xgcdLoop_bezout (a b : Int) (fuel r0 r1 : Nat) (s0 s1 t0 t1 : Int) (hf : r1 < fuel)
    (h0 : a * s0 + b * t0 = r0) (h1 : a * s1 + b * t1 = r1) :
    (xgcdLoop fuel r0 r1 s0 s1 t0 t1).1 = Nat.gcd r0 r1 ∧
    a * (xgcdLoop fuel r0 r1 s0 s1 t0 t1).2.1 + b * (xgcdLoop fuel r0 r1 s0 s1 t0 t1).2.2
      = (xgcdLoop fuel r0 r1 s0 s1 t0 t1).1 := by
  induction fuel generalizing r0 r1 s0 s1 t0 t1 with
  | zero => omega
  | succ n ih =>
    unfold xgcdLoop
    by_cases hr : r1 = 0
    · subst hr
      simpa using h0
    · rw [if_neg hr]
      have hlt : r0 % r1 < n := Nat.lt_of_lt_of_le (Nat.mod_lt _ (Nat.pos_of_ne_zero hr)) (by omega)
      have hrow : a * (s0 - (r0 / r1 : Nat) * s1) + b * (t0 - (r0 / r1 : Nat) * t1) = (r0 % r1 : Nat) := by
        have hd : (r1 : Int) * (r0 / r1 : Nat) + (r0 % r1 : Nat) = r0 := by exact_mod_cast Nat.div_add_mod r0 r1
        linear_combination h0 - (r0 / r1 : Nat) * h1 - hd
      obtain ⟨hg, hb⟩ := ih r1 (r0 % r1) s1 _ t1 _ hlt h1 hrow
      refine ⟨?_, hb⟩
      rw [hg, Nat.gcd_comm r1, ← Nat.gcd_rec, Nat.gcd_comm]

/-- `xgcd` answers the gcd and a Bezout pair. -/
theorem xgcd_bezout (a b : Nat) :
    (xgcd a b).1 = Nat.gcd a b ∧ (a : Int) * (xgcd a b).2.1 + (b : Int) * (xgcd a b).2.2 = (xgcd a b).1 :=
  xgcdLoop_bezout a b (b + 1) a b 1 0 0 1 (by omega) (by simp) (by simp)

/-- More fuel than the remainder changes nothing. -/
theorem xgcdLoop_fuel (fuel fuel' r0 r1 : Nat) (s0 s1 t0 t1 : Int) (h : r1 < fuel) (h' : r1 < fuel') :
    xgcdLoop fuel r0 r1 s0 s1 t0 t1 = xgcdLoop fuel' r0 r1 s0 s1 t0 t1 := by
  induction fuel generalizing fuel' r0 r1 s0 s1 t0 t1 with
  | zero => omega
  | succ n ih =>
    cases fuel' with
    | zero => omega
    | succ n' =>
      unfold xgcdLoop
      by_cases hr : r1 = 0
      · simp [hr]
      · rw [if_neg hr, if_neg hr]
        have := Nat.mod_lt r0 (Nat.pos_of_ne_zero hr)
        exact ih _ _ _ _ _ _ _ (by omega) (by omega)

/-- The loop is linear in its rows: from any rows it answers the combination that it makes of the unit rows. -/
theorem xgcdLoop_linear (fuel r0 r1 : Nat) (s0 s1 t0 t1 : Int) :
    xgcdLoop fuel r0 r1 s0 s1 t0 t1 =
      ((xgcdLoop fuel r0 r1 1 0 0 1).1,
        s0 * (xgcdLoop fuel r0 r1 1 0 0 1).2.1 + s1 * (xgcdLoop fuel r0 r1 1 0 0 1).2.2,
        t0 * (xgcdLoop fuel r0 r1 1 0 0 1).2.1 + t1 * (xgcdLoop fuel r0 r1 1 0 0 1).2.2) := by
  induction fuel generalizing r0 r1 s0 s1 t0 t1 with
  | zero => simp [xgcdLoop]
  | succ n ih =>
    unfold xgcdLoop
    by_cases hr : r1 = 0
    · simp [hr]
    · simp only [if_neg hr]
      rw [ih _ _ s1 _ t1 _, ih _ _ 0 _ 1 _]
      refine Prod.ext rfl (Prod.ext ?_ ?_) <;> simp <;> ring

/-! ## Miller-Rabin (R128, R129, R132) -/

/-- The halving loop keeps `d · 2^s` and stops at an odd `d`. -/
theorem mrHalve_spec (fuel d s : Nat) (hd : 0 < d) (hf : d ≤ fuel) :
    (mrHalve fuel d s).1 * 2 ^ (mrHalve fuel d s).2 = d * 2 ^ s ∧ (mrHalve fuel d s).1 % 2 = 1 ∧
      s ≤ (mrHalve fuel d s).2 ∧ (d % 2 = 0 → s < (mrHalve fuel d s).2) := by
  induction fuel generalizing d s with
  | zero => omega
  | succ n ih =>
    unfold mrHalve
    by_cases h : d % 2 = 0
    · rw [if_pos h]
      obtain ⟨h1, h2, h3, -⟩ := ih (d / 2) (s + 1) (by omega) (by omega)
      refine ⟨?_, h2, by omega, fun _ => by omega⟩
      rw [h1, pow_succ]
      have : d = 2 * (d / 2) := by omega
      conv_rhs => rw [this]
      ring
    · rw [if_neg h]
      exact ⟨rfl, by omega, le_refl _, fun h' => absurd h' h⟩

/-- The squaring sequence reaches `n - 1` iff one of its first `count` squarings does. -/
theorem mrSquares_iff (n count x : Nat) :
    mrSquares n count x = true ↔ ∃ r, 1 ≤ r ∧ r ≤ count ∧ x ^ 2 ^ r % n = n - 1 := by
  induction count generalizing x with
  | zero => simp [mrSquares]
  | succ c ih =>
    have hpow : ∀ r, (x * x % n) ^ 2 ^ r % n = x ^ 2 ^ (r + 1) % n := fun r => by
      rw [← Nat.pow_mod, ← pow_two, ← pow_mul, ← pow_succ']
    unfold mrSquares
    by_cases h : x * x % n = n - 1
    · simp only [h, if_true, true_iff]
      exact ⟨1, le_refl 1, by omega, by simpa [pow_two] using h⟩
    · rw [if_neg h, ih]
      constructor
      · rintro ⟨r, h1, h2, h3⟩
        exact ⟨r + 1, by omega, by omega, by rw [← hpow]; exact h3⟩
      · rintro ⟨r, h1, h2, h3⟩
        obtain ⟨r, rfl⟩ : ∃ q, r = q + 1 := ⟨r - 1, by omega⟩
        by_cases h0 : r = 0
        · subst h0
          exact absurd (by simpa [pow_two] using h3) h
        · exact ⟨r, by omega, by omega, by rw [hpow]; exact h3⟩

/-- The loop of MRTEST: it makes `j` draws, every one before the last passes, and it passes as a whole iff all do. -/
theorem mrTestLoop_spec (steps : Vector XsStep 3) (n iters : Nat) (x : BitVec 512) :
    ∃ j ≤ iters, (mrTestLoop steps n iters x).1 = (xsStep steps)^[j] x ∧
      (∀ k, 1 ≤ k → k < j → mrRound n (mrBase n ((xsStep steps)^[k] x)) = true) ∧
      (((mrTestLoop steps n iters x).2 = true ∧ j = iters ∧
          ∀ k, 1 ≤ k → k ≤ iters → mrRound n (mrBase n ((xsStep steps)^[k] x)) = true) ∨
        ((mrTestLoop steps n iters x).2 = false ∧ 1 ≤ j ∧
          mrRound n (mrBase n ((xsStep steps)^[j] x)) = false)) := by
  induction iters generalizing x with
  | zero => exact ⟨0, le_refl 0, rfl, by omega, .inl ⟨rfl, rfl, by omega⟩⟩
  | succ c ih =>
    unfold mrTestLoop
    by_cases h : mrRound n (mrBase n (xsStep steps x)) = true
    · rw [if_pos h]
      obtain ⟨j, hj, hx, hpass, hor⟩ := ih (xsStep steps x)
      have hext : ∀ b : Nat, (∀ k, 1 ≤ k → k < b → mrRound n (mrBase n ((xsStep steps)^[k] (xsStep steps x))) = true) →
          ∀ k, 1 ≤ k → k < b + 1 → mrRound n (mrBase n ((xsStep steps)^[k] x)) = true := by
        intro b hb k h1 h2
        obtain ⟨k, rfl⟩ : ∃ q, k = q + 1 := ⟨k - 1, by omega⟩
        rw [Function.iterate_succ_apply]
        by_cases h0 : k = 0
        · subst h0; exact h
        · exact hb k (by omega) (by omega)
      refine ⟨j + 1, by omega, by rw [hx, Function.iterate_succ_apply], hext j hpass, ?_⟩
      rcases hor with ⟨h1, h2, h3⟩ | ⟨h1, h2, h3⟩
      · exact .inl ⟨h1, by omega, fun k ha hb => hext (c + 1) (fun k ha hb => h3 k ha (by omega)) k ha (by omega)⟩
      · exact .inr ⟨h1, by omega, by rw [Function.iterate_succ_apply]; exact h3⟩
    · rw [if_neg h]
      exact ⟨1, by omega, rfl, by omega, .inr ⟨rfl, le_refl 1, by simpa using h⟩⟩

end Sys2Proof.Machine
end

