-- ==== Sys2Proof/Laws/PerInstr.lean ====
section
/-!
SUPPORT. Facts proved once per constructor of `Instr`. `EncodesOpcode`: the encoding of a command carries the opcode of
its row (30_encoding.md R93, R94).
-/

namespace Sys2Proof.Laws.EncodesOpcode

/-- `OP` of the encoded word is the command's opcode. -/
def Statement (i : Instr) : Prop := (opOf (encode i)).toNat = i.opcode

theorem nop : Statement (.nop) := by
  exact opOf_assemble ⟨by decide, by omega, by omega, by omega, by omega, by omega⟩

theorem ldr (rd : BigReg) (sSrc : ScalReg) (sLen : ScalReg) : Statement (.ldr rd sSrc sLen) := by
  exact opOf_assemble ⟨by decide, by omega, by omega, by omega, by omega, by omega⟩

theorem str (sDst : ScalReg) (ra : BigReg) (sLen : ScalReg) : Statement (.str sDst ra sLen) := by
  exact opOf_assemble ⟨by decide, by omega, by omega, by omega, by omega, by omega⟩

theorem modmul (rd : BigReg) (ra : BigReg) (rb : BigReg) (rm : BigReg) : Statement (.modmul rd ra rb rm) := by
  exact opOf_assemble ⟨by decide, by omega, by omega, by omega, by omega, by omega⟩

theorem modexp (rd : BigReg) (ra : BigReg) (rb : BigReg) (rm : BigReg) : Statement (.modexp rd ra rb rm) := by
  exact opOf_assemble ⟨by decide, by omega, by omega, by omega, by omega, by omega⟩

theorem xgcd (rd : BigReg) (ra : BigReg) (rb : BigReg) : Statement (.xgcd rd ra rb) := by
  exact opOf_assemble ⟨by decide, by omega, by omega, by omega, by omega, by omega⟩

theorem modinv (rd : BigReg) (ra : BigReg) (rm : BigReg) : Statement (.modinv rd ra rm) := by
  exact opOf_assemble ⟨by decide, by omega, by omega, by omega, by omega, by omega⟩

theorem mrwit (rn : BigReg) (rbase : BigReg) : Statement (.mrwit rn rbase) := by
  exact opOf_assemble ⟨by decide, by omega, by omega, by omega, by omega, by omega⟩

theorem mrtest (rn : BigReg) (iters : Byte) : Statement (.mrtest rn iters) := by
  have := iters.isLt
  exact opOf_assemble ⟨by decide, by omega, by omega, by omega, by omega, by omega⟩

theorem prseed (ra : BigReg) : Statement (.prseed ra) := by
  exact opOf_assemble ⟨by decide, by omega, by omega, by omega, by omega, by omega⟩

theorem prnext (rd : BigReg) : Statement (.prnext rd) := by
  exact opOf_assemble ⟨by decide, by omega, by omega, by omega, by omega, by omega⟩

theorem ksinit (sKey : ScalReg) (sLen : ScalReg) (sN : ScalReg) : Statement (.ksinit sKey sLen sN) := by
  exact opOf_assemble ⟨by decide, by omega, by omega, by omega, by omega, by omega⟩

theorem ksnext (sd : ScalReg) : Statement (.ksnext sd) := by
  exact opOf_assemble ⟨by decide, by omega, by omega, by omega, by omega, by omega⟩

theorem ksbytes (sDst : ScalReg) (sLen : ScalReg) : Statement (.ksbytes sDst sLen) := by
  exact opOf_assemble ⟨by decide, by omega, by omega, by omega, by omega, by omega⟩

theorem ksciph (sDst : ScalReg) (sSrc : ScalReg) (sLen : ScalReg) : Statement (.ksciph sDst sSrc sLen) := by
  exact opOf_assemble ⟨by decide, by omega, by omega, by omega, by omega, by omega⟩

theorem ksperm (sDst : ScalReg) : Statement (.ksperm sDst) := by
  exact opOf_assemble ⟨by decide, by omega, by omega, by omega, by omega, by omega⟩

theorem spinit : Statement (.spinit) := by
  exact opOf_assemble ⟨by decide, by omega, by omega, by omega, by omega, by omega⟩

theorem spabsb (sSrc : ScalReg) : Statement (.spabsb sSrc) := by
  exact opOf_assemble ⟨by decide, by omega, by omega, by omega, by omega, by omega⟩

theorem spperm : Statement (.spperm) := by
  exact opOf_assemble ⟨by decide, by omega, by omega, by omega, by omega, by omega⟩

theorem spout (sDst : ScalReg) : Statement (.spout sDst) := by
  exact opOf_assemble ⟨by decide, by omega, by omega, by omega, by omega, by omega⟩

theorem hash (sDst : ScalReg) (sSrc : ScalReg) (sLen : ScalReg) : Statement (.hash sDst sSrc sLen) := by
  exact opOf_assemble ⟨by decide, by omega, by omega, by omega, by omega, by omega⟩

theorem keyld (ra : BigReg) : Statement (.keyld ra) := by
  exact opOf_assemble ⟨by decide, by omega, by omega, by omega, by omega, by omega⟩

theorem keyks : Statement (.keyks) := by
  exact opOf_assemble ⟨by decide, by omega, by omega, by omega, by omega, by omega⟩

theorem keyrd (rd : BigReg) : Statement (.keyrd rd) := by
  exact opOf_assemble ⟨by decide, by omega, by omega, by omega, by omega, by omega⟩

theorem sbload (box : Box) : Statement (.sbload box) := by
  cases box <;> exact opOf_assemble ⟨by decide, by decide, by decide, by decide, by decide, by decide⟩

theorem blkenc (rd : BigReg) (ra : BigReg) : Statement (.blkenc rd ra) := by
  exact opOf_assemble ⟨by decide, by omega, by omega, by omega, by omega, by omega⟩

theorem blkdec (rd : BigReg) (ra : BigReg) : Statement (.blkdec rd ra) := by
  exact opOf_assemble ⟨by decide, by omega, by omega, by omega, by omega, by omega⟩

theorem enc (sDst : ScalReg) (sSrc : ScalReg) (sLen : ScalReg) (mode : Mode) : Statement (.enc sDst sSrc sLen mode) := by
  have h : mode.imm < 256 := by cases mode <;> decide
  exact opOf_assemble ⟨by decide, by omega, by omega, by omega, by omega, by omega⟩

theorem dec (sDst : ScalReg) (sSrc : ScalReg) (sLen : ScalReg) (mode : Mode) : Statement (.dec sDst sSrc sLen mode) := by
  have h : mode.imm < 256 := by cases mode <;> decide
  exact opOf_assemble ⟨by decide, by omega, by omega, by omega, by omega, by omega⟩

end Sys2Proof.Laws.EncodesOpcode
end

