-- ==== Sys2Proof/Laws/Prng.lean ====
section
/-!
SUPPORT. The laws of the shift-xor steps (41_prng.md R151): each over the integers; each fixes 0 and, for an amount
of at least 1, loses nothing.
-/

namespace Sys2Proof.Machine

open Sys2Proof.Config (XsStep)

/-- A shift-xor step over the integers (R151). -/
theorem toNat_xsShift (q : Config.XsStep) (x : BitVec 512) : (xsShift q x).toNat = xsShiftInt q x.toNat := by
  unfold xsShift xsShiftInt
  cases q.dir <;> simp only [BitVec.toNat_xor, BitVec.toNat_shiftLeft, BitVec.toNat_ushiftRight]

theorem xsShift_zero (p : XsStep) : xsShift p 0 = 0 := by
  unfold xsShift
  cases p.dir <;> simp

theorem xor_shiftLeft_injective {k : Nat} (hk : 1 ≤ k) (x y : BitVec 512) (h : x ^^^ (x <<< k) = y ^^^ (y <<< k)) :
    x = y := by
  apply BitVec.eq_of_getLsbD_eq
  intro i hi
  induction i using Nat.strong_induction_on with
  | _ i ih =>
    have hb := congrArg (fun v : BitVec 512 => v.getLsbD i) h
    simp only [BitVec.getLsbD_xor, BitVec.getLsbD_shiftLeft, hi, decide_true, Bool.true_and] at hb
    by_cases hik : i < k
    · simpa [hik] using hb
    · have := ih (i - k) (by omega) (by omega)
      rw [this] at hb
      exact Bool.xor_left_inj.mp hb

theorem xor_ushiftRight_injective {k : Nat} (hk : 1 ≤ k) (x y : BitVec 512) (h : x ^^^ (x >>> k) = y ^^^ (y >>> k)) :
    x = y := by
  have key : ∀ d i : Nat, 512 ≤ i + d → x.getLsbD i = y.getLsbD i := by
    intro d
    induction d with
    | zero =>
      intro i hi
      rw [BitVec.getLsbD_of_ge _ _ (by omega), BitVec.getLsbD_of_ge _ _ (by omega)]
    | succ d ih =>
      intro i hi
      have hb := congrArg (fun v : BitVec 512 => v.getLsbD i) h
      simp only [BitVec.getLsbD_xor, BitVec.getLsbD_ushiftRight] at hb
      have := ih (k + i) (by omega)
      rw [this] at hb
      exact Bool.xor_left_inj.mp hb
  apply BitVec.eq_of_getLsbD_eq
  intro i hi
  exact key 512 i (by omega)

/-- A shift-xor step with a positive amount is injective, so it is a bijection of the 512-bit values. -/
theorem xsShift_injective {p : XsStep} (hp : 1 ≤ p.amount) (x y : BitVec 512) (h : xsShift p x = xsShift p y) :
    x = y := by
  unfold xsShift at h
  cases hd : p.dir with
  | left => rw [hd] at h; exact xor_shiftLeft_injective hp x y h
  | right => rw [hd] at h; exact xor_ushiftRight_injective hp x y h

/-- The three steps of a legal parameter record have positive amounts. -/
theorem amount_pos_of_wf {p : Config.Params} (hp : p.wf = true) (k : Fin 3) : 1 ≤ (p.xsSteps.get k).amount := by
  simp only [Config.Params.wf, Bool.and_eq_true, List.all_eq_true, Config.xsStepLegal, decide_eq_true_eq] at hp
  refine (hp.1.1.1.2 _ ?_).1
  rw [Vector.get_eq_getElem]
  exact Vector.mem_toList_iff.mpr (Vector.getElem_mem k.isLt)

end Sys2Proof.Machine
end

