-- ==== Sys2Proof/Laws/Sponge.lean ====
section
/-!
SUPPORT. The laws of the sponge functions (43_sponge_hash.md R181 to R184): entry by entry, what they leave of the rest
of the state, and the shape of the padded input.
-/

namespace Sys2Proof.Machine

/-! ## Entry by entry -/

theorem get_gather (n : Nat) (p st : Table) (k : Fin 256) :
    (gather n p st).get k = if k.val < n then st.get (p.get k).toFin else st.get k := by
  simp [gather, Table.at, Vector.get_eq_getElem]

theorem get_xorInto (h : Nat) (b : List Byte) (st : Table) (k : Fin 256) :
    (xorInto h b st).get k = if k.val < h then st.get k ^^^ b.getD k.val 0 else st.get k := by
  simp [xorInto, Vector.get_eq_getElem]

theorem get_spongeStart (h : Nat) (k : Fin 256) :
    (spongeStart h).get k =
      if k.val = 0 then BitVec.ofNat 8 (8 * h) else if k.val = 1 then BitVec.ofNat 8 (8 * h / 256) else 0 := by
  simp only [spongeStart, Vector.get_eq_getElem, Vector.getElem_set, Table.zero, Vector.getElem_replicate]
  by_cases h0 : k.val = 0
  · simp [h0]
  · by_cases h1 : k.val = 1
    · simp [h1]
    · simp [h0, h1, Ne.symm h0, Ne.symm h1]

/-- The first `n` bytes of a gather are the old bytes at the positions that the permutation names. -/
theorem first_gather {n : Nat} (hn : n ≤ 256) (p st : Table) :
    Table.first (gather n p st) n = (Table.first p n).map fun b => st.get b.toFin := by
  apply List.ext_getElem?
  intro k
  by_cases hk : k < n
  · rw [getElem?_first _ hn hk, List.getElem?_map, getElem?_first _ hn hk, get_gather, if_pos hk]
    rfl
  · rw [List.getElem?_eq_none (by rw [length_first _ hn]; omega),
      List.getElem?_eq_none (by rw [List.length_map, length_first _ hn]; omega)]

/-- The first `n` entries of a permutation are the bytes `0..n-1` in some order. -/
theorem first_perm_range {n : Nat} (hn : n ≤ 256) {p : Table} (hp : Table.IsPerm p n) :
    (Table.first p n).Perm ((List.range n).map (BitVec.ofNat 8)) := by
  have hnodup : (Table.first p n).Nodup := by
    rw [List.nodup_iff_injective_getElem]
    intro a b hab
    have ha : a.val < n := lt_of_lt_of_eq a.isLt (length_first _ hn)
    have hb : b.val < n := lt_of_lt_of_eq b.isLt (length_first _ hn)
    have h1 := getElem?_first p hn ha
    have h2 := getElem?_first p hn hb
    rw [List.getElem?_eq_getElem a.isLt] at h1
    rw [List.getElem?_eq_getElem b.isLt] at h2
    have h12 : p.get ⟨a.val, by omega⟩ = p.get ⟨b.val, by omega⟩ :=
      (Option.some.inj h1).symm.trans (hab.trans (Option.some.inj h2))
    have := hp.2 _ ha _ hb h12
    exact Fin.ext (by simpa using this)
  have hsub : ∀ x ∈ Table.first p n, x ∈ (List.range n).map (BitVec.ofNat 8) := by
    intro x hx
    obtain ⟨k, hk, rfl⟩ := List.mem_iff_getElem.mp hx
    have hk' : k < n := by rwa [length_first _ hn] at hk
    have h1 := getElem?_first p hn hk'
    rw [List.getElem?_eq_getElem hk] at h1
    rw [Option.some.inj h1, List.mem_map]
    refine ⟨_, List.mem_range.mpr (hp.1 ⟨k, by omega⟩ hk'), ?_⟩
    simp
  refine List.Subperm.perm_of_length_le (List.subperm_of_subset hnodup hsub) ?_
  simp [length_first _ hn]

theorem map_range_get {n : Nat} (hn : n ≤ 256) (st : Table) :
    ((List.range n).map (BitVec.ofNat 8)).map (fun b : Byte => st.get b.toFin) = Table.first st n := by
  apply List.ext_getElem?
  intro k
  by_cases hk : k < n
  · rw [getElem?_first _ hn hk, List.getElem?_map, List.getElem?_map, List.getElem?_range hk]
    simp only [Option.map_some, Option.some.injEq]
    congr 1
    apply Fin.ext
    change (BitVec.ofNat 8 k).toNat = k
    rw [BitVec.toNat_ofNat]
    omega
  · rw [List.getElem?_eq_none (by simpa using hk), List.getElem?_eq_none (by rw [length_first _ hn]; omega)]

/-- A gather by a permutation moves bytes and changes none. -/
theorem first_gather_perm {n : Nat} (hn : n ≤ 256) {p : Table} (hp : Table.IsPerm p n) (st : Table) :
    (Table.first (gather n p st) n).Perm (Table.first st n) := by
  rw [first_gather hn, ← map_range_get hn st]
  exact (first_perm_range hn hp).map _

/-! ## What the sponge functions leave of the rest of the state -/

/-- Only the sponge state and the keystream unit may differ. -/
def State.SpongeOnly (s t : State) : Prop := { t with st := s.st, ks := s.ks, ksv := s.ksv } = s

theorem State.spongeOnly_refl (s : State) : s.SpongeOnly s := rfl

theorem State.spongeOnly_trans {s t u : State} (h : s.SpongeOnly t) (h' : t.SpongeOnly u) : s.SpongeOnly u := by
  have h1 := congrArg (fun x : State => { x with st := s.st, ks := s.ks, ksv := s.ksv }) h'
  exact Eq.trans h1 h

theorem State.spongeOnly_setSt (s : State) (t : Table) : s.SpongeOnly (s.setSt t) := rfl

theorem State.spongeOnly_initKs (s : State) (key : List Byte) (n : Nat) : s.SpongeOnly (s.initKs key n) := rfl

theorem State.spongeOnly_spInit (s : State) : s.SpongeOnly s.spInit := s.spongeOnly_setSt _

theorem State.spongeOnly_spPermute (s : State) : s.SpongeOnly s.spPermute :=
  State.spongeOnly_trans (s.spongeOnly_initKs _ _) (State.spongeOnly_setSt _ _)

theorem State.spongeOnly_spAbsorb (s : State) (b : List Byte) : s.SpongeOnly (s.spAbsorb b) :=
  State.spongeOnly_trans (s.spongeOnly_setSt _) (State.spongeOnly_spPermute _)

theorem State.spAbsorbAll_cons (s : State) (b : List Byte) (bs : List (List Byte)) :
    s.spAbsorbAll (b :: bs) = (s.spAbsorb b).spAbsorbAll bs := List.foldl_cons ..

theorem State.spSqueeze_succ (s : State) (n : Nat) : s.spSqueeze (n + 1) = s.spPermute.spSqueeze n :=
  Function.iterate_succ_apply ..

theorem State.spongeOnly_spAbsorbAll (s : State) (bs : List (List Byte)) : s.SpongeOnly (s.spAbsorbAll bs) := by
  induction bs generalizing s with
  | nil => exact s.spongeOnly_refl
  | cons b bs ih =>
    rw [State.spAbsorbAll_cons]
    exact State.spongeOnly_trans (s.spongeOnly_spAbsorb b) (ih (s.spAbsorb b))

theorem State.spongeOnly_spSqueeze (s : State) (n : Nat) : s.SpongeOnly (s.spSqueeze n) := by
  induction n generalizing s with
  | zero => exact s.spongeOnly_refl
  | succ n ih =>
    rw [State.spSqueeze_succ]
    exact State.spongeOnly_trans s.spongeOnly_spPermute (ih s.spPermute)

/-- `sp_hash` changes nothing but the sponge state and the keystream unit. -/
theorem State.spongeOnly_spHash (s : State) (msg : List Byte) : s.SpongeOnly (s.spHash msg) := by
  rw [State.spHash]
  exact State.spongeOnly_trans s.spongeOnly_spInit
    (State.spongeOnly_trans (State.spongeOnly_spAbsorbAll _ _) (State.spongeOnly_spSqueeze _ _))

/-! ## Field by field -/

section

variable (s t : State)

theorem State.SpongeOnly.params (h : s.SpongeOnly t) : t.params = s.params := (congrArg State.params h :)
theorem State.SpongeOnly.bigRegs (h : s.SpongeOnly t) : t.bigRegs = s.bigRegs := (congrArg State.bigRegs h :)
theorem State.SpongeOnly.scalRegs (h : s.SpongeOnly t) : t.scalRegs = s.scalRegs := (congrArg State.scalRegs h :)
theorem State.SpongeOnly.dm (h : s.SpongeOnly t) : t.dm = s.dm := (congrArg State.dm h :)
theorem State.SpongeOnly.xs (h : s.SpongeOnly t) : t.xs = s.xs := (congrArg State.xs h :)
theorem State.SpongeOnly.xsv (h : s.SpongeOnly t) : t.xsv = s.xsv := (congrArg State.xsv h :)
theorem State.SpongeOnly.key (h : s.SpongeOnly t) : t.key = s.key := (congrArg State.key h :)
theorem State.SpongeOnly.mkey (h : s.SpongeOnly t) : t.mkey = s.mkey := (congrArg State.mkey h :)
theorem State.SpongeOnly.keyv (h : s.SpongeOnly t) : t.keyv = s.keyv := (congrArg State.keyv h :)
theorem State.SpongeOnly.sb1 (h : s.SpongeOnly t) : t.sb1 = s.sb1 := (congrArg State.sb1 h :)
theorem State.SpongeOnly.sb2 (h : s.SpongeOnly t) : t.sb2 = s.sb2 := (congrArg State.sb2 h :)
theorem State.SpongeOnly.sb1v (h : s.SpongeOnly t) : t.sb1v = s.sb1v := (congrArg State.sb1v h :)
theorem State.SpongeOnly.sb2v (h : s.SpongeOnly t) : t.sb2v = s.sb2v := (congrArg State.sb2v h :)
theorem State.SpongeOnly.hashLen (h : s.SpongeOnly t) : t.hashLen = s.hashLen := (congrArg State.hashLen h :)
theorem State.SpongeOnly.squish (h : s.SpongeOnly t) : t.squish = s.squish := (congrArg State.squish h :)
theorem State.SpongeOnly.busy (h : s.SpongeOnly t) : t.busy = s.busy := (congrArg State.busy h :)
theorem State.SpongeOnly.done (h : s.SpongeOnly t) : t.done = s.done := (congrArg State.done h :)
theorem State.SpongeOnly.err (h : s.SpongeOnly t) : t.err = s.err := (congrArg State.err h :)
theorem State.SpongeOnly.ovr (h : s.SpongeOnly t) : t.ovr = s.ovr := (congrArg State.ovr h :)
theorem State.SpongeOnly.prime (h : s.SpongeOnly t) : t.prime = s.prime := (congrArg State.prime h :)
theorem State.SpongeOnly.faultCause (h : s.SpongeOnly t) : t.faultCause = s.faultCause := (congrArg State.faultCause h :)
theorem State.SpongeOnly.fcmd (h : s.SpongeOnly t) : t.fcmd = s.fcmd := (congrArg State.fcmd h :)
theorem State.SpongeOnly.ieDone (h : s.SpongeOnly t) : t.ieDone = s.ieDone := (congrArg State.ieDone h :)
theorem State.SpongeOnly.ieErr (h : s.SpongeOnly t) : t.ieErr = s.ieErr := (congrArg State.ieErr h :)
theorem State.SpongeOnly.cmdLatch (h : s.SpongeOnly t) : t.cmdLatch = s.cmdLatch := (congrArg State.cmdLatch h :)
theorem State.SpongeOnly.pending (h : s.SpongeOnly t) : t.pending = s.pending := (congrArg State.pending h :)
theorem State.SpongeOnly.bus (h : s.SpongeOnly t) : t.bus = s.bus := (congrArg State.bus h :)
theorem State.SpongeOnly.freeCount (h : s.SpongeOnly t) : t.freeCount = s.freeCount := (congrArg State.freeCount h :)

end

@[simp] theorem State.spInit_params (s : State) : s.spInit.params = s.params := rfl
@[simp] theorem State.spInit_bigRegs (s : State) : s.spInit.bigRegs = s.bigRegs := rfl
@[simp] theorem State.spInit_scalRegs (s : State) : s.spInit.scalRegs = s.scalRegs := rfl
@[simp] theorem State.spInit_dm (s : State) : s.spInit.dm = s.dm := rfl
@[simp] theorem State.spInit_xs (s : State) : s.spInit.xs = s.xs := rfl
@[simp] theorem State.spInit_xsv (s : State) : s.spInit.xsv = s.xsv := rfl
@[simp] theorem State.spInit_ks (s : State) : s.spInit.ks = s.ks := rfl
@[simp] theorem State.spInit_ksv (s : State) : s.spInit.ksv = s.ksv := rfl
@[simp] theorem State.spInit_key (s : State) : s.spInit.key = s.key := rfl
@[simp] theorem State.spInit_mkey (s : State) : s.spInit.mkey = s.mkey := rfl
@[simp] theorem State.spInit_keyv (s : State) : s.spInit.keyv = s.keyv := rfl
@[simp] theorem State.spInit_sb1 (s : State) : s.spInit.sb1 = s.sb1 := rfl
@[simp] theorem State.spInit_sb2 (s : State) : s.spInit.sb2 = s.sb2 := rfl
@[simp] theorem State.spInit_sb1v (s : State) : s.spInit.sb1v = s.sb1v := rfl
@[simp] theorem State.spInit_sb2v (s : State) : s.spInit.sb2v = s.sb2v := rfl
@[simp] theorem State.spInit_hashLen (s : State) : s.spInit.hashLen = s.hashLen := rfl
@[simp] theorem State.spInit_squish (s : State) : s.spInit.squish = s.squish := rfl
@[simp] theorem State.spInit_busy (s : State) : s.spInit.busy = s.busy := rfl
@[simp] theorem State.spInit_done (s : State) : s.spInit.done = s.done := rfl
@[simp] theorem State.spInit_err (s : State) : s.spInit.err = s.err := rfl
@[simp] theorem State.spInit_ovr (s : State) : s.spInit.ovr = s.ovr := rfl
@[simp] theorem State.spInit_prime (s : State) : s.spInit.prime = s.prime := rfl
@[simp] theorem State.spInit_faultCause (s : State) : s.spInit.faultCause = s.faultCause := rfl
@[simp] theorem State.spInit_fcmd (s : State) : s.spInit.fcmd = s.fcmd := rfl
@[simp] theorem State.spInit_ieDone (s : State) : s.spInit.ieDone = s.ieDone := rfl
@[simp] theorem State.spInit_ieErr (s : State) : s.spInit.ieErr = s.ieErr := rfl
@[simp] theorem State.spInit_cmdLatch (s : State) : s.spInit.cmdLatch = s.cmdLatch := rfl
@[simp] theorem State.spInit_pending (s : State) : s.spInit.pending = s.pending := rfl
@[simp] theorem State.spInit_bus (s : State) : s.spInit.bus = s.bus := rfl
@[simp] theorem State.spInit_freeCount (s : State) : s.spInit.freeCount = s.freeCount := rfl
@[simp] theorem State.spInit_big (s : State) (k : BigReg) : s.spInit.big k = s.big k := rfl
@[simp] theorem State.spInit_scal (s : State) (k : ScalReg) : s.spInit.scal k = s.scal k := rfl
@[simp] theorem State.spInit_scalNat (s : State) (k : ScalReg) : s.spInit.scalNat k = s.scalNat k := rfl
@[simp] theorem State.spInit_hLen (s : State) : s.spInit.hLen = s.hLen := rfl

@[simp] theorem State.spPermute_params (s : State) : (s.spPermute).params = s.params :=
  State.SpongeOnly.params _ _ (s.spongeOnly_spPermute)
@[simp] theorem State.spPermute_bigRegs (s : State) : (s.spPermute).bigRegs = s.bigRegs :=
  State.SpongeOnly.bigRegs _ _ (s.spongeOnly_spPermute)
@[simp] theorem State.spPermute_scalRegs (s : State) : (s.spPermute).scalRegs = s.scalRegs :=
  State.SpongeOnly.scalRegs _ _ (s.spongeOnly_spPermute)
@[simp] theorem State.spPermute_dm (s : State) : (s.spPermute).dm = s.dm :=
  State.SpongeOnly.dm _ _ (s.spongeOnly_spPermute)
@[simp] theorem State.spPermute_xs (s : State) : (s.spPermute).xs = s.xs :=
  State.SpongeOnly.xs _ _ (s.spongeOnly_spPermute)
@[simp] theorem State.spPermute_xsv (s : State) : (s.spPermute).xsv = s.xsv :=
  State.SpongeOnly.xsv _ _ (s.spongeOnly_spPermute)
@[simp] theorem State.spPermute_key (s : State) : (s.spPermute).key = s.key :=
  State.SpongeOnly.key _ _ (s.spongeOnly_spPermute)
@[simp] theorem State.spPermute_mkey (s : State) : (s.spPermute).mkey = s.mkey :=
  State.SpongeOnly.mkey _ _ (s.spongeOnly_spPermute)
@[simp] theorem State.spPermute_keyv (s : State) : (s.spPermute).keyv = s.keyv :=
  State.SpongeOnly.keyv _ _ (s.spongeOnly_spPermute)
@[simp] theorem State.spPermute_sb1 (s : State) : (s.spPermute).sb1 = s.sb1 :=
  State.SpongeOnly.sb1 _ _ (s.spongeOnly_spPermute)
@[simp] theorem State.spPermute_sb2 (s : State) : (s.spPermute).sb2 = s.sb2 :=
  State.SpongeOnly.sb2 _ _ (s.spongeOnly_spPermute)
@[simp] theorem State.spPermute_sb1v (s : State) : (s.spPermute).sb1v = s.sb1v :=
  State.SpongeOnly.sb1v _ _ (s.spongeOnly_spPermute)
@[simp] theorem State.spPermute_sb2v (s : State) : (s.spPermute).sb2v = s.sb2v :=
  State.SpongeOnly.sb2v _ _ (s.spongeOnly_spPermute)
@[simp] theorem State.spPermute_hashLen (s : State) : (s.spPermute).hashLen = s.hashLen :=
  State.SpongeOnly.hashLen _ _ (s.spongeOnly_spPermute)
@[simp] theorem State.spPermute_squish (s : State) : (s.spPermute).squish = s.squish :=
  State.SpongeOnly.squish _ _ (s.spongeOnly_spPermute)
@[simp] theorem State.spPermute_busy (s : State) : (s.spPermute).busy = s.busy :=
  State.SpongeOnly.busy _ _ (s.spongeOnly_spPermute)
@[simp] theorem State.spPermute_done (s : State) : (s.spPermute).done = s.done :=
  State.SpongeOnly.done _ _ (s.spongeOnly_spPermute)
@[simp] theorem State.spPermute_err (s : State) : (s.spPermute).err = s.err :=
  State.SpongeOnly.err _ _ (s.spongeOnly_spPermute)
@[simp] theorem State.spPermute_ovr (s : State) : (s.spPermute).ovr = s.ovr :=
  State.SpongeOnly.ovr _ _ (s.spongeOnly_spPermute)
@[simp] theorem State.spPermute_prime (s : State) : (s.spPermute).prime = s.prime :=
  State.SpongeOnly.prime _ _ (s.spongeOnly_spPermute)
@[simp] theorem State.spPermute_faultCause (s : State) : (s.spPermute).faultCause = s.faultCause :=
  State.SpongeOnly.faultCause _ _ (s.spongeOnly_spPermute)
@[simp] theorem State.spPermute_fcmd (s : State) : (s.spPermute).fcmd = s.fcmd :=
  State.SpongeOnly.fcmd _ _ (s.spongeOnly_spPermute)
@[simp] theorem State.spPermute_ieDone (s : State) : (s.spPermute).ieDone = s.ieDone :=
  State.SpongeOnly.ieDone _ _ (s.spongeOnly_spPermute)
@[simp] theorem State.spPermute_ieErr (s : State) : (s.spPermute).ieErr = s.ieErr :=
  State.SpongeOnly.ieErr _ _ (s.spongeOnly_spPermute)
@[simp] theorem State.spPermute_cmdLatch (s : State) : (s.spPermute).cmdLatch = s.cmdLatch :=
  State.SpongeOnly.cmdLatch _ _ (s.spongeOnly_spPermute)
@[simp] theorem State.spPermute_pending (s : State) : (s.spPermute).pending = s.pending :=
  State.SpongeOnly.pending _ _ (s.spongeOnly_spPermute)
@[simp] theorem State.spPermute_bus (s : State) : (s.spPermute).bus = s.bus :=
  State.SpongeOnly.bus _ _ (s.spongeOnly_spPermute)
@[simp] theorem State.spPermute_freeCount (s : State) : (s.spPermute).freeCount = s.freeCount :=
  State.SpongeOnly.freeCount _ _ (s.spongeOnly_spPermute)
@[simp] theorem State.spPermute_big (s : State) (k : BigReg) : (s.spPermute).big k = s.big k := by
  simp only [State.big, State.spPermute_bigRegs]
@[simp] theorem State.spPermute_scal (s : State) (k : ScalReg) : (s.spPermute).scal k = s.scal k := by
  simp only [State.scal, State.spPermute_scalRegs]
@[simp] theorem State.spPermute_scalNat (s : State) (k : ScalReg) : (s.spPermute).scalNat k = s.scalNat k := by
  simp only [State.scalNat, State.scal, State.spPermute_scalRegs]
@[simp] theorem State.spPermute_hLen (s : State) : (s.spPermute).hLen = s.hLen := by
  simp only [State.hLen, State.spPermute_hashLen]

@[simp] theorem State.spAbsorb_params (s : State) (b : List Byte) : (s.spAbsorb b).params = s.params :=
  State.SpongeOnly.params _ _ (s.spongeOnly_spAbsorb b)
@[simp] theorem State.spAbsorb_bigRegs (s : State) (b : List Byte) : (s.spAbsorb b).bigRegs = s.bigRegs :=
  State.SpongeOnly.bigRegs _ _ (s.spongeOnly_spAbsorb b)
@[simp] theorem State.spAbsorb_scalRegs (s : State) (b : List Byte) : (s.spAbsorb b).scalRegs = s.scalRegs :=
  State.SpongeOnly.scalRegs _ _ (s.spongeOnly_spAbsorb b)
@[simp] theorem State.spAbsorb_dm (s : State) (b : List Byte) : (s.spAbsorb b).dm = s.dm :=
  State.SpongeOnly.dm _ _ (s.spongeOnly_spAbsorb b)
@[simp] theorem State.spAbsorb_xs (s : State) (b : List Byte) : (s.spAbsorb b).xs = s.xs :=
  State.SpongeOnly.xs _ _ (s.spongeOnly_spAbsorb b)
@[simp] theorem State.spAbsorb_xsv (s : State) (b : List Byte) : (s.spAbsorb b).xsv = s.xsv :=
  State.SpongeOnly.xsv _ _ (s.spongeOnly_spAbsorb b)
@[simp] theorem State.spAbsorb_key (s : State) (b : List Byte) : (s.spAbsorb b).key = s.key :=
  State.SpongeOnly.key _ _ (s.spongeOnly_spAbsorb b)
@[simp] theorem State.spAbsorb_mkey (s : State) (b : List Byte) : (s.spAbsorb b).mkey = s.mkey :=
  State.SpongeOnly.mkey _ _ (s.spongeOnly_spAbsorb b)
@[simp] theorem State.spAbsorb_keyv (s : State) (b : List Byte) : (s.spAbsorb b).keyv = s.keyv :=
  State.SpongeOnly.keyv _ _ (s.spongeOnly_spAbsorb b)
@[simp] theorem State.spAbsorb_sb1 (s : State) (b : List Byte) : (s.spAbsorb b).sb1 = s.sb1 :=
  State.SpongeOnly.sb1 _ _ (s.spongeOnly_spAbsorb b)
@[simp] theorem State.spAbsorb_sb2 (s : State) (b : List Byte) : (s.spAbsorb b).sb2 = s.sb2 :=
  State.SpongeOnly.sb2 _ _ (s.spongeOnly_spAbsorb b)
@[simp] theorem State.spAbsorb_sb1v (s : State) (b : List Byte) : (s.spAbsorb b).sb1v = s.sb1v :=
  State.SpongeOnly.sb1v _ _ (s.spongeOnly_spAbsorb b)
@[simp] theorem State.spAbsorb_sb2v (s : State) (b : List Byte) : (s.spAbsorb b).sb2v = s.sb2v :=
  State.SpongeOnly.sb2v _ _ (s.spongeOnly_spAbsorb b)
@[simp] theorem State.spAbsorb_hashLen (s : State) (b : List Byte) : (s.spAbsorb b).hashLen = s.hashLen :=
  State.SpongeOnly.hashLen _ _ (s.spongeOnly_spAbsorb b)
@[simp] theorem State.spAbsorb_squish (s : State) (b : List Byte) : (s.spAbsorb b).squish = s.squish :=
  State.SpongeOnly.squish _ _ (s.spongeOnly_spAbsorb b)
@[simp] theorem State.spAbsorb_busy (s : State) (b : List Byte) : (s.spAbsorb b).busy = s.busy :=
  State.SpongeOnly.busy _ _ (s.spongeOnly_spAbsorb b)
@[simp] theorem State.spAbsorb_done (s : State) (b : List Byte) : (s.spAbsorb b).done = s.done :=
  State.SpongeOnly.done _ _ (s.spongeOnly_spAbsorb b)
@[simp] theorem State.spAbsorb_err (s : State) (b : List Byte) : (s.spAbsorb b).err = s.err :=
  State.SpongeOnly.err _ _ (s.spongeOnly_spAbsorb b)
@[simp] theorem State.spAbsorb_ovr (s : State) (b : List Byte) : (s.spAbsorb b).ovr = s.ovr :=
  State.SpongeOnly.ovr _ _ (s.spongeOnly_spAbsorb b)
@[simp] theorem State.spAbsorb_prime (s : State) (b : List Byte) : (s.spAbsorb b).prime = s.prime :=
  State.SpongeOnly.prime _ _ (s.spongeOnly_spAbsorb b)
@[simp] theorem State.spAbsorb_faultCause (s : State) (b : List Byte) : (s.spAbsorb b).faultCause = s.faultCause :=
  State.SpongeOnly.faultCause _ _ (s.spongeOnly_spAbsorb b)
@[simp] theorem State.spAbsorb_fcmd (s : State) (b : List Byte) : (s.spAbsorb b).fcmd = s.fcmd :=
  State.SpongeOnly.fcmd _ _ (s.spongeOnly_spAbsorb b)
@[simp] theorem State.spAbsorb_ieDone (s : State) (b : List Byte) : (s.spAbsorb b).ieDone = s.ieDone :=
  State.SpongeOnly.ieDone _ _ (s.spongeOnly_spAbsorb b)
@[simp] theorem State.spAbsorb_ieErr (s : State) (b : List Byte) : (s.spAbsorb b).ieErr = s.ieErr :=
  State.SpongeOnly.ieErr _ _ (s.spongeOnly_spAbsorb b)
@[simp] theorem State.spAbsorb_cmdLatch (s : State) (b : List Byte) : (s.spAbsorb b).cmdLatch = s.cmdLatch :=
  State.SpongeOnly.cmdLatch _ _ (s.spongeOnly_spAbsorb b)
@[simp] theorem State.spAbsorb_pending (s : State) (b : List Byte) : (s.spAbsorb b).pending = s.pending :=
  State.SpongeOnly.pending _ _ (s.spongeOnly_spAbsorb b)
@[simp] theorem State.spAbsorb_bus (s : State) (b : List Byte) : (s.spAbsorb b).bus = s.bus :=
  State.SpongeOnly.bus _ _ (s.spongeOnly_spAbsorb b)
@[simp] theorem State.spAbsorb_freeCount (s : State) (b : List Byte) : (s.spAbsorb b).freeCount = s.freeCount :=
  State.SpongeOnly.freeCount _ _ (s.spongeOnly_spAbsorb b)
@[simp] theorem State.spAbsorb_big (s : State) (b : List Byte) (k : BigReg) : (s.spAbsorb b).big k = s.big k := by
  simp only [State.big, State.spAbsorb_bigRegs]
@[simp] theorem State.spAbsorb_scal (s : State) (b : List Byte) (k : ScalReg) : (s.spAbsorb b).scal k = s.scal k := by
  simp only [State.scal, State.spAbsorb_scalRegs]
@[simp] theorem State.spAbsorb_scalNat (s : State) (b : List Byte) (k : ScalReg) : (s.spAbsorb b).scalNat k = s.scalNat k := by
  simp only [State.scalNat, State.scal, State.spAbsorb_scalRegs]
@[simp] theorem State.spAbsorb_hLen (s : State) (b : List Byte) : (s.spAbsorb b).hLen = s.hLen := by
  simp only [State.hLen, State.spAbsorb_hashLen]

@[simp] theorem State.spHash_params (s : State) (msg : List Byte) : (s.spHash msg).params = s.params :=
  State.SpongeOnly.params _ _ (s.spongeOnly_spHash msg)
@[simp] theorem State.spHash_bigRegs (s : State) (msg : List Byte) : (s.spHash msg).bigRegs = s.bigRegs :=
  State.SpongeOnly.bigRegs _ _ (s.spongeOnly_spHash msg)
@[simp] theorem State.spHash_scalRegs (s : State) (msg : List Byte) : (s.spHash msg).scalRegs = s.scalRegs :=
  State.SpongeOnly.scalRegs _ _ (s.spongeOnly_spHash msg)
@[simp] theorem State.spHash_dm (s : State) (msg : List Byte) : (s.spHash msg).dm = s.dm :=
  State.SpongeOnly.dm _ _ (s.spongeOnly_spHash msg)
@[simp] theorem State.spHash_xs (s : State) (msg : List Byte) : (s.spHash msg).xs = s.xs :=
  State.SpongeOnly.xs _ _ (s.spongeOnly_spHash msg)
@[simp] theorem State.spHash_xsv (s : State) (msg : List Byte) : (s.spHash msg).xsv = s.xsv :=
  State.SpongeOnly.xsv _ _ (s.spongeOnly_spHash msg)
@[simp] theorem State.spHash_key (s : State) (msg : List Byte) : (s.spHash msg).key = s.key :=
  State.SpongeOnly.key _ _ (s.spongeOnly_spHash msg)
@[simp] theorem State.spHash_mkey (s : State) (msg : List Byte) : (s.spHash msg).mkey = s.mkey :=
  State.SpongeOnly.mkey _ _ (s.spongeOnly_spHash msg)
@[simp] theorem State.spHash_keyv (s : State) (msg : List Byte) : (s.spHash msg).keyv = s.keyv :=
  State.SpongeOnly.keyv _ _ (s.spongeOnly_spHash msg)
@[simp] theorem State.spHash_sb1 (s : State) (msg : List Byte) : (s.spHash msg).sb1 = s.sb1 :=
  State.SpongeOnly.sb1 _ _ (s.spongeOnly_spHash msg)
@[simp] theorem State.spHash_sb2 (s : State) (msg : List Byte) : (s.spHash msg).sb2 = s.sb2 :=
  State.SpongeOnly.sb2 _ _ (s.spongeOnly_spHash msg)
@[simp] theorem State.spHash_sb1v (s : State) (msg : List Byte) : (s.spHash msg).sb1v = s.sb1v :=
  State.SpongeOnly.sb1v _ _ (s.spongeOnly_spHash msg)
@[simp] theorem State.spHash_sb2v (s : State) (msg : List Byte) : (s.spHash msg).sb2v = s.sb2v :=
  State.SpongeOnly.sb2v _ _ (s.spongeOnly_spHash msg)
@[simp] theorem State.spHash_hashLen (s : State) (msg : List Byte) : (s.spHash msg).hashLen = s.hashLen :=
  State.SpongeOnly.hashLen _ _ (s.spongeOnly_spHash msg)
@[simp] theorem State.spHash_squish (s : State) (msg : List Byte) : (s.spHash msg).squish = s.squish :=
  State.SpongeOnly.squish _ _ (s.spongeOnly_spHash msg)
@[simp] theorem State.spHash_busy (s : State) (msg : List Byte) : (s.spHash msg).busy = s.busy :=
  State.SpongeOnly.busy _ _ (s.spongeOnly_spHash msg)
@[simp] theorem State.spHash_done (s : State) (msg : List Byte) : (s.spHash msg).done = s.done :=
  State.SpongeOnly.done _ _ (s.spongeOnly_spHash msg)
@[simp] theorem State.spHash_err (s : State) (msg : List Byte) : (s.spHash msg).err = s.err :=
  State.SpongeOnly.err _ _ (s.spongeOnly_spHash msg)
@[simp] theorem State.spHash_ovr (s : State) (msg : List Byte) : (s.spHash msg).ovr = s.ovr :=
  State.SpongeOnly.ovr _ _ (s.spongeOnly_spHash msg)
@[simp] theorem State.spHash_prime (s : State) (msg : List Byte) : (s.spHash msg).prime = s.prime :=
  State.SpongeOnly.prime _ _ (s.spongeOnly_spHash msg)
@[simp] theorem State.spHash_faultCause (s : State) (msg : List Byte) : (s.spHash msg).faultCause = s.faultCause :=
  State.SpongeOnly.faultCause _ _ (s.spongeOnly_spHash msg)
@[simp] theorem State.spHash_fcmd (s : State) (msg : List Byte) : (s.spHash msg).fcmd = s.fcmd :=
  State.SpongeOnly.fcmd _ _ (s.spongeOnly_spHash msg)
@[simp] theorem State.spHash_ieDone (s : State) (msg : List Byte) : (s.spHash msg).ieDone = s.ieDone :=
  State.SpongeOnly.ieDone _ _ (s.spongeOnly_spHash msg)
@[simp] theorem State.spHash_ieErr (s : State) (msg : List Byte) : (s.spHash msg).ieErr = s.ieErr :=
  State.SpongeOnly.ieErr _ _ (s.spongeOnly_spHash msg)
@[simp] theorem State.spHash_cmdLatch (s : State) (msg : List Byte) : (s.spHash msg).cmdLatch = s.cmdLatch :=
  State.SpongeOnly.cmdLatch _ _ (s.spongeOnly_spHash msg)
@[simp] theorem State.spHash_pending (s : State) (msg : List Byte) : (s.spHash msg).pending = s.pending :=
  State.SpongeOnly.pending _ _ (s.spongeOnly_spHash msg)
@[simp] theorem State.spHash_bus (s : State) (msg : List Byte) : (s.spHash msg).bus = s.bus :=
  State.SpongeOnly.bus _ _ (s.spongeOnly_spHash msg)
@[simp] theorem State.spHash_freeCount (s : State) (msg : List Byte) : (s.spHash msg).freeCount = s.freeCount :=
  State.SpongeOnly.freeCount _ _ (s.spongeOnly_spHash msg)
@[simp] theorem State.spHash_big (s : State) (msg : List Byte) (k : BigReg) : (s.spHash msg).big k = s.big k := by
  simp only [State.big, State.spHash_bigRegs]
@[simp] theorem State.spHash_scal (s : State) (msg : List Byte) (k : ScalReg) : (s.spHash msg).scal k = s.scal k := by
  simp only [State.scal, State.spHash_scalRegs]
@[simp] theorem State.spHash_scalNat (s : State) (msg : List Byte) (k : ScalReg) : (s.spHash msg).scalNat k = s.scalNat k := by
  simp only [State.scalNat, State.scal, State.spHash_scalRegs]
@[simp] theorem State.spHash_hLen (s : State) (msg : List Byte) : (s.spHash msg).hLen = s.hLen := by
  simp only [State.hLen, State.spHash_hashLen]

theorem State.spPermute_ks (s : State) : s.spPermute.ks = ksInit (Table.first s.st (2 * s.hLen)) (2 * s.hLen) := rfl

theorem State.spPermute_ksv (s : State) : s.spPermute.ksv = true := rfl

theorem State.spPermute_st (s : State) : s.spPermute.st = gather (2 * s.hLen) s.spPermute.ks.s s.st := rfl

theorem State.spAbsorb_ksv (s : State) (b : List Byte) : (s.spAbsorb b).ksv = true := rfl

/-! ## The padded input (R184) -/

theorem length_padMessage_mod (h : Nat) (seed msg : List Byte) (hh : 0 < h) :
    (padMessage h seed msg).length % h = 0 := by
  unfold padMessage
  have := Nat.mod_lt (msg ++ seed).length hh
  simp only
  split
  · assumption
  · rw [List.length_append, List.length_replicate, Nat.add_mod]
    have hm : (h - (msg ++ seed).length % h) % h = h - (msg ++ seed).length % h := Nat.mod_eq_of_lt (by omega)
    rw [hm, Nat.add_sub_cancel' (le_of_lt this), Nat.mod_self]

/-- The blocks are the padded input cut into pieces of `H` bytes. -/
theorem flatten_hashBlocks (h : Nat) (seed msg : List Byte) (hh : 0 < h) :
    (hashBlocks h seed msg).flatten = padMessage h seed msg := by
  refine flatten_pieces _ _ _ ?_
  have := length_padMessage_mod h seed msg hh
  rw [Nat.mul_comm, Nat.div_mul_cancel (Nat.dvd_of_mod_eq_zero this)]

theorem length_of_mem_hashBlocks {h : Nat} {seed msg b : List Byte} (hb : b ∈ hashBlocks h seed msg) :
    b.length = h :=
  length_of_mem_pieces (Nat.mul_div_le _ _) hb

end Sys2Proof.Machine
end

