-- ==== Sys2Proof/Tests/Slice0.lean ====
section
/-!
SUPPORT. The model's own tests: the refusals of the well-formedness checks, the decoding of words written out from the
encodings of 30_encoding.md R94, one small step per command with vectors of the spec, and for every statement that has
hypotheses a concrete state that meets them.
-/

namespace Sys2Proof.Tests

set_option Elab.async false

open Sys2Proof.Machine Sys2Proof.Config

/-! ## Well-formedness (00_scope.md R8, R9; 30_encoding.md R95) -/

theorem test_wf_xgcd_14 : Instr.wf (.xgcd 14 0 1) = false := by decide
theorem test_wf_xgcd_15 : Instr.wf (.xgcd 15 0 1) = false := by decide
theorem test_wf_xgcd_13 : Instr.wf (.xgcd 13 0 1) = true := by decide
theorem test_wf_ref : Config.ref.wf = true := by decide +kernel
theorem test_wf_w_not_multiple : { Config.ref with w := 1040 }.wf = false := by decide +kernel
theorem test_wf_w_small : { Config.ref with w := 480 }.wf = false := by decide +kernel
theorem test_wf_w_large : { Config.ref with w := 8224 }.wf = false := by decide +kernel
theorem test_wf_dm_not_multiple : { Config.ref with dmSize := 66 }.wf = false := by decide +kernel
theorem test_wf_dm_small : { Config.ref with dmSize := 60 }.wf = false := by decide +kernel
theorem test_wf_dm_large : { Config.ref with dmSize := 32772 }.wf = false := by decide +kernel
theorem test_wf_xs_zero :
    { Config.ref with xsSteps := #v[⟨.left, 0⟩, ⟨.right, 7⟩, ⟨.left, 17⟩] }.wf = false := by decide +kernel
theorem test_wf_xs_512 :
    { Config.ref with xsSteps := #v[⟨.left, 13⟩, ⟨.right, 7⟩, ⟨.left, 512⟩] }.wf = false := by decide +kernel
theorem test_wf_seed_256 : { Config.ref with hashSeed := List.replicate 256 0 }.wf = false := by decide +kernel
theorem test_wf_poly_bit16 : { Config.ref with gf16Poly := 0x0002B }.wf = false := by decide +kernel
theorem test_wf_poly_reducible : { Config.ref with gf16Poly := 0x10001 }.wf = false := by decide +kernel

/-! ## Decoding: words written out from the rows of R94, most of them the spec's own examples -/

theorem test_decode_nop : decode 0x00000000 = .ok (.nop) := by rfl
theorem test_decode_ldr : decode 0x01834000 = .ok (.ldr 8 3 4) := by rfl
theorem test_decode_str : decode 0x02001000 = .ok (.str 0 0 1) := by rfl
theorem test_decode_modmul : decode 0x10012300 = .ok (.modmul 0 1 2 3) := by rfl
theorem test_decode_modexp : decode 0x11012300 = .ok (.modexp 0 1 2 3) := by rfl
theorem test_decode_xgcd : decode 0x12D01000 = .ok (.xgcd 13 0 1) := by rfl
theorem test_decode_modinv : decode 0x13400100 = .ok (.modinv 4 0 1) := by rfl
theorem test_decode_mrwit : decode 0x14001000 = .ok (.mrwit 0 1) := by rfl
theorem test_decode_mrtest : decode 0x15010005 = .ok (.mrtest 1 5) := by rfl
theorem test_decode_prseed : decode 0x20090000 = .ok (.prseed 9) := by rfl
theorem test_decode_prnext : decode 0x21100000 = .ok (.prnext 1) := by rfl
theorem test_decode_ksinit : decode 0x30001200 = .ok (.ksinit 0 1 2) := by rfl
theorem test_decode_ksnext : decode 0x31300000 = .ok (.ksnext 3) := by rfl
theorem test_decode_ksbytes : decode 0x32506000 = .ok (.ksbytes 5 6) := by rfl
theorem test_decode_ksciph : decode 0x33345000 = .ok (.ksciph 3 4 5) := by rfl
theorem test_decode_ksperm : decode 0x34300000 = .ok (.ksperm 3) := by rfl
theorem test_decode_spinit : decode 0x40000000 = .ok (.spinit) := by rfl
theorem test_decode_spabsb : decode 0x41010000 = .ok (.spabsb 1) := by rfl
theorem test_decode_spperm : decode 0x42000000 = .ok (.spperm) := by rfl
theorem test_decode_spout : decode 0x43200000 = .ok (.spout 2) := by rfl
theorem test_decode_hash : decode 0x44345000 = .ok (.hash 3 4 5) := by rfl
theorem test_decode_keyld : decode 0x50060000 = .ok (.keyld 6) := by rfl
theorem test_decode_keyks : decode 0x51000000 = .ok (.keyks) := by rfl
theorem test_decode_keyrd : decode 0x52500000 = .ok (.keyrd 5) := by rfl
theorem test_decode_sbload0 : decode 0x53000000 = .ok (.sbload .sb1) := by rfl
theorem test_decode_sbload1 : decode 0x53000001 = .ok (.sbload .sb2) := by rfl
theorem test_decode_blkenc : decode 0x54100000 = .ok (.blkenc 1 0) := by rfl
theorem test_decode_blkdec : decode 0x55210000 = .ok (.blkdec 2 1) := by rfl
theorem test_decode_enc : decode 0x56012001 = .ok (.enc 0 1 2 .cbc) := by rfl
theorem test_decode_dec : decode 0x57067003 = .ok (.dec 0 6 7 .ctr) := by rfl
theorem test_illegal_op99 : decode 0x99000000 = .error (.unknownOpcode) := by rfl
theorem test_illegal_nop1 : decode 0x00000001 = .error (.notZero .imm8) := by rfl
theorem test_illegal_xgcd14 : decode 0x12E01000 = .error (.xgcdAbove13) := by rfl
theorem test_illegal_ksnext8 : decode 0x31800000 = .error (.scalarAbove7 .f1) := by rfl
theorem test_illegal_sbload2 : decode 0x53000002 = .error (.immOutOfRange) := by rfl
theorem test_illegal_enc4 : decode 0x56012004 = .error (.immOutOfRange) := by rfl
theorem test_illegal_mrwit_f1 : decode 0x14101000 = .error (.notZero .f1) := by rfl
theorem test_illegal_modinv_f3 : decode 0x13001000 = .error (.notZero .f3) := by rfl
theorem test_illegal_ones : decode 0xFFFFFFFF = .error (.unknownOpcode) := by rfl

theorem test_tableword : decodeTableWord 32 0x54100000 = some (.blkenc 1 0) := by rfl

/-! ## One step of each command -/

/-- What a field of the next state holds, if there is a next state. -/
def after {α : Type} (r : Result) (f : State → α) : Option α :=
  match r with
  | .next t => some (f t)
  | .fault _ => none
  | .refused _ => none

/-- The reference core after reset with some big registers set. -/
def bigs (l : List (BigReg × Nat)) : State := l.foldl (fun s p => s.setBig p.1 p.2) State.reset

/-- The reference core after reset with some scalar registers set and bytes of DM from address `a` on. -/
def core (l : List (ScalReg × Word)) (a : Nat) (bs : List Byte) : State :=
  l.foldl (fun s p => s.setScal p.1 p.2) (State.reset.store a bs)

/-- The fault record. -/
def record (t : State) : Bool × Bool × Bool × Byte := (t.busy, t.done, t.err, t.faultCause)

/-- The keystream unit of the vector "key 01 02 03, N = 8" (95_test_vectors.md section 2.4). -/
def unit8 : Keystream :=
  { s := (((((((Table.zero.set 0 2).set 2 1).set 3 3).set 4 7).set 5 5).set 6 6).set 7 4), n := 8, i := 0, j := 0 }

/-- The table whose entry `k` is byte `k` of a number. -/
def tableOf (n : Nat) : Table := Vector.mk (leBytes 256 n).toArray (by simp [length_leBytes])

/-- The S-box of the key "SBOX1": 44_block_cipher.md R205 prints entries 0 to 15 and entry 255. -/
def refBox1 : Table := tableOf
  0x3dfeacbc4def424153f1a5792db99c6e278f216465e45eabfb55d956109f6b18cbaa7cebdee84c7393c30cbaa0d75d31022598d4d240700bfa616abb46a67a378e12fd8903f66f7bee6626e5969b8336c1ddd39244e0e32886d178d059c27d940552ae19540db0b745ce9177ea749dca5c3833c060583285da5fc66287f5b816cc1dc59714f97276b47f4eed8d2e0480b59e2cd8afe29923a1be6d571fa9e63c08298cdc4f84c9a2ad099ac7a347c8f81c49b1132f3b518ba44b43814a00b63ef23a95246cf4a79088b2d54867505b69e163f375cdbf07db340f8abd0e2a2206ff2015dfe9b38239f0687ed63f2bc40afc30713511eca8011e17cf5a1be71af7

/-- The S-box of the key "SBOX2", likewise. -/
def refBox2 : Table := tableOf
  0x3998a472f885dc0cd179c2e53bb67d02e2e44ff317c7acefd370b162d886bc3e8dfffbea333c82b40d9064ad65ee5eda61257e083181831a40103a5f341d4721354b749f23f0290b1e3fd5bb50cf66b7ca4dcc75fc511c54b9935ca1b0c049ec2427c1b5d9fd77160952f6a914a79ebacbb8de5bc8264ae989aff7364cfa7103286897bfbe6de391a5c60645999259563218a2739abd4e04d7f2abaa6f9de1d243dde6feed95a311cdf50a7688c9df5a558c5da02c012a3de82f94128f6b222db26c8ec39b7b0548db44f969d4576063d67aa680463787309cb37f7c4138000f96a884e06aeb1558e7192e67ae2bc52013f41b0e8ac4f1ce6e07d078428b1f53

/-- A core whose cipher is loaded with the reference key and the reference S-boxes (44_block_cipher.md R205, R206). -/
def loaded (s : State) : State :=
  { s.setKey 0x00112233445566778899AABBCCDDEEFF with
    sb1 := refBox1, sb2 := refBox2, sb1v := true, sb2v := true }

-- R250: STATUS goes to DONE.
theorem test_nop : after (exec .nop State.reset) State.statusWord = some 2 := by decide +kernel

-- R251 example.
theorem test_ldr : after (exec (.ldr 8 3 4) (core [(3, 0x40), (4, 4)] 0x40 [0x78, 0x56, 0x34, 0x12])) (State.big · 8)
    = some 0x12345678 := by decide +kernel
-- 95 section 3.1: 4000 + 200 is reported as BAD_LENGTH, not DM_BOUNDS.
theorem test_ldr_fault : after (exec (.ldr 8 3 4) (core [(3, 4000), (4, 200)] 0 [])) record
    = some (false, false, true, 8) := by decide +kernel

-- R252 example.
theorem test_str : after (exec (.str 0 0 1) ((core [(0, 0x10), (1, 3)] 0 []).setBig 0 0x0102030405))
    (fun t => t.load 0x0F 5) = some [0, 5, 4, 3, 0] := by decide +kernel
theorem test_str_fault : after (exec (.str 0 0 1) (core [(0, 4092), (1, 5)] 0 [])) record
    = some (false, false, true, 9) := by decide +kernel

-- R122 example; the row with a 2048-bit product.
theorem test_modmul : after (exec (.modmul 0 1 2 3) (bigs [(1, 123456789), (2, 987654321), (3, 1000000007)]))
    (State.big · 0) = some 259106859 := by decide +kernel
theorem test_modmul_wide :
    after (exec (.modmul 0 1 1 2) (bigs [(1, 2 ^ 1024 - 1), (2, 2 ^ 1024 - 2)])) (State.big · 0) = some 1 := by
  decide +kernel

-- 95 section 2.1: the aliased form; 0^0 = 1.
theorem test_modexp : after (exec (.modexp 0 0 1 2) (bigs [(0, 4), (1, 13), (2, 497)])) (State.big · 0) = some 445 := by
  decide +kernel
theorem test_modexp_zero : after (exec (.modexp 3 0 1 2) (bigs [(2, 7)])) (State.big · 3) = some 1 := by decide +kernel

-- 95 section 2.1: the destinations overlap the sources; the negative coefficient is two's complement.
theorem test_xgcd : after (exec (.xgcd 0 0 1) (bigs [(0, 240), (1, 46)])) (fun t => (t.big 0, t.big 1, t.big 2))
    = some (2, 2 ^ 1024 - 9, 47) := by decide +kernel

-- R127 example; gcd 3.
theorem test_modinv : after (exec (.modinv 4 0 1) (bigs [(0, 17), (1, 3120)])) (State.big · 4) = some 2753 := by
  decide +kernel
theorem test_modinv_fault : after (exec (.modinv 2 0 1) (bigs [(0, 6), (1, 9)])) record
    = some (false, false, true, 12) := by decide +kernel

-- R131: the strong liar 174 of 221; the base is not looked at for n = 3.
theorem test_mrwit : after (exec (.mrwit 0 1) (bigs [(0, 221), (1, 174)])) State.prime = some true := by decide +kernel
theorem test_mrwit_fault : after (exec (.mrwit 0 1) (bigs [(0, 9), (1, 8)])) record
    = some (false, false, true, 10) := by decide +kernel

-- R132 example: three draws, then composite.
theorem test_mrtest : after (exec (.mrtest 1 5) ((bigs [(1, 561)]).seedXs 1)) (fun t => (t.prime, t.xs.toNat))
    = some (false, 0x40832259b1e842f6e862629) := by decide +kernel
theorem test_mrtest_decided : after (exec (.mrtest 1 9) ((bigs [(1, 2)]).seedXs 1)) (fun t => (t.prime, t.xs.toNat))
    = some (true, 1) := by decide +kernel

-- 95 section 2.3.
theorem test_prseed : after (exec (.prseed 0) (bigs [(0, 2 ^ 512 + 1)])) (fun t => (t.xsv, t.xs.toNat))
    = some (true, 1) := by decide +kernel
theorem test_prseed_fault : after (exec (.prseed 0) (bigs [(0, 2 ^ 512)])) record
    = some (false, false, true, 10) := by decide +kernel
theorem test_prnext : after (exec (.prnext 1) (State.reset.seedXs 0x40822041)) (State.big · 1)
    = some 0x100041060c011441 := by decide +kernel

-- 95 section 2.4, key 01 02 03, N = 8.
theorem test_ksinit : after (exec (.ksinit 0 1 2) (core [(0, 0), (1, 3), (2, 8)] 0 [1, 2, 3]))
    (fun t => (t.ks.used, t.ks.statusWord, t.ksv)) = some ([2, 0, 1, 3, 7, 5, 6, 4], 8, true) := by decide +kernel
theorem test_ksinit_fault : after (exec (.ksinit 0 1 2) (core [(0, 5000), (1, 3), (2, 0)] 0 [])) record
    = some (false, false, true, 8) := by decide +kernel
theorem test_ksnext : after (exec (.ksnext 4) { State.reset with ks := unit8, ksv := true })
    (fun t => (t.scal 4, t.ks.statusWord)) = some (1, 0x00010008) := by decide +kernel
theorem test_ksbytes : after (exec (.ksbytes 5 6) { core [(5, 0x30), (6, 8)] 0 [] with ks := unit8, ksv := true })
    (fun t => (t.load 0x30 9, t.ks.statusWord)) = some ([1, 3, 2, 3, 1, 0, 4, 7, 0], 0x05000008) := by decide +kernel
theorem test_ksciph : after (exec (.ksciph 3 4 5)
      { core [(3, 0x61), (4, 0x60), (5, 4)] 0x60 [8, 8, 8, 8] with ks := unit8, ksv := true })
    (fun t => t.load 0x60 6) = some [8, 9, 11, 10, 11, 0] := by decide +kernel
theorem test_ksperm : after (exec (.ksperm 3) { core [(3, 0x20)] 0 [] with ks := unit8, ksv := true })
    (fun t => t.load 0x20 9) = some [2, 0, 1, 3, 7, 5, 6, 4, 0] := by decide +kernel

/-- The sponge vectors of 95_test_vectors.md section 2.5 use `H = 4`, `SQUISH = 3`. -/
def sponge4 (l : List (ScalReg × Word)) (a : Nat) (bs st : List Byte) : State :=
  { core l a bs with
    hashLen := 4
    st := (List.range 8).foldl (fun t k => t.setIfInBounds k (st.getD k 0)) Table.zero }

theorem test_spinit : after (exec .spinit (sponge4 [] 0 [] [1, 2, 3])) (fun t => (Table.first t.st 8, t.ksv))
    = some ([0x20, 0, 0, 0, 0, 0, 0, 0], false) := by decide +kernel
theorem test_spabsb : after (exec (.spabsb 1) (sponge4 [(1, 0)] 0 [0x61, 0x62, 0x63, 0x47] [0x20]))
    (fun t => (Table.first t.st 8, t.ks.used))
    = some ([0, 0x47, 0x62, 0, 0, 0x63, 0x41, 0], [5, 3, 1, 4, 7, 2, 0, 6]) := by decide +kernel
theorem test_spperm : after (exec .spperm (sponge4 [] 0 [] [0, 0x57, 0x53, 0, 0x63, 0, 0x41, 0x76]))
    (fun t => (Table.first t.st 8, t.ks.statusWord, t.ksv))
    = some ([0x41, 0x53, 0x63, 0x57, 0x76, 0, 0, 0], 8, true) := by decide +kernel
theorem test_spout : after (exec (.spout 0) (sponge4 [(0, 0x40)] 0 [] [0, 0x41, 0x63, 0, 0x57, 0x53, 0x76, 0]))
    (fun t => t.load 0x40 5) = some [0, 0x41, 0x63, 0, 0] := by decide +kernel
theorem test_hash : after (exec (.hash 0 1 2) (sponge4 [(0, 0x40), (1, 0), (2, 3)] 0 [0x61, 0x62, 0x63] [9]))
    (fun t => (t.load 0x40 5, t.ks.n)) = some ([0, 0x41, 0x63, 0, 0], 8) := by decide +kernel
theorem test_hash_fault : after (exec (.hash 0 1 2) { State.reset with hashLen := 129 }) record
    = some (false, false, true, 7) := by decide +kernel

-- R202 example; R204 layout; R203 with the vector of section 2.4 (its two next bytes follow from R162 by hand).
theorem test_keyld : after (exec (.keyld 6) (bigs [(6, 2 ^ 128 + 2)])) (fun t => (t.key, t.mkey, t.keyv))
    = some (2, 0x0123456789ABCDEFFEDCBA9876543212, true) := by decide +kernel
theorem test_keyks : after (exec .keyks { State.reset with ks := unit8, ksv := true })
    (fun t => (leBytes 8 t.key.toNat, t.keyv)) = some ([1, 3, 2, 3, 1, 0, 4, 7], true) := by decide +kernel
theorem test_keyrd : after (exec (.keyrd 5) (State.reset.setKey 0x9542b667284a19a772ca34b781779feb)) (State.big · 5)
    = some 0x9461f300a1e1d4488c168e2ff723adfb9542b667284a19a772ca34b781779feb := by decide +kernel
theorem test_sbload : after (exec (.sbload .sb2)
      { State.reset with ks := { unit8 with s := identityTable 256, n := 256 }, ksv := true })
    (fun t => (t.sb1v, t.sb2v, t.sb2.get 255)) = some (false, true, 255) := by decide +kernel
theorem test_sbload_fault : after (exec (.sbload .sb1) { State.reset with ks := unit8, ksv := true }) record
    = some (false, false, true, 6) := by decide +kernel

-- R205: the entries of the reference S-boxes that the spec prints. R207, R208: the printed values of FI and FO.
theorem test_ref_boxes : (Table.first refBox1 16, refBox1.get 255, Table.first refBox2 16, refBox2.get 255)
    = ([0xf7, 0x1a, 0xe7, 0x1b, 0x5a, 0xcf, 0x17, 0x1e, 0x01, 0xa8, 0xec, 0x11, 0x35, 0x71, 0x30, 0xfc], 0x3d,
       [0x53, 0x1f, 0x8b, 0x42, 0x78, 0xd0, 0x07, 0x6e, 0xce, 0xf1, 0xc4, 0x8a, 0x0e, 0x1b, 0xf4, 0x13], 0x39) := by
  decide +kernel
theorem test_fi : fi (loaded State.reset).cipherCtx 0x1234 0xAB98 = 0x5B67 := by decide +kernel
theorem test_fo : fo (loaded State.reset).cipherCtx (subkeys (loaded State.reset).cipherCtx 0) 0x12345678 = 0x833F6D56 := by
  decide +kernel

-- R211: the printed values of an even and of an odd round.
theorem test_round0 : roundF (loaded State.reset).cipherCtx 0 0x01234567 = 0xAA89BF57 := by decide +kernel
theorem test_round1 : roundF (loaded State.reset).cipherCtx 1 0x01234567 = 0xC264EF9D := by decide +kernel

-- R214 example; the bits of the source from 64 on are ignored.
theorem test_blkenc : after (exec (.blkenc 1 0) (loaded (bigs [(0, 2 ^ 64 + 0x0123456789ABCDEF)]))) (State.big · 1)
    = some 0x221FB2A2264D24E6 := by decide +kernel
theorem test_blkenc_no_box : after (exec (.blkenc 1 0) { loaded State.reset with sb2v := false }) record
    = some (false, false, true, 5) := by decide +kernel

-- 95 section 3.1: an output of 16 bytes at 4088; an empty message completes.
theorem test_enc_fault : after (exec (.enc 0 1 2 .ecb) (loaded (core [(0, 4088), (2, 9)] 0 []))) record
    = some (false, false, true, 9) := by decide +kernel
theorem test_enc_empty : after (exec (.enc 0 1 2 .ctr) (loaded (core [(0, 4096), (2, 0)] 0 []))) record
    = some (false, true, false, 0) := by decide +kernel
-- The first block of R235's CBC example, back to the message's first eight bytes (R236).
theorem test_dec_cbc : after (exec (.dec 0 1 2 .cbc) (loaded (core [(0, 0x80), (2, 8)] 0
      [0xd8, 0x02, 0xc6, 0xc1, 0x39, 0xe4, 0x61, 0x3e])))
    (fun t => t.load 0x80 9) = some [0x47, 0x53, 0x31, 0x35, 0x20, 0x62, 0x6c, 0x6f, 0] := by decide +kernel
theorem test_dec_fault : after (exec (.dec 0 1 2 .cbc) (loaded (core [(0, 5000), (2, 12)] 0 []))) record
    = some (false, false, true, 8) := by decide +kernel

/-! ## The step and the host interface -/

theorem test_fetch_word : after (step (State.reset.withFetchWord 32 0x50060000)) State.keyv = some true := by
  decide +kernel
-- 95 section 3.1: an unknown opcode.
theorem test_illegal_step : after (step (State.reset.withFetchWord 32 0x99000000))
    (fun t => (record t, t.fcmd)) = some ((false, false, true, 1), 0x99000000) := by decide +kernel
-- R25: HCFG resets to 0x00000320.
theorem test_read_hcfg : (State.reset.hostRead 0x18).bus = some (.readOk 0x00000320) := by decide +kernel
-- R61: 0x4800 is the first address after the big registers of the reference core.
theorem test_read_unmapped : ((State.reset.hostRead 0x4800).freeCount, (State.reset.hostRead 0x47FC).bus)
    = (1, some (.readOk 0)) := by decide +kernel
-- R65, R66, R64: word 1 of R2; the DM word at address 4.
theorem test_write_big : (State.reset.hostWrite 0x4104 7).big 2 = 7 * 2 ^ 32 := by decide +kernel
theorem test_write_dm : (State.reset.hostWrite 0x8004 0x01020304).load 3 6 = [0, 4, 3, 2, 1, 0] := by decide +kernel

/-! ## Witnesses: for each statement with hypotheses, a concrete state and operands that meet them together -/

/-- A core with KEYLD R6 in flight, the event `e` to come before the engine's turn. -/
def busyCore (events : List Event) : State :=
  { State.reset with busy := true, cmdLatch := 0x50060000, pending := events }

theorem reset_bigOk : State.reset.BigOk := by unfold State.BigOk; decide +kernel

theorem busyCore_inv (events : List Event) : (busyCore events).Inv where
  params := test_wf_ref
  big := reset_bigOk
  dm := ⟨rfl, rfl⟩
  ks := by intro h; cases h
  ksUnset := fun _ => rfl
  ksTop := by
    intro i _
    change Table.zero.get i = 0
    simp [Table.zero, Vector.get_eq_getElem]
  key := by intro h; cases h
  sb1 := by intro h; cases h
  sb2 := by intro h; cases h
  xs := by intro h; cases h
  busy := fun _ => ⟨rfl, rfl⟩
  doneErr := by rintro ⟨h, -⟩; cases h
  cause := by change (0#8).toNat ≤ 12; decide

/-- A core with a word in flight that is no legal command. -/
def illegalCore (events : List Event) : State := { busyCore events with cmdLatch := 0x99000000 }

/-- A core with a loaded cipher, its S-boxes the identity, and a value in R0. -/
def cipherCore (v : Nat) : State :=
  { loaded (bigs [(0, v)]) with sb1 := identityTable 256, sb2 := identityTable 256 }

theorem cipherCore_loaded (v : Nat) : (cipherCore v).CipherLoaded := ⟨rfl, rfl, rfl⟩

theorem bigOk_bigs : (bigs [(0, 2 ^ 1024 - 1), (1, 46), (2, 3120), (3, 17)]).BigOk := by
  unfold State.BigOk; decide +kernel

theorem unit8_ok : unit8.Ok :=
  ⟨by decide, by decide, by unfold Table.IsPerm; decide +kernel, by decide, by decide⟩

/-- An initialised unit of size 256. -/
def unit256 : Keystream := { s := identityTable 256, n := 256, i := 255, j := 0 }

theorem unit256_ok : unit256.Ok :=
  ⟨by decide, by decide, identityTable_isPerm 256, by decide, by decide⟩

theorem witness_DecodeOfEncode : Instr.wf (.xgcd 13 15 0) = true ∧ Instr.wf (.enc 7 0 7 .ctr) = true := by decide

theorem witness_EncodeOfDecode : decode 0x12D01000 = .ok (.xgcd 13 0 1) := test_decode_xgcd

theorem witness_DecodesIffOneRowPasses : ∃ r ∈ opcodeRows, r.passes 0x12D01000 = true := by decide

theorem witness_StepRunsDecodedCommand :
    ((busyCore [.engine]).busy = true ∧ decode (busyCore [.engine]).cmdLatch = .ok (.keyld 6)) ∧
    ((illegalCore [.engine]).busy = true ∧ decode (illegalCore [.engine]).cmdLatch = .error .unknownOpcode ∧
      (illegalCore [.engine]).pending = .engine :: []) ∧
    ((illegalCore []).busy = true ∧ decode (illegalCore []).cmdLatch = .error .unknownOpcode ∧
      (illegalCore []).pending = []) ∧
    State.reset.busy = false ∧ (busyCore [.engine]).pending = .engine :: [] ∧ (busyCore []).pending = [] :=
  ⟨⟨rfl, rfl⟩, ⟨rfl, rfl, rfl⟩, ⟨rfl, rfl, rfl⟩, rfl, rfl, rfl⟩

theorem witness_ResetMeetsInvariant :
    { Config.ref with w := 512, dmSize := 64 }.wf = true ∧ { Config.ref with w := 8192, dmSize := 32768 }.wf = true := by
  decide +kernel

theorem witness_StepKeepsInvariant : (busyCore [.engine]).Inv ∧ ∃ t, step (busyCore [.engine]) = .next t :=
  ⟨busyCore_inv _, _, rfl⟩

/-- `n` steps. -/
def steps : Nat → State → Result
  | 0, s => .next s
  | n + 1, s => Result.thenRun (step s) (steps n)

theorem reachable_steps {n : Nat} {s t : State} (hs : Reachable s) (h : steps n s = .next t) : Reachable t := by
  induction n generalizing s with
  | zero => cases h; exact hs
  | succ n ih =>
    rw [steps] at h
    cases hst : step s with
    | next u => rw [hst] at h; exact ih (hs.step hst) h
    | fault x => rw [hst] at h; cases h
    | refused x => rw [hst] at h; cases h

/-- A bring-up: seed 1 for PRSEED, `H = 128` and SPPERM to key the unit with `N = 256`, both S-boxes, a key, and a NOP
in flight. -/
def bringUp : State :=
  { State.resetOf Config.ref with pending :=
      [.write 0x4000 1, .write 0x0018 128, .write 0x0004 0x20000000, .engine, .write 0x0004 0x42000000, .engine,
       .write 0x0004 0x53000000, .engine, .write 0x0004 0x53000001, .engine, .write 0x0004 0x50000000, .engine,
       .write 0x0004 0x00000000] }

theorem witness_ReachableStatesMeetR41 : ∃ s, Reachable s ∧
    s.xsv = true ∧ s.ksv = true ∧ s.keyv = true ∧ s.sb1v = true ∧ s.sb2v = true ∧ s.busy = true ∧ s.pending = [] := by
  have h : after (steps 13 bringUp)
      (fun s => (s.xsv && s.ksv && s.keyv && s.sb1v && s.sb2v && s.busy && s.pending.isEmpty)) = some true := by
    decide +kernel
  cases hs : steps 13 bringUp with
  | next s =>
    rw [hs] at h
    simp only [after, Option.some.injEq, Bool.and_eq_true, List.isEmpty_iff] at h
    obtain ⟨⟨⟨⟨⟨⟨h1, h2⟩, h3⟩, h4⟩, h5⟩, h6⟩, h7⟩ := h
    exact ⟨s, reachable_steps (.reset _ test_wf_ref _) hs, h1, h2, h3, h4, h5, h6, h7⟩
  | fault x => cases x
  | refused x => rw [hs] at h; cases h

theorem witness_ResetValues : (busyCore [.reset]).pending = .reset :: [] := rfl

-- Both BAD_LENGTH and DM_BOUNDS apply to this LDR; no cause applies to NOP.
theorem witness_LowestCauseReported :
    (Cause.badLength.applies (.ldr 8 3 4) (core [(3, 4000), (4, 200)] 0 []) ∧
      Cause.dmBounds.applies (.ldr 8 3 4) (core [(3, 4000), (4, 200)] 0 []) ∧
      ∀ c' : Cause, c'.applies (.ldr 8 3 4) (core [(3, 4000), (4, 200)] 0 []) → 8 ≤ c'.code.toNat) ∧
    (∀ c : Cause, ¬c.applies .nop State.reset) ∧
    ((illegalCore []).busy = true ∧ decode (illegalCore []).cmdLatch = .error .unknownOpcode) := by
  refine ⟨⟨by unfold Cause.applies; decide +kernel, by unfold Cause.applies dmRanges; decide +kernel, ?_⟩, ?_,
    rfl, rfl⟩
  · intro c' h
    cases c' <;> first | decide | (exact absurd h (by unfold Cause.applies; decide))
  · intro c
    cases c <;> first | exact id | (unfold Cause.applies; decide)

theorem witness_HostCannotDisturbCommand :
    (busyCore []).Inv ∧ (busyCore []).busy = true ∧ Event.write 0x4000 1 ≠ .engine ∧ Event.write 0x4000 1 ≠ .reset :=
  ⟨busyCore_inv _, rfl, by decide, by decide⟩

theorem witness_ByteAndWordPrimitives : 0 < 1 ∧ (0 < 16 ∧ 15 < 16) ∧ leInt [0x34, 0x12] = 0x1234 ∧
    leBytes 2 0x51234 = [0x34, 0x12] ∧ rotl16 0x8001 15 = 0xC000 := by decide

-- The longest load at the end of DM; the empty load at `DM_SIZE`.
theorem witness_LdrLoadsBytes :
    ((core [(3, 3968), (4, 128)] 0 []).scalNat 4 ≤ Config.ref.w / 8 ∧ (core [(3, 3968), (4, 128)] 0 []).InDm 3968 128) ∧
    ((core [(3, 4096), (4, 0)] 0 []).scalNat 4 ≤ Config.ref.w / 8 ∧ (core [(3, 4096), (4, 0)] 0 []).InDm 4096 0) := by
  unfold State.InDm; decide +kernel

theorem witness_StrStoresBytes :
    (core [(0, 3968), (1, 128)] 0 [1]).dm.wf = true ∧ (core [(0, 3968), (1, 128)] 0 [1]).scalNat 1 ≤ Config.ref.w / 8 ∧
    (core [(0, 3968), (1, 128)] 0 [1]).InDm ((core [(0, 3968), (1, 128)] 0 [1]).scalNat 0) 128 := by
  unfold State.InDm; decide +kernel

theorem witness_ModmulResult : (bigs [(0, 2 ^ 1024 - 1), (1, 46), (2, 3120), (3, 17)]).BigOk ∧
    (bigs [(0, 2 ^ 1024 - 1), (1, 46), (2, 3120), (3, 17)]).big 0 ≠ 0 := ⟨bigOk_bigs, by decide +kernel⟩

theorem witness_ModexpResult : (bigs [(0, 2 ^ 1024 - 1), (1, 46), (2, 3120), (3, 17)]).BigOk ∧
    (bigs [(0, 2 ^ 1024 - 1), (1, 46), (2, 3120), (3, 17)]).big 3 ≠ 0 := ⟨bigOk_bigs, by decide +kernel⟩

-- The last clause at its least width, with the greatest operands.
theorem witness_XgcdContract : 0 < 1 ∧ (2 ≤ 2 ∧ 3 < 2 ^ 2 ∧ 3 < 2 ^ 2) ∧
    xgcd 3 3 = (3, 0, 1) ∧ xgcd 3 2 = (1, 1, -1) ∧ xgcd 1 1 = (1, 0, 1) := by decide

theorem witness_XgcdResult : (bigs [(0, 2 ^ 1024 - 1), (1, 46), (2, 3120), (3, 17)]).BigOk ∧ (13 : BigReg).val ≤ 13 :=
  ⟨bigOk_bigs, by decide⟩

theorem witness_ModinvResult : (bigs [(0, 2 ^ 1024 - 1), (1, 46), (2, 3120), (3, 17)]).BigOk ∧
    (bigs [(0, 2 ^ 1024 - 1), (1, 46), (2, 3120), (3, 17)]).big 2 ≠ 0 ∧
    Nat.gcd ((bigs [(0, 2 ^ 1024 - 1), (1, 46), (2, 3120), (3, 17)]).big 3)
      ((bigs [(0, 2 ^ 1024 - 1), (1, 46), (2, 3120), (3, 17)]).big 2) = 1 := ⟨bigOk_bigs, by decide +kernel⟩

-- R128 at its least n; R129 at its least n with both its bases; R130 at each boundary.
theorem witness_MillerRabinFunctions :
    (3 % 2 = 1 ∧ 3 ≤ 3) ∧ (5 % 2 = 1 ∧ 5 ≤ 5 ∧ 2 ≤ 3 ∧ 3 ≤ 5 - 2 ∧ 5 - 1 = 1 * 2 ^ 2 ∧ 1 % 2 = 1) ∧
    mrPrecheck 1 = some false ∧ mrPrecheck 2 = some true ∧ mrPrecheck 3 = some true ∧ mrPrecheck 4 = some false ∧
    mrPrecheck 5 = none := by decide

theorem witness_MrwitResult :
    (mrUndecided ((bigs [(0, 5), (1, 3)]).big 0) ∧ 2 ≤ (bigs [(0, 5), (1, 3)]).big 1 ∧
      (bigs [(0, 5), (1, 3)]).big 1 ≤ (bigs [(0, 5), (1, 3)]).big 0 - 2) ∧
    (∀ n ∈ [1, 2, 3, 4], ¬mrUndecided ((bigs [(0, n)]).big 0)) := by
  unfold mrUndecided; decide +kernel

theorem witness_MrtestResult : ((bigs [(0, 5)]).seedXs 1).xsv = true ∧ mrUndecided (((bigs [(0, 5)]).seedXs 1).big 0) ∧
    ((bigs [(0, 4)]).seedXs 1).xsv = true ∧ ¬mrUndecided (((bigs [(0, 4)]).seedXs 1).big 0) := by
  unfold mrUndecided; decide +kernel

theorem witness_PrimesAlwaysPass : Nat.Prime (((bigs [(0, 5), (1, 3)]).seedXs 1).big 0) ∧
    ((bigs [(0, 5), (1, 3)]).seedXs 1).xsv = true ∧ 2 ≤ ((bigs [(0, 5), (1, 3)]).seedXs 1).big 1 ∧
    ((bigs [(0, 5), (1, 3)]).seedXs 1).big 1 ≤ ((bigs [(0, 5), (1, 3)]).seedXs 1).big 0 - 2 := by
  have h : ((bigs [(0, 5), (1, 3)]).seedXs 1).big 0 = 5 := by decide +kernel
  rw [h]
  exact ⟨by norm_num, by decide +kernel⟩

theorem witness_PrngCommandResults : (bigs [(0, 2 ^ 512 - 1)]).big 0 % 2 ^ 512 ≠ 0 ∧
    (State.reset.seedXs 1).params.wf = true ∧ (State.reset.seedXs 1).xsv = true := by decide +kernel

theorem witness_ZeroStateNeverReached : Config.ref.wf = true ∧ (bigs [(0, 2 ^ 512)]).big 0 % 2 ^ 512 = 0 ∧
    ∃ s, Reachable s ∧ s.xsv = true :=
  ⟨test_wf_ref, by decide +kernel, witness_ReachableStatesMeetR41.imp fun _ h => ⟨h.1, h.2.1⟩⟩

theorem witness_KeySchedule : ([7] : List Byte) ≠ [] ∧ (1 ≤ 1 ∧ 1 ≤ 256) ∧ (1 ≤ 256 ∧ 256 ≤ 256) := by decide

theorem witness_OutputStep : unit8.Ok ∧ unit256.Ok := ⟨unit8_ok, unit256_ok⟩

theorem witness_KsinitResult :
    let s := core [(0, 4095), (1, 1), (2, 256), (3, 1)] 0 []
    1 ≤ s.scalNat 3 ∧ s.scalNat 3 ≤ 256 ∧ 1 ≤ s.scalNat 2 ∧ s.scalNat 2 ≤ 256 ∧ s.scalNat 1 ≠ 0 ∧
      s.InDm (s.scalNat 0) (s.scalNat 1) := by
  unfold State.InDm; decide +kernel

/-- A core with an initialised unit, an address in S0 and S1 and a length in S2. -/
def ksCore : State := { core [(0, 0x60), (1, 0x5E), (2, 3)] 0x5E [1, 2, 3, 4, 5] with ks := unit8, ksv := true }

theorem witness_KsnextResult : ksCore.ksv = true ∧ ksCore.ks.Ok := ⟨rfl, unit8_ok⟩

theorem witness_KsbytesEqualsKsnexts : ksCore.dm.wf = true ∧ ksCore.ksv = true ∧
    ksCore.InDm (ksCore.scalNat 0) (ksCore.scalNat 2) := by unfold State.InDm; decide +kernel

theorem witness_KsciphResult : ksCore.dm.wf = true ∧ ksCore.ksv = true ∧
    ksCore.InDm (ksCore.scalNat 1) (ksCore.scalNat 2) ∧ ksCore.InDm (ksCore.scalNat 0) (ksCore.scalNat 2) := by
  unfold State.InDm; decide +kernel

theorem witness_KspermResult : ksCore.dm.wf = true ∧ ksCore.ksv = true ∧ ksCore.ks.Ok ∧
    ksCore.InDm (ksCore.scalNat 0) ksCore.ks.n.toNat :=
  ⟨by decide +kernel, rfl, unit8_ok, by unfold State.InDm; decide +kernel⟩

/-- A core with the least hash length and one with the greatest. -/
def hashCore (h : Byte) : State := { core [(0, 0x100), (1, 0), (2, 3), (3, 0x200)] 0 [0x61, 0x62, 0x63] with hashLen := h }

theorem witness_SpinitSpoutResults : (hashCore 1).HashLenOk ∧ (hashCore 128).HashLenOk ∧ (hashCore 128).dm.wf = true ∧
    (hashCore 128).InDm ((hashCore 128).scalNat 0) (hashCore 128).hLen := by
  unfold State.HashLenOk State.InDm; decide +kernel

theorem witness_SppermResult : (hashCore 1).HashLenOk ∧ (hashCore 128).HashLenOk := by
  unfold State.HashLenOk; decide +kernel

theorem witness_SpabsbResult : (hashCore 128).HashLenOk ∧ (hashCore 128).InDm ((hashCore 128).scalNat 1) (hashCore 128).hLen := by
  unfold State.HashLenOk State.InDm; decide +kernel

theorem witness_HashEqualsStaged : (hashCore 4).dm.wf = true ∧ (hashCore 4).HashLenOk ∧
    (hashCore 4).InDm ((hashCore 4).scalNat 1) ((hashCore 4).scalNat 2) ∧
    (hashCore 4).InDm ((hashCore 4).scalNat 0) (hashCore 4).hLen ∧
    (hashCore 4).InDm ((hashCore 4).scalNat 3) (hashCore 4).hLen := by
  unfold State.HashLenOk State.InDm; decide +kernel

-- The same message at two addresses.
theorem witness_DigestDependsOnlyOnMessage :
    let s := hashCore 4
    let s' := { core [(4, 0x10), (5, 0x20), (2, 3)] 0x20 [0x61, 0x62, 0x63] with hashLen := 4 }
    s.dm.wf = true ∧ s'.dm.wf = true ∧ s.HashLenOk ∧ s'.hashLen = s.hashLen ∧ s'.squish = s.squish ∧
      s'.params.hashSeed = s.params.hashSeed ∧ s.InDm (s.scalNat 1) (s.scalNat 2) ∧ s.InDm (s.scalNat 0) s.hLen ∧
      s'.InDm (s'.scalNat 5) (s'.scalNat 2) ∧ s'.InDm (s'.scalNat 4) s'.hLen ∧
      s'.load (s'.scalNat 5) (s'.scalNat 2) = s.load (s.scalNat 1) (s.scalNat 2) := by
  unfold State.HashLenOk State.InDm; decide +kernel

theorem witness_KeyldKeyrdResults : (cipherCore 0).params.wf = true ∧ (cipherCore 0).keyv = true :=
  ⟨test_wf_ref, rfl⟩

theorem witness_KeyksResult : ksCore.ksv = true := rfl

theorem witness_SbloadResult :
    let s := { State.reset with ks := unit256, ksv := true }
    s.ksv = true ∧ s.ks.Ok ∧ s.ks.n.toNat = 256 := ⟨rfl, unit256_ok, rfl⟩

theorem witness_BlkencBlkdecResults : (cipherCore 7).params.wf = true ∧ (cipherCore 7).CipherLoaded :=
  ⟨test_wf_ref, cipherCore_loaded 7⟩

theorem cipherCore_inv : (cipherCore 7).Inv where
  params := test_wf_ref
  big := by unfold State.BigOk; decide +kernel
  dm := ⟨rfl, rfl⟩
  ks := by intro h; cases h
  ksUnset := fun _ => rfl
  ksTop := by
    intro i _
    change Table.zero.get i = 0
    simp [Table.zero, Vector.get_eq_getElem]
  key := fun _ => rfl
  sb1 := fun _ => identityTable_isPerm 256
  sb2 := fun _ => identityTable_isPerm 256
  xs := by intro h; cases h
  busy := by intro h; cases h
  doneErr := by rintro ⟨h, -⟩; cases h
  cause := by change (0#8).toNat ≤ 12; decide

theorem witness_BlockCommandsDependOnlyOnKeyAndBoxes :
    let s := cipherCore 7
    s.Inv ∧ s.CipherLoaded ∧ s.params.nums = s.params.nums ∧ s.params.subkeyTable = s.params.subkeyTable ∧
      s.params.fi = s.params.fi ∧ s.params.gf16Poly = s.params.gf16Poly ∧ s.key = s.key ∧ s.sb1 = s.sb1 ∧
      s.sb2 = s.sb2 ∧ s.big 0 % 2 ^ 64 = 7 :=
  ⟨cipherCore_inv, cipherCore_loaded 7, rfl, rfl, rfl, rfl, rfl, rfl, rfl, by decide +kernel⟩

theorem witness_CipherReferenceValues :
    let c := (cipherCore 0).cipherCtx
    (c.params = Config.ref ∧ c.key = 0x00112233445566778899AABBCCDDEEFF ∧ c.mkey = c.key ^^^ Config.ref.nums) ∧
    ((0x1002B : BitVec 17).getLsbD 16 = true ∧ gf2Irreducible 0x1002B = true ∧ (1 : Half) ≠ 0 ∧ (0xFFFF : Half) ≠ 0) :=
  ⟨⟨rfl, rfl, rfl⟩, by decide +kernel⟩

-- The first even and the last odd round of a context whose `FI_FN` is the reference formula.
theorem witness_RoundFunctions : 0 < 8 ∧ 7 < 8 ∧ (cipherCore 0).cipherCtx.params.fi = .ref := ⟨by decide, by decide, rfl⟩

/-- A core with a loaded cipher, a message of ten bytes and the addresses and lengths of its encryption. -/
def chainCore : State :=
  loaded (core [(0, 0x80), (1, 0), (2, 10), (3, 0xC0), (4, 16), (5, 8)] 0 [0x47, 0x53, 0x31, 0x35, 0x20, 0x62])

theorem witness_EncResult : chainCore.dm.wf = true ∧ chainCore.CipherLoaded ∧
    chainCore.InDm (chainCore.scalNat 1) (chainCore.scalNat 2) ∧
    chainCore.InDm (chainCore.scalNat 0) (8 * ((chainCore.scalNat 2 + 7) / 8)) := by
  unfold State.CipherLoaded State.InDm; decide +kernel

theorem witness_DecResult : chainCore.dm.wf = true ∧ chainCore.CipherLoaded ∧ chainCore.scalNat 4 % 8 = 0 ∧
    chainCore.InDm (chainCore.scalNat 0) (chainCore.scalNat 4) ∧
    chainCore.InDm (chainCore.scalNat 3) (chainCore.scalNat 4) := by
  unfold State.CipherLoaded State.InDm; decide +kernel

theorem witness_EncThenDecRestores : chainCore.dm.wf = true ∧ chainCore.CipherLoaded ∧
    chainCore.InDm (chainCore.scalNat 1) (chainCore.scalNat 2) ∧
    chainCore.scalNat 4 = 8 * ((chainCore.scalNat 2 + 7) / 8) ∧
    chainCore.InDm (chainCore.scalNat 0) (chainCore.scalNat 4) ∧
    chainCore.InDm (chainCore.scalNat 3) (chainCore.scalNat 4) := by
  unfold State.CipherLoaded State.InDm; decide +kernel

theorem witness_CommandIssue :
    ({ State.reset with pending := [.write 0x0004 0x50060000] }.pending = .write 0x0004 0x50060000 :: [] ∧
      State.reset.busy = false ∧ State.reset.err = false) ∧ (busyCore [.write 0x0004 0]).busy = true :=
  ⟨⟨rfl, rfl, rfl⟩, rfl⟩

theorem witness_StatusWriteClears : (busyCore [.write 0x0008 14]).pending = .write 0x0008 14 :: [] := rfl

theorem witness_AcknowledgeRestores :
    let s := busyCore [.write 0x0008 4, .write 0x0004 0]
    s.Inv ∧ s.busy = true ∧ s.pending = .write 0x0008 4 :: .write 0x0004 0 :: [] :=
  ⟨busyCore_inv _, rfl, rfl⟩

theorem witness_StatusAndInterrupt : (busyCore [.read 0x0008]).pending = .read 0x0008 :: [] := rfl

-- Mapped and unmapped addresses on both sides of each boundary of the reference core's window.
theorem witness_HostTransactions :
    (Mapped Config.ref 0x0000#16 ∧ Mapped Config.ref 0x004C#16 ∧ Mapped Config.ref 0x4000#16 ∧
      Mapped Config.ref 0x47FC#16 ∧ Mapped Config.ref 0x8000#16 ∧ Mapped Config.ref 0x8FFC#16) ∧
    (¬Mapped Config.ref 0x0050#16 ∧ ¬Mapped Config.ref 0x3FFC#16 ∧ ¬Mapped Config.ref 0x4800#16 ∧
      ¬Mapped Config.ref 0x7FFC#16 ∧ ¬Mapped Config.ref 0x9000#16 ∧ ¬Mapped Config.ref 0x4001#16) ∧
    (busyCore [.otherWidth true 0]).pending = .otherWidth true 0 :: [] ∧
    (busyCore [.otherWidth false 0]).pending = .otherWidth false 0 :: [] := by
  unfold Mapped; refine ⟨?_, ?_, rfl, rfl⟩ <;> decide +kernel

theorem witness_BusyHostAccess : (busyCore []).busy = true ∧
    (DroppedWhileBusy Config.ref 0x0018#16 ∧ DroppedWhileBusy Config.ref 0x0020#16 ∧ DroppedWhileBusy Config.ref 0x003C#16 ∧
      DroppedWhileBusy Config.ref 0x4000#16 ∧ DroppedWhileBusy Config.ref 0x8FFC#16) ∧
    (HiddenWhileBusy Config.ref 0x001C#16 ∧ HiddenWhileBusy Config.ref 0x0020#16 ∧ HiddenWhileBusy Config.ref 0x003C#16 ∧
      HiddenWhileBusy Config.ref 0x4000#16 ∧ HiddenWhileBusy Config.ref 0x8FFC#16) := by
  unfold DroppedWhileBusy HiddenWhileBusy Mapped; refine ⟨rfl, ?_, ?_⟩ <;> decide +kernel

theorem witness_ControlRegisters : State.reset.params.wf = true ∧ State.reset.busy = false := ⟨test_wf_ref, rfl⟩

theorem witness_BigRegisterWindow : (bigs [(0, 2 ^ 1024 - 1), (1, 46), (2, 3120), (3, 17)]).params.wf = true ∧
    (bigs [(0, 2 ^ 1024 - 1), (1, 46), (2, 3120), (3, 17)]).BigOk ∧
    (bigs [(0, 2 ^ 1024 - 1), (1, 46), (2, 3120), (3, 17)]).busy = false ∧ 31 < Config.ref.w / 32 :=
  ⟨test_wf_ref, bigOk_bigs, rfl, by decide⟩

theorem witness_DataMemoryWindow : ksCore.params.wf = true ∧ ksCore.dm.wf = true ∧ ksCore.busy = false ∧
    4092 % 4 = 0 ∧ 4092 < ksCore.params.dmSize := ⟨test_wf_ref, by decide +kernel, rfl, by decide, by decide⟩

end Sys2Proof.Tests
end

