-- ==== Sys2Proof/Proofs/Scope.lean ====
section
/-!
PROOFS. The conventions on integers, bytes and words (00_scope.md): `le_int` as a sum over the positions, bytes of
`le_bytes` and of a range of DM read with a default, and the rotation of a 16-bit word.
-/

namespace Sys2Proof.Machine

/-- `le_int` is positional: byte `k` has weight `2^(8k)` (R12). -/
theorem leInt_eq_sum (b : List Byte) :
    leInt b = ∑ k ∈ Finset.range b.length, (b.getD k 0).toNat * 2 ^ (8 * k) := by
  induction b with
  | nil => rfl
  | cons x xs ih =>
    have weight_succ (k : Nat) : 2 ^ (8 * (k + 1)) = 256 * 2 ^ (8 * k) := by
      rw [Nat.mul_succ, Nat.pow_add, Nat.mul_comm]
    rw [leInt, ih, List.length_cons, Finset.sum_range_succ', Finset.mul_sum, Nat.add_comm]
    simp [weight_succ, Nat.mul_left_comm]

/-- Byte `k` of `le_bytes(v, n)` is bits `[8k+7:8k]` of `v` (R12). -/
theorem toNat_getD_leBytes {n k : Nat} (v : Nat) (h : k < n) :
    ((leBytes n v).getD k 0).toNat = v / 2 ^ (8 * k) % 2 ^ 8 := by
  rw [List.getD_eq_getElem?_getD, getElem?_leBytes v h, Option.getD_some, BitVec.toNat_ofNat, Nat.pow_mul]

/-- A rotation by 0 is the identity, under the first clause of R13. -/
@[simp] theorem rotl16_zero (v : Half) : rotl16 v 0 = v := rfl

/-- Byte `k` of a range of DM is the byte at `addr + k` (`MemRead`, R14). -/
theorem State.getD_load (s : State) (addr : Nat) {n k : Nat} (h : k < n) :
    (s.load addr n).getD k 0 = s.dm.read (addr + k) := by
  rw [List.getD_eq_getElem?_getD, State.load, Memory.getElem?_readBytes _ h, Option.getD_some]

/-- Settles O14: a clause per primitive; the rotation is its integer reading `toNat_rotl16`, which covers `k = 0`. -/
theorem byteAndWordPrimitives : Obligations.ByteAndWordPrimitives :=
  ⟨leInt_eq_sum,
    fun n v => ⟨length_leBytes n v, fun _ h => toNat_getD_leBytes v h⟩,
    fun v => ⟨rotl16_zero v, fun k _ => toNat_rotl16 v k⟩,
    fun s addr n => ⟨s.length_load addr n, fun _ h => s.getD_load addr h⟩⟩

end Sys2Proof.Machine
end

/-!
PROOFS. The state and what keeps its invariants (10_state.md). A completing command is a chain of the named updates of
Machine/ inside its footprint (`State.Writes`); that is said once for all commands (`exec_ends`), and the frame of a
command, the invariant and the validity flags each follow by one induction over the chain.
-/

namespace Sys2Proof.Machine

open Sys2Proof.Config (Params)

/-! ## The writes of a command -/

/-- The state `t` comes from `s` by the named updates, each inside the footprint `f` and each under the condition that
the checks of its command establish. -/
inductive State.Writes (s : State) (f : Footprint) : State → Prop where
  | nothing : State.Writes s f s
  | setBig {t : State} (h : State.Writes s f t) {k : BigReg} (v : Nat) (hk : k ∈ f.big) :
    State.Writes s f (t.setBig k v)
  | setScal {t : State} (h : State.Writes s f t) {k : ScalReg} (v : Word) (hk : k ∈ f.scal) :
    State.Writes s f (t.setScal k v)
  | store {t : State} (h : State.Writes s f t) {bs : List Byte} (hlen : bs.length ≤ f.dmLen)
    (hdm : f.dmAddr + f.dmLen ≤ s.params.dmSize) : State.Writes s f (t.store f.dmAddr bs)
  | setPrime {t : State} (h : State.Writes s f t) (b : Bool) (hf : f.prime = true) : State.Writes s f (t.setPrime b)
  | setXs {t : State} (h : State.Writes s f t) (n : Nat) (hf : f.xs = true) :
    State.Writes s f (t.setXs ((xsStep t.params.xsSteps)^[n] t.xs))
  | seedXs {t : State} (h : State.Writes s f t) {v : BitVec 512} (hv : v ≠ 0) (hf : f.xs = true)
    (hfv : f.xsv = true) : State.Writes s f (t.seedXs v)
  | setKs {t : State} (h : State.Writes s f t) (n : Nat) (hksv : t.ksv = true) (hf : f.ks = true) :
    State.Writes s f (t.setKs (ksTake n t.ks).2)
  | initKs {t : State} (h : State.Writes s f t) (key : List Byte) {n : Nat} (hpos : 1 ≤ n) (hle : n ≤ 256)
    (hf : f.ks = true) (hfv : f.ksv = true) : State.Writes s f (t.initKs key n)
  | setSt {t : State} (h : State.Writes s f t) (x : Table) (hf : f.st = true) : State.Writes s f (t.setSt x)
  | setKey {t : State} (h : State.Writes s f t) (k : BitVec 128) (hf : f.key = true) (hfv : f.keyv = true) :
    State.Writes s f (t.setKey k)
  | setSb1 {t : State} (h : State.Writes s f t) (hksv : t.ksv = true) (hn : t.ks.n.toNat = 256)
    (hf : f.sb1 = true) : State.Writes s f (t.setSb1 t.ks.s)
  | setSb2 {t : State} (h : State.Writes s f t) (hksv : t.ksv = true) (hn : t.ks.n.toNat = 256)
    (hf : f.sb2 = true) : State.Writes s f (t.setSb2 t.ks.s)

theorem State.HashLenOk.congr {s t : State} (h : s.HashLenOk) (heq : t.hashLen = s.hashLen) : t.HashLenOk := by
  unfold State.HashLenOk State.hLen
  rw [heq]
  exact h

namespace State.Writes

variable {s t : State} {f : Footprint}

/-- The sponge permutation re-keys the keystream unit and writes the sponge state (43_sponge_hash.md R182). -/
theorem spPermute (h : s.Writes f t) (hlen : t.HashLenOk) (hst : f.st = true) (hks : f.ks = true)
    (hksv : f.ksv = true) : s.Writes f t.spPermute := by
  obtain ⟨hpos, hle⟩ := hlen
  unfold State.spPermute
  exact (h.initKs (n := 2 * t.hLen) _ (by omega) (by omega) hks hksv).setSt _ hst

theorem spAbsorb (h : s.Writes f t) (b : List Byte) (hlen : t.HashLenOk) (hst : f.st = true) (hks : f.ks = true)
    (hksv : f.ksv = true) : s.Writes f (t.spAbsorb b) := by
  unfold State.spAbsorb
  exact (h.setSt _ hst).spPermute (hlen.congr (t.setSt_hashLen _)) hst hks hksv

theorem spAbsorbAll (h : s.Writes f t) (bs : List (List Byte)) (hlen : t.HashLenOk) (hst : f.st = true)
    (hks : f.ks = true) (hksv : f.ksv = true) : s.Writes f (t.spAbsorbAll bs) := by
  induction bs generalizing t with
  | nil => exact h
  | cons b bs ih =>
    rw [State.spAbsorbAll_cons]
    exact ih (h.spAbsorb b hlen hst hks hksv) (hlen.congr (t.spAbsorb_hashLen b))

theorem spSqueeze (h : s.Writes f t) (n : Nat) (hlen : t.HashLenOk) (hst : f.st = true) (hks : f.ks = true)
    (hksv : f.ksv = true) : s.Writes f (t.spSqueeze n) := by
  induction n generalizing t with
  | zero => exact h
  | succ n ih =>
    rw [State.spSqueeze_succ]
    exact ih (h.spPermute hlen hst hks hksv) (hlen.congr t.spPermute_hashLen)

/-- A complete hash (43_sponge_hash.md R184) writes the sponge state and the keystream unit. -/
theorem spHash (h : s.Writes f t) (msg : List Byte) (hlen : t.HashLenOk) (hst : f.st = true) (hks : f.ks = true)
    (hksv : f.ksv = true) : s.Writes f (t.spHash msg) := by
  have hinit : s.Writes f t.spInit := h.setSt _ hst
  have hlenInit : t.spInit.HashLenOk := hlen.congr rfl
  unfold State.spHash
  exact (hinit.spAbsorbAll _ hlenInit hst hks hksv).spSqueeze _
    (hlenInit.congr (State.SpongeOnly.hashLen _ _ (State.spongeOnly_spAbsorbAll _ _))) hst hks hksv

end State.Writes

/-! ## What a command can do -/

/-- The result of a command that either makes a fault entry or completes with writes inside the footprint `f`
(60_exceptions.md R304). -/
def State.Ends (s : State) (f : Footprint) (r : Result) : Prop :=
  (∃ c, r = raise c s) ∨ ∃ t, s.Writes f t ∧ r = succeed t

namespace State.Ends

variable {s t : State} {f : Footprint} {r : Result}

theorem fault (c : Cause) : s.Ends f (raise c s) := .inl ⟨c, rfl⟩

theorem complete (h : s.Writes f t) : s.Ends f (succeed t) := .inr ⟨t, h, rfl⟩

/-- One check of a command: what follows it may use that it passed. -/
theorem check {p : Prop} [Decidable p] {c : Cause} (h : ¬p → s.Ends f r) :
    s.Ends f (if p then raise c s else r) := by
  split
  · exact fault c
  · exact h ‹_›

/-- The check of one range of DM (20_memory.md R63). -/
theorem checkDm {a n : Nat} (h : a + n ≤ s.params.dmSize → s.Ends f r) :
    s.Ends f (if s.outOfDm a n then raise .dmBounds s else r) :=
  check fun hp => h ((s.outOfDm_eq_false_iff a n).mp (Bool.not_eq_true _ ▸ hp))

/-- The check of a source and a destination range of DM, of which a write needs the second. -/
theorem checkDmPair {a n a' n' : Nat} (h : a' + n' ≤ s.params.dmSize → s.Ends f r) :
    s.Ends f (if s.outOfDm a n || s.outOfDm a' n' then raise .dmBounds s else r) := by
  refine check fun hp => h ((s.outOfDm_eq_false_iff a' n').mp ?_)
  simp only [Bool.or_eq_true, not_or, Bool.not_eq_true] at hp
  exact hp.2

/-- The check of the hash configuration (43_sponge_hash.md R180). -/
theorem checkHcfg (h : s.HashLenOk → s.Ends f r) : s.Ends f (if s.hcfgBad then raise .hcfgInvalid s else r) := by
  refine check fun hp => h ?_
  simp only [State.hcfgBad, Bool.or_eq_true, decide_eq_true_eq] at hp
  exact ⟨by omega, by omega⟩

/-- The check that a unit is valid. -/
theorem checkValid {b : Bool} {c : Cause} (h : b = true → s.Ends f r) :
    s.Ends f (if b = false then raise c s else r) :=
  check fun hp => h (Bool.eq_true_of_not_eq_false hp)

end State.Ends

/-! ## What each command does -/

open State (Writes)

theorem length_encMessage (c : CipherCtx) (mode : Mode) (msg : List Byte) :
    (encMessage c mode msg).length = 8 * ((msg.length + 7) / 8) := by
  rw [encMessage, length_bytesOf, length_encChain, length_blocksOf]

theorem length_decMessage (c : CipherCtx) (mode : Mode) (msg : List Byte) :
    (decMessage c mode msg).length = 8 * ((msg.length + 7) / 8) := by
  rw [decMessage, length_bytesOf, length_decChain, length_blocksOf]

theorem execMrwit_ends (rn rbase : BigReg) (s : State) :
    s.Ends (footprint (.mrwit rn rbase) s) (execMrwit rn rbase s) := by
  unfold execMrwit
  split
  · exact .complete (Writes.nothing.setPrime _ rfl)
  · exact .check fun _ => .complete (Writes.nothing.setPrime _ rfl)

/-- MRTEST leaves the PRNG some number of steps on (40_number_theory.md R132). -/
theorem execMrtest_ends (rn : BigReg) (iters : Byte) (s : State) :
    s.Ends (footprint (.mrtest rn iters) s) (execMrtest rn iters s) := by
  refine .checkValid fun _ => ?_
  split
  · exact .complete (Writes.nothing.setPrime _ rfl)
  · obtain ⟨n, -, hxs, -⟩ := mrTestLoop_spec s.params.xsSteps (s.big rn) iters.toNat s.xs
    simp only [hxs]
    exact .complete ((Writes.nothing.setXs n rfl).setPrime _ rfl)

theorem execSbload_ends (box : Box) (s : State) : s.Ends (footprint (.sbload box) s) (execSbload box s) := by
  refine .checkValid fun hksv => .check fun hn => ?_
  cases box
  · exact .complete (Writes.nothing.setSb1 hksv (not_not.mp hn) rfl)
  · exact .complete (Writes.nothing.setSb2 hksv (not_not.mp hn) rfl)

theorem execBlkenc_ends (rd ra : BigReg) (s : State) :
    s.Ends (footprint (.blkenc rd ra) s) (execBlkenc rd ra s) := by
  unfold execBlkenc
  split
  · exact .fault _
  · exact .complete (Writes.nothing.setBig _ (List.mem_singleton_self _))

theorem execBlkdec_ends (rd ra : BigReg) (s : State) :
    s.Ends (footprint (.blkdec rd ra) s) (execBlkdec rd ra s) := by
  unfold execBlkdec
  split
  · exact .fault _
  · exact .complete (Writes.nothing.setBig _ (List.mem_singleton_self _))

theorem execEnc_ends (sDst sSrc sLen : ScalReg) (mode : Mode) (s : State) :
    s.Ends (footprint (.enc sDst sSrc sLen mode) s) (execEnc sDst sSrc sLen mode s) := by
  unfold execEnc
  split
  · exact .fault _
  · exact .checkDmPair fun hdm => .complete (Writes.nothing.store (by simp [footprint, length_encMessage]) hdm)

theorem execDec_ends (sDst sSrc sLen : ScalReg) (mode : Mode) (s : State) :
    s.Ends (footprint (.dec sDst sSrc sLen mode) s) (execDec sDst sSrc sLen mode s) := by
  unfold execDec
  split
  · exact .fault _
  · refine .check fun hmul => .checkDmPair fun hdm => .complete (Writes.nothing.store ?_ hdm)
    rw [length_decMessage, State.length_load]
    simp only [footprint]
    omega

theorem execHash_ends (sDst sSrc sLen : ScalReg) (s : State) :
    s.Ends (footprint (.hash sDst sSrc sLen) s) (execHash sDst sSrc sLen s) := by
  refine .checkHcfg fun hlen => .checkDmPair fun hdm => ?_
  refine .complete ((Writes.nothing.spHash _ hlen rfl rfl rfl).store ?_ hdm)
  rw [State.digest, State.spHash_hLen]
  exact (length_first _ (by have := hlen.2; omega)).le

/-- Every command makes a fault entry or completes with writes inside its footprint. -/
theorem exec_ends (i : Instr) (s : State) : s.Ends (footprint i s) (exec i s) := by
  have hnone {f : Footprint} : s.Writes f s := .nothing
  cases i with
  | nop => exact .complete hnone
  | ldr rd sSrc sLen =>
    exact .check fun _ => .checkDm fun _ => .complete (hnone.setBig _ (List.mem_singleton_self rd))
  | str sDst ra sLen =>
    exact .check fun _ => .checkDm fun hdm => .complete (hnone.store (length_leBytes ..).le hdm)
  | modmul rd ra rb rm => exact .check fun _ => .complete (hnone.setBig _ (List.mem_singleton_self rd))
  | modexp rd ra rb rm => exact .check fun _ => .complete (hnone.setBig _ (List.mem_singleton_self rd))
  | xgcd rd ra rb =>
    exact .check fun _ => .complete
      (((hnone.setBig _ (by simp [footprint])).setBig _ (by simp [footprint])).setBig _ (by simp [footprint]))
  | modinv rd ra rm =>
    exact .check fun _ => .check fun _ => .complete (hnone.setBig _ (List.mem_singleton_self rd))
  | mrwit rn rbase => exact execMrwit_ends rn rbase s
  | mrtest rn iters => exact execMrtest_ends rn iters s
  | prseed ra => exact .check fun hv => .complete (hnone.seedXs hv rfl rfl)
  | prnext rd =>
    exact .checkValid fun _ => .complete ((hnone.setXs 1 rfl).setBig _ (List.mem_singleton_self rd))
  | ksinit sKey sLen sN =>
    exact .check fun hn => .checkDm fun _ => .complete (hnone.initKs _ (by omega) (by omega) rfl rfl)
  | ksnext sd =>
    exact .checkValid fun hksv => .complete ((hnone.setKs 1 hksv rfl).setScal _ (List.mem_singleton_self sd))
  | ksbytes sDst sLen =>
    exact .checkValid fun hksv => .checkDm fun hdm =>
      .complete ((hnone.setKs _ hksv rfl).store (length_ksTake ..).le hdm)
  | ksciph sDst sSrc sLen =>
    exact .checkValid fun hksv => .checkDmPair fun hdm =>
      .complete ((hnone.setKs _ hksv rfl).store (by simp [length_xorBytes, footprint]) hdm)
  | ksperm sDst =>
    exact .checkValid fun _ => .checkDm fun hdm => .complete (hnone.store (List.length_take_le ..) hdm)
  | spinit => exact .checkHcfg fun _ => .complete (hnone.setSt _ rfl)
  | spabsb sSrc =>
    exact .checkHcfg fun hlen => .checkDm fun _ => .complete (hnone.spAbsorb _ hlen rfl rfl rfl)
  | spperm => exact .checkHcfg fun hlen => .complete (hnone.spPermute hlen rfl rfl rfl)
  | spout sDst =>
    exact .checkHcfg fun hlen => .checkDm fun hdm =>
      .complete (hnone.store (length_first _ (by have := hlen.2; omega)).le hdm)
  | hash sDst sSrc sLen => exact execHash_ends sDst sSrc sLen s
  | keyld ra => exact .complete (hnone.setKey _ rfl rfl)
  | keyks => exact .checkValid fun hksv => .complete ((hnone.setKs 16 hksv rfl).setKey _ rfl rfl)
  | keyrd rd => exact .checkValid fun _ => .complete (hnone.setBig _ (List.mem_singleton_self rd))
  | sbload box => exact execSbload_ends box s
  | blkenc rd ra => exact execBlkenc_ends rd ra s
  | blkdec rd ra => exact execBlkdec_ends rd ra s
  | enc sDst sSrc sLen mode => exact execEnc_ends sDst sSrc sLen mode s
  | dec sDst sSrc sLen mode => exact execDec_ends sDst sSrc sLen mode s

/-! ## The frame of a command -/

/-- A chain of writes followed by the completion is a completion inside the footprint. -/
theorem State.Writes.completesIn {s t : State} {f : Footprint} (h : s.Writes f t) : s.CompletesIn t.finish f := by
  induction h with
  | nothing => constructor <;> simp
  | @setBig t _ k v hk ih =>
    exact { ih with big := fun j hj => (State.big_setBig_ne t v (ne_of_mem_of_not_mem hk hj).symm).trans (ih.big j hj) }
  | @setScal t _ k v hk ih =>
    have hne : ∀ j, j ∉ f.scal → (t.setScal k v).scal j = t.scal j := fun j hj => by
      rw [State.scal_setScal, if_neg (ne_of_mem_of_not_mem hk hj)]
    exact { ih with scal := fun j hj => (hne j hj).trans (ih.scal j hj) }
  | @store t _ bs hlen _ ih =>
    exact { ih with dm := fun a ha => (t.dm.read_writeBytes_outside bs (by omega)).trans (ih.dm a ha) }
  | setPrime _ _ hf ih => exact { ih with prime := by simp [hf] }
  | setXs _ _ hf ih => exact { ih with xs := by simp [hf] }
  | seedXs _ _ hf hfv ih => exact { ih with xs := by simp [hf], xsv := by simp [hfv] }
  | setKs _ _ _ hf ih => exact { ih with ks := by simp [hf] }
  | initKs _ _ _ _ hf hfv ih => exact { ih with ks := by simp [hf], ksv := by simp [hfv] }
  | setSt _ _ hf ih => exact { ih with st := by simp [hf] }
  | setKey _ _ hf hfv ih => exact { ih with key := by simp [hf], keyv := by simp [hfv] }
  | setSb1 _ _ _ hf ih => exact { ih with sb1 := by simp [hf] }
  | setSb2 _ _ _ hf ih => exact { ih with sb2 := by simp [hf] }

/-- The fault entry of the model is the fault entry of R303 with the cause's code. -/
theorem State.faultEntry_eq_faulted (s : State) (c : Cause) : s.faultEntry c = s.faulted c.code.toNat := by
  unfold State.faultEntry State.faulted
  rw [BitVec.ofNat_toNat, BitVec.setWidth_eq]

/-- Settles O12: every command ends in a fault entry or in a chain of writes inside its footprint (`exec_ends`). -/
theorem commandFootprint : Obligations.CommandFootprint := by
  intro i s
  rcases exec_ends i s with ⟨c, hc⟩ | ⟨t, ht, heq⟩
  · exact .inl ⟨c, by rw [hc, raise, State.faultEntry_eq_faulted]⟩
  · exact .inr ⟨t.finish, heq, ht.completesIn⟩

/-! ## The invariant under each update

An update of one field leaves the clauses about the other fields as they stand, by definition. -/

/-- A legal PRNG never steps to the all-zero state from another one (41_prng.md R154). -/
theorem xsStep_ne_zero {p : Config.Params} (hp : p.wf = true) {x : BitVec 512} (hx : x ≠ 0) :
    xsStep p.xsSteps x ≠ 0 := by
  have hshift (k : Fin 3) {y : BitVec 512} (hy : y ≠ 0) : xsShift (p.xsSteps.get k) y ≠ 0 := fun h =>
    hy (xsShift_injective (amount_pos_of_wf hp k) y 0 (h.trans (xsShift_zero _).symm))
  exact hshift 2 (hshift 1 (hshift 0 hx))

theorem iterate_xsStep_ne_zero {p : Config.Params} (hp : p.wf = true) {x : BitVec 512} (hx : x ≠ 0) (n : Nat) :
    (xsStep p.xsSteps)^[n] x ≠ 0 := by
  induction n generalizing x with
  | zero => exact hx
  | succ n ih => exact ih (xsStep_ne_zero hp hx)

theorem Cause.code_le (c : Cause) : c.code.toNat ≤ 12 := by cases c <;> decide

namespace State.Inv

variable {s : State}

theorem setBig (h : s.Inv) (k : BigReg) (v : Nat) : (s.setBig k v).Inv :=
  { h with big := s.bigOk_setBig k v h.big }

theorem setScal (h : s.Inv) (k : ScalReg) (v : Word) : (s.setScal k v).Inv := { h with big := h.big }

theorem store (h : s.Inv) {a : Nat} {bs : List Byte} (hdm : a + bs.length ≤ s.params.dmSize) : (s.store a bs).Inv :=
  { h with dm := ⟨s.dm.wf_writeBytes a bs h.dm.1, s.dm.below_writeBytes bs hdm h.dm.2⟩ }

theorem setPrime (h : s.Inv) (b : Bool) : (s.setPrime b).Inv := { h with big := h.big }

theorem setXs (h : s.Inv) (n : Nat) : (s.setXs ((xsStep s.params.xsSteps)^[n] s.xs)).Inv :=
  { h with xs := fun hv => iterate_xsStep_ne_zero h.params (h.xs hv) n }

theorem seedXs (h : s.Inv) {v : BitVec 512} (hv : v ≠ 0) : (s.seedXs v).Inv := { h with xs := fun _ => hv }

theorem setKs (h : s.Inv) (hksv : s.ksv = true) (n : Nat) : (s.setKs (ksTake n s.ks).2).Inv := by
  have hok := h.ks hksv
  rw [ksTake_unit]
  refine { h with
    ks := fun _ => Keystream.iterate_advance_ok hok n
    ksUnset := fun hun => absurd hksv (Bool.eq_false_iff.mp hun)
    ksTop := fun i hi => ?_ }
  rw [State.setKs_ks, Keystream.iterate_advance_n] at hi
  exact (Keystream.iterate_advance_top hok n hi).trans (h.ksTop i hi)

theorem initKs (h : s.Inv) (key : List Byte) {n : Nat} (hpos : 1 ≤ n) (hle : n ≤ 256) : (s.initKs key n).Inv :=
  { h with
    ks := fun _ => ksInit_ok key hpos hle
    ksUnset := nofun
    ksTop := fun i hi => ksInit_top key hle i (ksInit_n key hle ▸ hi) }

theorem setSt (h : s.Inv) (x : Table) : (s.setSt x).Inv := { h with big := h.big }

theorem setKey (h : s.Inv) (k : BitVec 128) : (s.setKey k).Inv := { h with key := fun _ => rfl }

/-- The array of an initialised unit of size 256 is an S-box (44_block_cipher.md R205). -/
theorem isPerm_ks (h : s.Inv) (hksv : s.ksv = true) (hn : s.ks.n.toNat = 256) : Table.IsPerm s.ks.s 256 :=
  hn ▸ (h.ks hksv).perm

theorem setSb1 (h : s.Inv) (hksv : s.ksv = true) (hn : s.ks.n.toNat = 256) : (s.setSb1 s.ks.s).Inv :=
  { h with sb1 := fun _ => h.isPerm_ks hksv hn }

theorem setSb2 (h : s.Inv) (hksv : s.ksv = true) (hn : s.ks.n.toNat = 256) : (s.setSb2 s.ks.s).Inv :=
  { h with sb2 := fun _ => h.isPerm_ks hksv hn }

theorem finish (h : s.Inv) (herr : s.err = false) : s.finish.Inv :=
  { h with busy := nofun, doneErr := fun hde => absurd hde.2 (Bool.eq_false_iff.mp herr) }

/-- A fault entry keeps the invariant: while BUSY, DONE is 0. -/
theorem faultEntry (h : s.Inv) (hbusy : s.busy = true) (c : Cause) : (s.faultEntry c).Inv :=
  { h with
    busy := nofun
    doneErr := fun hde => absurd hde.1 (Bool.eq_false_iff.mp (h.busy hbusy).1)
    cause := c.code_le }

theorem accept (h : s.Inv) (herr : s.err = false) (w : Word) : (s.accept w).Inv :=
  { h with busy := fun _ => ⟨rfl, herr⟩, doneErr := nofun }

theorem dropWrite (h : s.Inv) : s.dropWrite.Inv := { h with big := h.big }

theorem issue (h : s.Inv) (w : Word) : (s.issue w).Inv := by
  unfold State.issue
  split
  next hfree => exact h.accept hfree.2 w
  next => exact h.dropWrite

theorem setIen (h : s.Inv) (w : Word) : (s.setIen w).Inv := { h with big := h.big }

theorem respond (h : s.Inv) (r : BusResponse) : (s.respond r).Inv := { h with big := h.big }

theorem respondFree (h : s.Inv) (r : Word → BusResponse) : (s.respondFree r).Inv := { h with big := h.big }

theorem setPending (h : s.Inv) (es : List Event) : State.Inv { s with pending := es } := { h with big := h.big }

theorem setHcfg (h : s.Inv) (x y : Byte) : State.Inv { s with hashLen := x, squish := y } := { h with big := h.big }

end State.Inv

/-! ## The host window -/

/-- A legal DM_SIZE is a multiple of 4 (00_scope.md R8). -/
theorem dmSize_mod_of_wf {p : Params} (hp : p.wf = true) : p.dmSize % 4 = 0 := by
  simp only [Config.Params.wf, Config.dmSizeLegal, Bool.and_eq_true, beq_iff_eq] at hp
  exact hp.1.1.1.1.2.1.1

/-- A control address names no word of DM. -/
theorem controlTarget_ne_dmWord (a b : Nat) : controlTarget a ≠ some (.dmWord b) := by
  unfold controlTarget
  split <;> simp

/-- An aligned DM word of the window lies inside DM (20_memory.md R61, R66). -/
theorem dmWord_bound {p : Params} (hp : p.wf = true) {addr : BitVec 16} {a : Nat}
    (h : target p addr = some (.dmWord a)) : a + 4 ≤ p.dmSize := by
  have hsize := dmSize_mod_of_wf hp
  unfold target at h
  simp only at h
  split at h
  · cases h
  split at h
  · exact absurd h (controlTarget_ne_dmWord _ _)
  split at h
  · cases h
  split at h
  · simp only [Option.some.injEq, Target.dmWord.injEq] at h
    omega
  · cases h

/-- A write to STATUS clears DONE, ERR, OVR where the written bit is 1 (10_state.md R28). -/
theorem State.clearStatus_eq (s : State) (w : Word) :
    s.clearStatus w = { s with
      done := if w.getLsbD 1 then false else s.done
      err := if w.getLsbD 2 then false else s.err
      ovr := if w.getLsbD 3 then false else s.ovr } := by
  unfold State.clearStatus State.acknowledge
  split <;> simp [*, Bool.and_comm]

namespace State.Inv

variable {s t : State}

theorem clearStatus (h : s.Inv) (w : Word) : (s.clearStatus w).Inv := by
  rw [State.clearStatus_eq]
  refine { h with busy := fun hb => ?_, doneErr := ?_ }
  · obtain ⟨hdone, herr⟩ := h.busy hb
    simp [hdone, herr]
  · rintro ⟨hdone, herr⟩
    simp only [Bool.if_false_left, Bool.and_eq_true] at hdone herr
    exact h.doneErr ⟨hdone.2, herr.2⟩

theorem unlessBusy (h : s.Inv) (ht : t.Inv) : (s.unlessBusy t).Inv := by
  unfold State.unlessBusy
  split
  · exact h.dropWrite
  · exact ht

/-- A host write to a register of the window keeps the invariant. -/
theorem poke (h : s.Inv) {addr : BitVec 16} {r : Target} (hr : target s.params addr = some r) (d : Word) :
    (s.poke r d).Inv := by
  cases r with
  | id | fault | fcmd | ksst | ivlo | ivhi | capw | capdm => exact h
  | cmd => exact h.issue d
  | status => exact h.clearStatus d
  | ien => exact h.setIen d
  | hcfg => exact h.unlessBusy (h.setHcfg _ _)
  | scal k => exact h.unlessBusy (h.setScal k d)
  | bigWord k j => exact h.unlessBusy (h.setBig k _)
  | dmWord a => exact h.unlessBusy (h.store (by rw [length_leBytes]; exact dmWord_bound h.params hr))

theorem hostWrite (h : s.Inv) (addr : BitVec 16) (d : Word) : (s.hostWrite addr d).Inv := by
  unfold State.hostWrite
  split
  next => exact h.respond _
  next r hr => exact (h.poke hr d).respond _

theorem hostRead (h : s.Inv) (addr : BitVec 16) : (s.hostRead addr).Inv := by
  unfold State.hostRead
  split
  · exact h.respondFree _
  · split
    · exact h.respondFree _
    · exact h.respond _

theorem hostOtherWidth (h : s.Inv) (isWrite : Bool) : (s.hostOtherWidth isWrite).Inv := by
  unfold State.hostOtherWidth
  split
  · exact h.respond _
  · exact h.respondFree _

end State.Inv

/-! ## Reset -/

theorem Table.get_zero (i : Fin 256) : Table.zero.get i = 0 := by simp [Table.zero, Vector.get_eq_getElem]

theorem State.big_resetOf (p : Params) (k : BigReg) : (State.resetOf p).big k = 0 := by
  simp [State.big, State.resetOf, Vector.get_eq_getElem]

theorem State.scal_resetOf (p : Params) (k : ScalReg) : (State.resetOf p).scal k = 0 := by
  simp [State.scal, State.resetOf, Vector.get_eq_getElem]

theorem State.inv_resetOf {p : Params} (hp : p.wf = true) : (State.resetOf p).Inv where
  params := hp
  big k := by
    rw [State.big_resetOf]
    exact Nat.two_pow_pos _
  dm := ⟨rfl, rfl⟩
  ks := nofun
  ksUnset _ := rfl
  ksTop i _ := Table.get_zero i
  key := nofun
  sb1 := nofun
  sb2 := nofun
  xs := nofun
  busy := nofun
  doneErr := nofun
  cause := Nat.zero_le _

theorem State.Inv.resetEvent {s : State} (h : s.Inv) : s.resetEvent.Inv :=
  { State.inv_resetOf h.params with big := (State.inv_resetOf h.params).big }

/-- The reference record is legal (00_scope.md R8, R9). -/
theorem ref_wf : Config.ref.wf = true := by decide +kernel

/-- Settles O7: the reference core is the core with the reference record. -/
theorem resetMeetsInvariant : Obligations.ResetMeetsInvariant :=
  ⟨State.inv_resetOf ref_wf, fun _ hp => State.inv_resetOf hp⟩

/-! ## One step -/

theorem step_of_pending {s : State} {e : Event} {rest : List Event} (h : s.pending = e :: rest) :
    step s = State.event { s with pending := rest } e := by
  unfold step State.advance
  rw [h]

theorem step_of_idle {s : State} (h : s.pending = []) : step s = s.engineTurn := by
  unfold step State.advance
  rw [h]

/-- What the engine's turn can do (60_exceptions.md R304): nothing to an idle core; with a command in flight a fault
entry, or the writes of the command and its completion. -/
theorem State.engineTurn_cases {s t : State} (h : s.engineTurn = .next t) :
    t = s ∨ s.busy = true ∧ ((∃ c, t = s.faultEntry c) ∨ ∃ f u, s.Writes f u ∧ t = u.finish) := by
  unfold State.engineTurn at h
  split at h
  next hbusy =>
    refine .inr ⟨hbusy, ?_⟩
    unfold State.complete at h
    split at h
    next =>
      cases h
      exact .inl ⟨.illegalCmd, rfl⟩
    next i _ =>
      rcases exec_ends i s with ⟨c, hc⟩ | ⟨u, hu, heq⟩
      · cases hc.symm.trans h
        exact .inl ⟨c, rfl⟩
      · cases heq.symm.trans h
        exact .inr ⟨_, u, hu, rfl⟩
  next =>
    cases h
    exact .inl rfl

/-- The writes of a command keep the invariant. -/
theorem State.Writes.inv {s t : State} {f : Footprint} (h : s.Writes f t) (hs : s.Inv) : t.Inv := by
  induction h with
  | nothing => exact hs
  | setBig _ v _ ih => exact ih.setBig _ v
  | setScal _ v _ ih => exact ih.setScal _ v
  | store h hlen hdm ih =>
    have hparams := h.completesIn.params
    exact ih.store (by rw [State.finish_params] at hparams; rw [hparams]; omega)
  | setPrime _ b _ ih => exact ih.setPrime b
  | setXs _ n _ ih => exact ih.setXs n
  | seedXs _ hv _ _ ih => exact ih.seedXs hv
  | setKs _ n hksv _ ih => exact ih.setKs hksv n
  | initKs _ key hpos hle _ _ ih => exact ih.initKs key hpos hle
  | setSt _ x _ ih => exact ih.setSt x
  | setKey _ k _ _ ih => exact ih.setKey k
  | setSb1 _ hksv hn _ ih => exact ih.setSb1 hksv hn
  | setSb2 _ hksv hn _ ih => exact ih.setSb2 hksv hn

theorem State.Inv.engineTurn {s t : State} (h : s.Inv) (ht : s.engineTurn = .next t) : t.Inv := by
  rcases State.engineTurn_cases ht with rfl | ⟨hbusy, ⟨c, rfl⟩ | ⟨f, u, hu, rfl⟩⟩
  · exact h
  · exact h.faultEntry hbusy c
  · exact (hu.inv h).finish (hu.completesIn.fault.1.trans (h.busy hbusy).2)

theorem State.Inv.event {s t : State} (h : s.Inv) {e : Event} (ht : s.event e = .next t) : t.Inv := by
  cases e with
  | engine => exact h.engineTurn ht
  | read addr => cases ht; exact h.hostRead addr
  | write addr d => cases ht; exact h.hostWrite addr d
  | otherWidth isWrite addr => cases ht; exact h.hostOtherWidth isWrite
  | reset => cases ht; exact h.resetEvent

/-- Settles O8: the step is the engine's turn or the oldest event, and each keeps the invariant. -/
theorem stepKeepsInvariant : Obligations.StepKeepsInvariant := by
  intro s t h hst
  cases hp : s.pending with
  | nil => exact h.engineTurn ((step_of_idle hp).symm.trans hst)
  | cons e rest => exact (h.setPending rest).event ((step_of_pending hp).symm.trans hst)

/-! ## Validity flags -/

/-- Every validity flag that is 1 in `s` is 1 in `t` (10_state.md R41.6). -/
structure State.KeepsValid (s t : State) : Prop where
  xsv : s.xsv = true → t.xsv = true
  ksv : s.ksv = true → t.ksv = true
  keyv : s.keyv = true → t.keyv = true
  sb1v : s.sb1v = true → t.sb1v = true
  sb2v : s.sb2v = true → t.sb2v = true

theorem State.keepsValid_refl (s : State) : s.KeepsValid s := ⟨id, id, id, id, id⟩

theorem State.Writes.keepsValid {s t : State} {f : Footprint} (h : s.Writes f t) : s.KeepsValid t := by
  induction h with
  | nothing => exact s.keepsValid_refl
  | setBig _ _ _ ih | setScal _ _ _ ih | store _ _ _ ih | setPrime _ _ _ ih | setXs _ _ _ ih | setKs _ _ _ _ ih
  | setSt _ _ _ ih => exact { ih with xsv := ih.xsv }
  | seedXs _ _ _ _ ih => exact { ih with xsv := fun _ => rfl }
  | initKs _ _ _ _ _ _ ih => exact { ih with ksv := fun _ => rfl }
  | setKey _ _ _ _ ih => exact { ih with keyv := fun _ => rfl }
  | setSb1 _ _ _ _ ih => exact { ih with sb1v := fun _ => rfl }
  | setSb2 _ _ _ _ ih => exact { ih with sb2v := fun _ => rfl }

theorem State.keepsValid_engineTurn {s t : State} (h : s.engineTurn = .next t) : s.KeepsValid t := by
  rcases State.engineTurn_cases h with rfl | ⟨-, ⟨c, rfl⟩ | ⟨f, u, hu, rfl⟩⟩
  · exact t.keepsValid_refl
  · exact ⟨id, id, id, id, id⟩
  · exact { hu.keepsValid with xsv := hu.keepsValid.xsv }

theorem State.keepsValid_unlessBusy {s t : State} (h : s.KeepsValid t) : s.KeepsValid (s.unlessBusy t) := by
  unfold State.unlessBusy
  split
  · exact ⟨id, id, id, id, id⟩
  · exact h

theorem State.keepsValid_issue (s : State) (w : Word) : s.KeepsValid (s.issue w) := by
  unfold State.issue
  split <;> exact ⟨id, id, id, id, id⟩

theorem State.keepsValid_poke (s : State) (r : Target) (d : Word) : s.KeepsValid (s.poke r d) := by
  cases r with
  | id | fault | fcmd | ksst | ivlo | ivhi | capw | capdm => exact s.keepsValid_refl
  | cmd => exact s.keepsValid_issue d
  | status =>
    unfold State.poke
    rw [State.clearStatus_eq]
    exact ⟨id, id, id, id, id⟩
  | ien => exact ⟨id, id, id, id, id⟩
  | hcfg | scal k | bigWord k j | dmWord a =>
    exact State.keepsValid_unlessBusy ⟨id, id, id, id, id⟩

theorem State.keepsValid_hostWrite (s : State) (addr : BitVec 16) (d : Word) : s.KeepsValid (s.hostWrite addr d) := by
  unfold State.hostWrite
  split
  next => exact ⟨id, id, id, id, id⟩
  next r _ => exact { s.keepsValid_poke r d with xsv := (s.keepsValid_poke r d).xsv }

theorem State.keepsValid_hostRead (s : State) (addr : BitVec 16) : s.KeepsValid (s.hostRead addr) := by
  unfold State.hostRead
  split
  · exact ⟨id, id, id, id, id⟩
  · split <;> exact ⟨id, id, id, id, id⟩

theorem State.keepsValid_hostOtherWidth (s : State) (isWrite : Bool) : s.KeepsValid (s.hostOtherWidth isWrite) := by
  unfold State.hostOtherWidth
  split <;> exact ⟨id, id, id, id, id⟩

theorem State.keepsValid_event {s t : State} {e : Event} (hne : e ≠ .reset) (ht : s.event e = .next t) :
    s.KeepsValid t := by
  cases e with
  | engine => exact State.keepsValid_engineTurn ht
  | read addr => cases ht; exact s.keepsValid_hostRead addr
  | write addr d => cases ht; exact s.keepsValid_hostWrite addr d
  | otherWidth isWrite addr => cases ht; exact s.keepsValid_hostOtherWidth isWrite
  | reset => exact absurd rfl hne

/-- No step but a reset event takes a validity flag from 1 to 0 (10_state.md R41.6). -/
theorem step_keepsValid {s t : State} (hst : step s = .next t) (hne : ∀ rest, s.pending ≠ .reset :: rest) :
    s.KeepsValid t := by
  cases hp : s.pending with
  | nil => exact State.keepsValid_engineTurn ((step_of_idle hp).symm.trans hst)
  | cons e rest =>
    have hreset : e ≠ .reset := fun he => hne rest (by rw [hp, he])
    have hkeep := State.keepsValid_event hreset ((step_of_pending hp).symm.trans hst)
    exact { hkeep with xsv := hkeep.xsv }

/-- The invariant holds of every reachable state. -/
theorem Reachable.inv {s : State} (h : Reachable s) : s.Inv := by
  induction h with
  | reset p hp events => exact (State.inv_resetOf hp).setPending events
  | step _ hst ih => exact stepKeepsInvariant _ _ ih hst

/-- Settles O9: items 1 to 5 are fields of the invariant, item 6 is `step_keepsValid`. -/
theorem reachableStatesMeetR41 : Obligations.ReachableStatesMeetR41 := by
  intro s hs
  have hinv := hs.inv
  refine ⟨hinv.ks, hinv.key, hinv.sb1, hinv.sb2, hinv.xs, hinv.busy, fun t hst hne => ?_⟩
  obtain ⟨hxs, hks, hkey, hsb1, hsb2⟩ := step_keepsValid hst hne
  exact ⟨hxs, hks, hkey, hsb1, hsb2⟩

/-- Settles O10: the step is the reset event, whose state is that of `State.resetOf`. -/
theorem resetValues : Obligations.ResetValues := by
  intro s rest hp
  refine ⟨_, step_of_pending hp, ?_⟩
  exact ⟨rfl, State.big_resetOf s.params, State.scal_resetOf s.params, Memory.read_of_cells_nil, rfl, rfl,
    Table.get_zero, rfl, rfl, rfl, rfl, Table.get_zero, rfl, rfl, rfl, fun k => ⟨Table.get_zero k, Table.get_zero k⟩,
    rfl, rfl, rfl, rfl, rfl, rfl, rfl, rfl, rfl, rfl, rfl, rfl, rfl, rfl, rfl⟩

/-! ## Pending host transactions -/

theorem State.hostRead_of_target {s : State} {addr : BitVec 16} {r : Target} (hr : target s.params addr = some r)
    (hvis : s.busy = false ∨ r.hiddenWhileBusy = false) : s.hostRead addr = s.respond (.readOk (s.peek r)) := by
  have hshown : (s.busy && r.hiddenWhileBusy) = false := by
    rcases hvis with h | h <;> simp [h]
  unfold State.hostRead
  rw [hr]
  simp only [hshown, Bool.false_eq_true, if_false]

theorem State.hostWrite_of_target {s : State} {addr : BitVec 16} {r : Target} (hr : target s.params addr = some r)
    (d : Word) : s.hostWrite addr d = (s.poke r d).respond .writeOk := by
  unfold State.hostWrite
  rw [hr]

theorem State.issue_of_free {s : State} (hbusy : s.busy = false) (herr : s.err = false) (w : Word) :
    s.issue w = s.accept w := if_pos ⟨hbusy, herr⟩

theorem State.issue_of_blocked {s : State} (h : s.busy = true ∨ s.err = true) (w : Word) :
    s.issue w = s.dropWrite := by
  refine if_neg fun hfree => ?_
  rcases h with h | h
  · exact absurd h (Bool.eq_false_iff.mp hfree.1)
  · exact absurd h (Bool.eq_false_iff.mp hfree.2)

/-- The step of a pending host write to a mapped address. -/
theorem step_write {s : State} {addr : BitVec 16} {d : Word} {rest : List Event} {r : Target}
    (hp : s.pending = .write addr d :: rest) (hr : target s.params addr = some r) :
    step s = .next ((State.poke { s with pending := rest } r d).respond .writeOk) := by
  rw [step_of_pending hp, State.event, State.hostWrite_of_target (s := { s with pending := rest }) hr]

/-- Settles O51: both cases of `State.issue`. -/
theorem commandIssue : Obligations.CommandIssue := by
  intro s w rest hp
  have hstep := step_write hp (r := .cmd) rfl
  refine ⟨fun hbusy herr => ?_, fun hblocked => ?_⟩
  · rw [hstep, State.poke, State.issue_of_free (s := { s with pending := rest }) hbusy herr]
    rfl
  · rw [hstep, State.poke, State.issue_of_blocked (s := { s with pending := rest }) hblocked]
    rfl

/-- Settles O52: `State.clearStatus` by its three bits. -/
theorem statusWriteClears : Obligations.StatusWriteClears := by
  intro s w rest hp
  rw [step_write hp (r := .status) rfl, State.poke, State.clearStatus_eq]
  rfl

/-- A flag occupies its own bit of a word and no other. -/
theorem getLsbD_flagBit {j k : Nat} (b : Bool) (hk : k < 32) :
    (flagBit j b).getLsbD k = (b && decide (k = j)) := by
  unfold flagBit
  cases b
  · simp
  · rw [if_pos rfl, BitVec.natCast_eq_ofNat, BitVec.getLsbD_ofNat, Nat.one_shiftLeft, Nat.testBit_two_pow]
    simp [hk, eq_comm]

/-- Settles O54: a read of STATUS is `State.statusWord`, each of whose flags has a bit of its own. -/
theorem statusAndInterrupt : Obligations.StatusAndInterrupt := by
  intro s
  refine ⟨fun rest hp => ⟨s.statusWord, ?_, fun k hk => ?_⟩, ?_⟩
  · rw [step_of_pending hp, State.event, State.hostRead_of_target (r := .status) rfl (.inr rfl)]
    rfl
  · simp only [State.statusWord, BitVec.getLsbD_or, getLsbD_flagBit _ hk]
    interval_cases k <;> simp
  · simp [State.irq]

/-! ## Control registers -/

/-- A control address names the register of its offset (10_state.md R25). -/
theorem target_scal (p : Params) (k : ScalReg) :
    target p (BitVec.ofNat 16 (0x20 + 4 * k.val)) = some (.scal k) := by
  fin_cases k <;> rfl

theorem State.bus_hostRead {s : State} {addr : BitVec 16} {r : Target} (hr : target s.params addr = some r)
    (hvis : s.busy = false ∨ r.hiddenWhileBusy = false) : (s.hostRead addr).bus = some (.readOk (s.peek r)) := by
  rw [State.hostRead_of_target hr hvis, State.respond_bus]

theorem toNat_ienWord (s : State) : s.ienWord.toNat = s.ieDone.toNat + 2 * s.ieErr.toNat := by
  unfold State.ienWord
  cases s.ieDone <;> cases s.ieErr <;> rfl

theorem toNat_hcfgWord (h q : Byte) :
    (q.setWidth 32 <<< 8 ||| h.setWidth 32 : Word).toNat = h.toNat + 2 ^ 8 * q.toNat := by
  have hh := h.isLt
  have hq := q.isLt
  have hshift : q.toNat <<< 8 % 2 ^ 32 = q.toNat <<< 8 := by
    rw [Nat.shiftLeft_eq]
    omega
  rw [BitVec.toNat_or, BitVec.toNat_shiftLeft, BitVec.toNat_setWidth, BitVec.toNat_setWidth,
    Nat.mod_eq_of_lt (by omega : q.toNat < 2 ^ 32), Nat.mod_eq_of_lt (by omega : h.toNat < 2 ^ 32), hshift,
    ← Nat.shiftLeft_add_eq_or_of_lt hh, Nat.shiftLeft_eq]
  omega

theorem Keystream.toNat_statusWord (u : Keystream) :
    u.statusWord.toNat = u.n.toNat + 2 ^ 16 * u.i.toNat + 2 ^ 24 * u.j.toNat := by
  have hn := u.n.isLt
  have hi := u.i.isLt
  have hj := u.j.isLt
  unfold Keystream.statusWord
  rw [BitVec.toNat_ofNat]
  omega

/-- IVLO and IVHI are the halves of `IV_FIXED` (10_state.md R33). -/
theorem toNat_block_halves (x : Block) :
    x.toNat = (x.extractLsb' 0 32).toNat + 2 ^ 32 * (x.extractLsb' 32 32).toNat := by
  have hx := x.isLt
  simp only [BitVec.extractLsb'_toNat, Nat.shiftRight_eq_div_pow]
  omega

theorem toNat_word_of_le {n : Nat} (h : n ≤ 2 ^ 15) : (BitVec.ofNat 32 n).toNat = n := by
  rw [BitVec.toNat_ofNat]
  omega

theorem State.unlessBusy_of_free {s : State} (h : s.busy = false) (t : State) : s.unlessBusy t = t :=
  if_neg (Bool.eq_false_iff.mp h)

/-- HCFG.H and HCFG.SQUISH are the two low bytes of the written word (10_state.md R31). -/
theorem extractLsb'_word (d : Word) (k : Nat) : d.extractLsb' k 8 = BitVec.ofNat 8 (d.toNat / 2 ^ k) := by
  rw [BitVec.extractLsb', Nat.shiftRight_eq_div_pow]

theorem State.hostWrite_hcfg {s : State} (hbusy : s.busy = false) (d : Word) :
    s.hostWrite 0x0018 d = { s with
      hashLen := BitVec.ofNat 8 d.toNat, squish := BitVec.ofNat 8 (d.toNat / 2 ^ 8), bus := some .writeOk } := by
  rw [State.hostWrite_of_target (r := .hcfg) rfl, State.poke, State.unlessBusy_of_free hbusy, extractLsb'_word,
    extractLsb'_word, pow_zero, Nat.div_one]
  rfl

theorem State.hostWrite_scal {s : State} (hbusy : s.busy = false) (k : ScalReg) (d : Word) :
    s.hostWrite (BitVec.ofNat 16 (0x20 + 4 * k.val)) d = (s.setScal k d).respond .writeOk := by
  rw [State.hostWrite_of_target (target_scal _ k), State.poke, State.unlessBusy_of_free hbusy]

/-- Writes to read-only registers get OK and change nothing (20_memory.md R67). -/
theorem State.hostWrite_readOnly (s : State) (d : Word) {addr : BitVec 16}
    (h : addr ∈ [0x0000#16, 0x000C#16, 0x0010#16, 0x001C#16, 0x0040#16, 0x0044#16, 0x0048#16, 0x004C#16]) :
    s.hostWrite addr d = { s with bus := some .writeOk } := by
  simp only [List.mem_cons, List.not_mem_nil, or_false] at h
  rcases h with rfl | rfl | rfl | rfl | rfl | rfl | rfl | rfl
  · exact State.hostWrite_of_target (r := .id) rfl d
  · exact State.hostWrite_of_target (r := .fault) rfl d
  · exact State.hostWrite_of_target (r := .fcmd) rfl d
  · exact State.hostWrite_of_target (r := .ksst) rfl d
  · exact State.hostWrite_of_target (r := .ivlo) rfl d
  · exact State.hostWrite_of_target (r := .ivhi) rfl d
  · exact State.hostWrite_of_target (r := .capw) rfl d
  · exact State.hostWrite_of_target (r := .capdm) rfl d

/-- Settles O57: each read is `State.peek` of the address's register, each write its `State.poke`. -/
theorem controlRegisters : Obligations.ControlRegisters := by
  intro s d hp
  obtain ⟨hw, hdm⟩ : s.params.w ≤ 8192 ∧ s.params.dmSize ≤ 32768 := by
    simp only [Config.Params.wf, Config.wLegal, Config.dmSizeLegal, Bool.and_eq_true, decide_eq_true_eq] at hp
    omega
  refine ⟨State.bus_hostRead (r := .id) rfl (.inr rfl), State.bus_hostRead (r := .cmd) rfl (.inr rfl),
    ⟨_, State.bus_hostRead (r := .fault) rfl (.inr rfl), ?_⟩, State.bus_hostRead (r := .fcmd) rfl (.inr rfl),
    ⟨_, State.bus_hostRead (r := .ien) rfl (.inr rfl), toNat_ienWord s⟩,
    ⟨_, State.bus_hostRead (r := .hcfg) rfl (.inr rfl), toNat_hcfgWord ..⟩,
    ⟨_, _, State.bus_hostRead (r := .ivlo) rfl (.inr rfl), State.bus_hostRead (r := .ivhi) rfl (.inr rfl),
      toNat_block_halves _⟩,
    ⟨_, State.bus_hostRead (r := .capw) rfl (.inr rfl), toNat_word_of_le (by omega)⟩,
    ⟨_, State.bus_hostRead (r := .capdm) rfl (.inr rfl), toNat_word_of_le hdm⟩, fun hbusy => ⟨?_, fun k => ?_⟩,
    State.hostWrite_of_target (r := .ien) rfl d, fun hbusy => ⟨State.hostWrite_hcfg hbusy d, fun k => ?_⟩,
    fun addr h => s.hostWrite_readOnly d h⟩
  · have hcause := s.faultCause.isLt
    rw [State.peek, BitVec.toNat_setWidth]
    omega
  · exact ⟨_, State.bus_hostRead (r := .ksst) rfl (.inl hbusy), s.ks.toNat_statusWord⟩
  · exact State.bus_hostRead (target_scal _ k) (.inl hbusy)
  · refine ⟨_, State.hostWrite_scal hbusy k d, ?_, fun j hj => ?_, rfl⟩
    · rw [State.respond_scal, State.scal_setScal, if_pos rfl]
    · rw [State.respond_scal, State.scal_setScal, if_neg hj.symm]

end Sys2Proof.Machine

/-!
PROOFS. The host window (20_memory.md): which register an address of each window names, what a transaction at it does
idle and while BUSY, and the words of the big registers and of DM read, replaced and read back.
-/

namespace Sys2Proof.Machine

open Sys2Proof.Config (Params)

/-! ## Legal records -/

/-- The limits on `W` and `DM_SIZE` that keep the windows apart and inside the 16-bit addresses (00_scope.md R8). -/
theorem bounds_of_wf {p : Params} (hp : p.wf = true) :
    p.w % 32 = 0 ∧ p.w ≤ 8192 ∧ p.dmSize ≤ 32768 := by
  simp only [Config.Params.wf, Config.wLegal, Config.dmSizeLegal, Bool.and_eq_true, decide_eq_true_eq,
    beq_iff_eq] at hp
  omega

/-! ## What an address names -/

theorem target_of_not_mapped {p : Params} {addr : BitVec 16} (h : ¬Mapped p addr) : target p addr = none := by
  rw [← target_isSome_iff] at h
  exact Option.not_isSome_iff_eq_none.mp h

theorem target_of_mapped {p : Params} {addr : BitVec 16} (h : Mapped p addr) : ∃ r, target p addr = some r :=
  Option.isSome_iff_exists.mp ((target_isSome_iff p addr).mpr h)

/-- An aligned address from 0x20 up to 0x40 names a scalar register (10_state.md R25). -/
theorem target_scal_of_range (p : Params) {addr : BitVec 16} (h4 : addr.toNat % 4 = 0) (hlo : 0x20 ≤ addr.toNat)
    (hhi : addr.toNat < 0x40) : ∃ k, target p addr = some (.scal k) := by
  have haddr : addr = BitVec.ofNat 16 (0x20 + 4 * ((addr.toNat - 0x20) / 4)) := by
    apply BitVec.eq_of_toNat_eq
    rw [BitVec.toNat_ofNat]
    omega
  rw [haddr]
  exact ⟨_, target_scal p ⟨(addr.toNat - 0x20) / 4, by omega⟩⟩

/-- A mapped address from 0x4000 on names a word of a big register or of DM (20_memory.md R61). -/
theorem target_of_high {p : Params} {addr : BitVec 16} (h : Mapped p addr) (hhigh : 0x4000 ≤ addr.toNat) :
    (∃ k j, target p addr = some (.bigWord k j)) ∨ ∃ a, target p addr = some (.dmWord a) := by
  obtain ⟨h4, hrange⟩ := h
  unfold target
  simp only
  rw [if_neg (by omega), if_neg (by omega)]
  split
  · exact .inl ⟨_, _, rfl⟩
  · rw [if_pos (by omega)]
    exact .inr ⟨_, rfl⟩

/-- What an address of an operand names: a scalar register, a word of a big register, or a word of DM. -/
theorem target_of_operand {p : Params} {addr : BitVec 16} (h : Mapped p addr)
    (hop : (0x20 ≤ addr.toNat ∧ addr.toNat < 0x40) ∨ 0x4000 ≤ addr.toNat) :
    (∃ k, target p addr = some (.scal k)) ∨ (∃ k j, target p addr = some (.bigWord k j)) ∨
      ∃ a, target p addr = some (.dmWord a) := by
  rcases hop with ⟨hlo, hhi⟩ | hhigh
  · exact .inl (target_scal_of_range p h.1 hlo hhi)
  · exact .inr (target_of_high h hhigh)

/-- Word `j` of `R[k]` has the address of R65. -/
theorem target_bigWord {p : Params} (hp : p.wf = true) (k : BigReg) {j : Nat} (hj : j < p.w / 32) :
    target p (BitVec.ofNat 16 (0x4000 + k.val * (p.w / 8) + 4 * j)) = some (.bigWord k j) := by
  obtain ⟨h32, hle, -⟩ := bounds_of_wf hp
  obtain ⟨n, hn⟩ : ∃ n, p.w = 32 * n := ⟨p.w / 32, by omega⟩
  have hj : j < n := by omega
  have hbytes : p.w / 8 = 4 * n := by omega
  have hk : k.val * (4 * n) + 4 * n ≤ 64 * n := by nlinarith [k.isLt]
  have hdiv : (k.val * (4 * n) + 4 * j) / (4 * n) = k.val := by
    rw [Nat.mul_comm, Nat.mul_add_div (by omega), Nat.div_eq_of_lt (by omega), Nat.add_zero]
  have hmod : (k.val * (4 * n) + 4 * j) % (4 * n) = 4 * j := by
    rw [Nat.mul_comm, Nat.mul_add_mod, Nat.mod_eq_of_lt (by omega)]
  have halign : k.val * (4 * n) % 4 = 0 := by
    rw [Nat.mul_left_comm, Nat.mul_mod_right]
  have haddr : (BitVec.ofNat 16 (0x4000 + k.val * (4 * n) + 4 * j)).toNat = 0x4000 + (k.val * (4 * n) + 4 * j) := by
    rw [BitVec.toNat_ofNat]
    omega
  unfold target
  simp only
  rw [hbytes, haddr, if_neg (by omega), if_neg (by omega), if_pos (by omega), Nat.add_sub_cancel_left, hdiv, hmod,
    Nat.mul_div_cancel_left j (by omega), Fin.ofNat_eq_cast, Fin.cast_val_eq_self]

/-- The DM word at byte address `a` has the address of R66. -/
theorem target_dmWord {p : Params} (hp : p.wf = true) {a : Nat} (h4 : a % 4 = 0) (ha : a < p.dmSize) :
    target p (BitVec.ofNat 16 (0x8000 + a)) = some (.dmWord a) := by
  obtain ⟨-, hw, hdm⟩ := bounds_of_wf hp
  have haddr : (BitVec.ofNat 16 (0x8000 + a)).toNat = 0x8000 + a := by
    rw [BitVec.toNat_ofNat]
    omega
  unfold target
  simp only
  rw [haddr, if_neg (by omega), if_neg (by omega), if_neg (by omega), if_pos (by omega), Nat.add_sub_cancel_left]

/-! ## One transaction (R62, R67, R70) -/

theorem State.hostRead_of_not_mapped {s : State} {addr : BitVec 16} (h : ¬Mapped s.params addr) :
    s.hostRead addr = s.respondFree .readError := by
  unfold State.hostRead
  rw [target_of_not_mapped h]

theorem State.hostWrite_of_not_mapped {s : State} {addr : BitVec 16} (h : ¬Mapped s.params addr) (d : Word) :
    s.hostWrite addr d = s.respond .writeError := by
  unfold State.hostWrite
  rw [target_of_not_mapped h]

/-- A register whose reads BUSY hides answers with a free word. -/
theorem State.hostRead_of_hidden {s : State} {addr : BitVec 16} {r : Target} (hr : target s.params addr = some r)
    (hbusy : s.busy = true) (hhid : r.hiddenWhileBusy = true) : s.hostRead addr = s.respondFree .readOk := by
  unfold State.hostRead
  rw [hr]
  simp only [hbusy, hhid, Bool.and_self, if_true]

/-- A read at a mapped address answers with the register's value or with a free word. -/
theorem State.hostRead_of_mapped {s : State} {addr : BitVec 16} (h : Mapped s.params addr) :
    (∃ x, s.hostRead addr = s.respond (.readOk x)) ∨ s.hostRead addr = s.respondFree .readOk := by
  obtain ⟨r, hr⟩ := target_of_mapped h
  by_cases hhid : s.busy = true ∧ r.hiddenWhileBusy = true
  · exact .inr (State.hostRead_of_hidden hr hhid.1 hhid.2)
  · rw [not_and_or, Bool.not_eq_true, Bool.not_eq_true] at hhid
    exact .inl ⟨_, State.hostRead_of_target hr hhid⟩

theorem State.pending_unlessBusy {s t : State} (h : t.pending = s.pending) :
    (s.unlessBusy t).pending = s.pending := by
  unfold State.unlessBusy
  split
  · rfl
  · exact h

theorem State.pending_issue (s : State) (w : Word) : (s.issue w).pending = s.pending := by
  unfold State.issue
  split <;> rfl

/-- No register of the window reaches the events to come. -/
theorem State.pending_poke (s : State) (r : Target) (d : Word) : (s.poke r d).pending = s.pending := by
  cases r with
  | id | fault | fcmd | ksst | ivlo | ivhi | capw | capdm | ien => rfl
  | cmd => exact s.pending_issue d
  | status => rw [State.poke, State.clearStatus_eq]
  | hcfg | scal k | bigWord k j | dmWord a => exact State.pending_unlessBusy rfl

/-- Settles O55: the step is the transaction's own function, which the address decides: not mapped, or mapped. -/
theorem hostTransactions : Obligations.HostTransactions := by
  intro s addr d isWrite rest
  refine ⟨fun hp => ⟨_, step_of_pending hp, rfl, ?_⟩, fun hp => ⟨_, step_of_pending hp, rfl, ?_⟩,
    fun hp => ⟨_, step_of_pending hp, ?_⟩⟩
  · by_cases hm : Mapped s.params addr
    · rcases State.hostRead_of_mapped (s := { s with pending := rest }) hm with ⟨x, hx⟩ | hfree
      · rw [hx]
        exact ⟨rfl, rfl, fun hn => absurd hm hn, fun _ => ⟨x, rfl⟩⟩
      · rw [hfree]
        exact ⟨rfl, rfl, fun hn => absurd hm hn, fun _ => ⟨_, rfl⟩⟩
    · rw [State.hostRead_of_not_mapped (s := { s with pending := rest }) hm]
      exact ⟨rfl, rfl, fun _ => ⟨_, rfl⟩, fun h => absurd h hm⟩
  · by_cases hm : Mapped s.params addr
    · obtain ⟨r, hr⟩ := target_of_mapped hm
      rw [State.hostWrite_of_target (s := { s with pending := rest }) hr]
      exact ⟨State.pending_poke .., fun hn => absurd hm hn, fun _ => rfl⟩
    · rw [State.hostWrite_of_not_mapped (s := { s with pending := rest }) hm]
      exact ⟨rfl, fun _ => ⟨rfl, rfl⟩, fun h => absurd h hm⟩
  · cases isWrite with
    | true => exact ⟨rfl, rfl, fun _ => rfl, nofun⟩
    | false => exact ⟨rfl, rfl, nofun, fun _ => ⟨_, rfl⟩⟩

/-! ## While BUSY (R70) -/

theorem State.unlessBusy_of_busy {s : State} (h : s.busy = true) (t : State) : s.unlessBusy t = s.dropWrite :=
  if_pos h

/-- R70 (e): BUSY drops a write to each of these registers. -/
theorem State.poke_of_dropped {s : State} {addr : BitVec 16} (hbusy : s.busy = true)
    (h : DroppedWhileBusy s.params addr) :
    ∃ r, target s.params addr = some r ∧ ∀ d, s.poke r d = s.dropWrite := by
  obtain ⟨hm, hcfg | hop⟩ := h
  · obtain rfl : addr = 0x18#16 := BitVec.eq_of_toNat_eq hcfg
    exact ⟨.hcfg, rfl, fun _ => State.unlessBusy_of_busy hbusy _⟩
  · rcases target_of_operand hm hop with ⟨k, hr⟩ | ⟨k, j, hr⟩ | ⟨a, hr⟩ <;>
      exact ⟨_, hr, fun _ => State.unlessBusy_of_busy hbusy _⟩

/-- R70 (b): BUSY hides each of these registers from reads. -/
theorem target_of_hidden {p : Params} {addr : BitVec 16} (h : HiddenWhileBusy p addr) :
    ∃ r, target p addr = some r ∧ r.hiddenWhileBusy = true := by
  obtain ⟨hm, hksst | hop⟩ := h
  · obtain rfl : addr = 0x1C#16 := BitVec.eq_of_toNat_eq hksst
    exact ⟨.ksst, rfl, rfl⟩
  · rcases target_of_operand hm hop with ⟨k, hr⟩ | ⟨k, j, hr⟩ | ⟨a, hr⟩ <;> exact ⟨_, hr, rfl⟩

/-- Settles O56: a dropped write is `State.dropWrite`, and a hidden read draws the free word of the count. -/
theorem busyHostAccess : Obligations.BusyHostAccess := by
  intro s addr d hbusy
  refine ⟨fun hdrop => ?_, fun hhid => ?_⟩
  · obtain ⟨r, hr, hpoke⟩ := State.poke_of_dropped hbusy hdrop
    rw [State.hostWrite_of_target hr, hpoke]
    rfl
  · obtain ⟨r, hr, hrhid⟩ := target_of_hidden hhid
    rw [State.hostRead_of_hidden hr hbusy hrhid]
    refine ⟨⟨_, rfl⟩, fun s' hbusy' hparams hcount => ?_⟩
    rw [State.hostRead_of_hidden (hparams ▸ hr) hbusy' hrhid]
    simp only [State.respondFree, State.freeWord, hcount]

/-! ## The big registers (R65) -/

theorem State.hostWrite_bigWord {s : State} (hp : s.params.wf = true) (hbusy : s.busy = false) (k : BigReg) {j : Nat}
    (hj : j < s.params.w / 32) (d : Word) :
    s.hostWrite (BitVec.ofNat 16 (0x4000 + k.val * (s.params.w / 8) + 4 * j)) d =
      (s.setBig k (putWord (s.big k) j d)).respond .writeOk := by
  rw [State.hostWrite_of_target (target_bigWord hp k hj), State.poke, State.unlessBusy_of_free hbusy]

theorem State.bus_hostRead_bigWord {s : State} (hp : s.params.wf = true) (hbusy : s.busy = false) (k : BigReg)
    {j : Nat} (hj : j < s.params.w / 32) :
    (s.hostRead (BitVec.ofNat 16 (0x4000 + k.val * (s.params.w / 8) + 4 * j))).bus =
      some (.readOk (wordOf (s.big k) j)) :=
  State.bus_hostRead (target_bigWord hp k hj) (.inl hbusy)

/-- Settles O58: the write is one `State.setBig` of `putWord`, which keeps every word but word `j`. -/
theorem bigRegisterWindow : Obligations.BigRegisterWindow := by
  intro s k j d hp hbig hbusy hj
  have hlt : putWord (s.big k) j d < 2 ^ s.params.w := putWord_lt d (hbig k) (by omega)
  have hk : ((s.setBig k (putWord (s.big k) j d)).respond .writeOk).big k = putWord (s.big k) j d := by
    rw [State.respond_big, s.big_setBig_same k hlt]
  refine ⟨⟨_, State.bus_hostRead_bigWord hp hbusy k hj, wordOf_toNat ..⟩, _, _,
    State.hostWrite_bigWord hp hbusy k hj d, rfl, ?_, ?_, ?_, fun i hi => ?_, rfl, fun k' hk' => ?_⟩
  · have hread := State.bus_hostRead_bigWord
      (s := (s.setBig k (putWord (s.big k) j d)).respond .writeOk) hp hbusy k hj
    rwa [hk, wordOf_putWord_same] at hread
  · rwa [hk]
  · rw [hk, ← wordOf_toNat, wordOf_putWord_same]
  · rw [hk, ← wordOf_toNat, wordOf_putWord_ne _ d hi, wordOf_toNat]
  · rw [State.respond_big, s.big_setBig_ne _ hk']

/-! ## The data memory (R66) -/

theorem State.hostWrite_dmWord {s : State} (hp : s.params.wf = true) (hbusy : s.busy = false) {a : Nat}
    (h4 : a % 4 = 0) (ha : a < s.params.dmSize) (d : Word) :
    s.hostWrite (BitVec.ofNat 16 (0x8000 + a)) d = (s.store a (leBytes 4 d.toNat)).respond .writeOk := by
  rw [State.hostWrite_of_target (target_dmWord hp h4 ha), State.poke, State.unlessBusy_of_free hbusy]

theorem State.bus_hostRead_dmWord {s : State} (hp : s.params.wf = true) (hbusy : s.busy = false) {a : Nat}
    (h4 : a % 4 = 0) (ha : a < s.params.dmSize) :
    (s.hostRead (BitVec.ofNat 16 (0x8000 + a))).bus = some (.readOk (BitVec.ofNat 32 (leInt (s.load a 4)))) :=
  State.bus_hostRead (target_dmWord hp h4 ha) (.inl hbusy)

@[simp] theorem State.respond_load (s : State) (r : BusResponse) (a n : Nat) :
    (s.respond r).load a n = s.load a n := rfl

/-- A DM word is the sum of its bytes, byte `k` of weight `2^(8k)` (R64). -/
theorem State.toNat_dmWord (s : State) (a : Nat) :
    (BitVec.ofNat 32 (leInt (s.load a 4))).toNat =
      (s.dm.read a).toNat + 2 ^ 8 * (s.dm.read (a + 1)).toNat + 2 ^ 16 * (s.dm.read (a + 2)).toNat +
        2 ^ 24 * (s.dm.read (a + 3)).toNat := by
  have hlt := leInt_lt (s.load a 4)
  rw [State.length_load] at hlt
  have hmod : leInt (s.load a 4) % 2 ^ 32 = leInt (s.load a 4) := Nat.mod_eq_of_lt hlt
  rw [BitVec.toNat_ofNat, hmod]
  simp only [State.load, Memory.readBytes, leInt, Nat.add_assoc, Nat.reduceAdd]
  omega

/-- A word stored byte by byte loads as itself. -/
theorem State.word_load_store {s : State} (hdm : s.dm.wf = true) (a : Nat) (d : Word) :
    BitVec.ofNat 32 (leInt ((s.store a (leBytes 4 d.toNat)).load a 4)) = d := by
  have hload : (s.store a (leBytes 4 d.toNat)).load a 4 = leBytes 4 d.toNat := by
    have hback := s.dm.readBytes_writeBytes a (leBytes 4 d.toNat) hdm
    rwa [length_leBytes] at hback
  have hmod : d.toNat % 256 ^ 4 = d.toNat := Nat.mod_eq_of_lt d.isLt
  rw [hload, leInt_leBytes, hmod, BitVec.ofNat_toNat, BitVec.setWidth_eq]

/-- Byte `k` of a string stored with `le_bytes`. -/
theorem Memory.read_writeBytes_leBytes {m : Memory} (hm : m.wf = true) (a v : Nat) {n k : Nat} (h : k < n) :
    (m.writeBytes a (leBytes n v)).read (a + k) = byteOf v k := by
  have hlen : k < (leBytes n v).length := by rwa [length_leBytes]
  rw [m.read_writeBytes_inside _ hm hlen]
  exact Option.some_inj.mp ((List.getElem?_eq_getElem hlen).symm.trans (getElem?_leBytes v h))

/-- Settles O59: the write is one `State.store` of four bytes, and the read is `le_int` of them. -/
theorem dataMemoryWindow : Obligations.DataMemoryWindow := by
  intro s a d hp hdm hbusy h4 ha
  refine ⟨⟨_, State.bus_hostRead_dmWord hp hbusy h4 ha, s.toNat_dmWord a⟩, _, _,
    State.hostWrite_dmWord hp hbusy h4 ha d, rfl, ?_, fun j hj => ?_, fun x hx => ?_, rfl⟩
  · have hread := State.bus_hostRead_dmWord
      (s := (s.store a (leBytes 4 d.toNat)).respond .writeOk) hp hbusy h4 ha
    rwa [State.respond_load, State.word_load_store hdm] at hread
  · rw [State.respond_dm, State.store_dm, Memory.read_writeBytes_leBytes hdm a d.toNat hj]
  · have hout : x < a ∨ a + (leBytes 4 d.toNat).length ≤ x := by
      rw [length_leBytes]
      omega
    rw [State.respond_dm, State.store_dm, s.dm.read_writeBytes_outside _ hout]

end Sys2Proof.Machine

/-!
PROOFS. The encoding (30_encoding.md). A decoded command and its word agree field by field (`decode_ok_iff`), which is
read once in each direction; and the use of each field is the part of a table row's mask over that field
(`decodes_iff_passes`).
-/

namespace Sys2Proof

/-! ## A word and its six fields -/

theorem assemble_eq_iff {op f1 f2 f3 f4 imm : Nat} (hfit : FieldsFit op f1 f2 f3 f4 imm) (w : Word) :
    assemble op f1 f2 f3 f4 imm = w ↔ (opOf w).toNat = op ∧ (f1Of w).toNat = f1 ∧ (f2Of w).toNat = f2 ∧
      (f3Of w).toNat = f3 ∧ (f4Of w).toNat = f4 ∧ (imm8Of w).toNat = imm := by
  constructor
  · rintro rfl
    exact ⟨opOf_assemble hfit, f1Of_assemble hfit, f2Of_assemble hfit, f3Of_assemble hfit, f4Of_assemble hfit,
      imm8Of_assemble hfit⟩
  · rintro ⟨rfl, rfl, rfl, rfl, rfl, rfl⟩
    exact assemble_fields w

theorem word_eq_iff_fields (w v : Word) :
    w = v ↔ opOf w = opOf v ∧ f1Of w = f1Of v ∧ f2Of w = f2Of v ∧ f3Of w = f3Of v ∧ f4Of w = f4Of v ∧
      imm8Of w = imm8Of v := by
  refine ⟨fun h => by simp [h], fun ⟨hop, h1, h2, h3, h4, h8⟩ => ?_⟩
  rw [← assemble_fields w, hop, h1, h2, h3, h4, h8, assemble_fields]

theorem and_eq_iff_fields (w m v : Word) :
    w &&& m = v ↔ opOf w &&& opOf m = opOf v ∧ f1Of w &&& f1Of m = f1Of v ∧ f2Of w &&& f2Of m = f2Of v ∧
      f3Of w &&& f3Of m = f3Of v ∧ f4Of w &&& f4Of m = f4Of v ∧ imm8Of w &&& imm8Of m = imm8Of v := by
  simp only [word_eq_iff_fields, opOf, f1Of, f2Of, f3Of, f4Of, imm8Of, BitVec.extractLsb'_and]

/-! ## The uses of a field -/

theorem bigField_eq_iff (v : BitVec 4) (k : BigReg) : bigField v = k ↔ v.toNat = k.val := by
  rw [Fin.ext_iff, bigField_val]

theorem Box.imm_lt (b : Box) : b.imm < 2 := by cases b <;> decide

theorem Mode.imm_lt (m : Mode) : m.imm < 4 := by cases m <;> decide

theorem Box.exists_eq_imm_iff (n : Nat) : (∃ b : Box, n = b.imm) ↔ n < 2 := by
  refine ⟨fun ⟨b, h⟩ => h ▸ b.imm_lt, fun h => ?_⟩
  interval_cases n
  exacts [⟨.sb1, rfl⟩, ⟨.sb2, rfl⟩]

theorem Mode.exists_eq_imm_iff (n : Nat) : (∃ m : Mode, n = m.imm) ↔ n < 4 := by
  refine ⟨fun ⟨m, h⟩ => h ▸ m.imm_lt, fun h => ?_⟩
  interval_cases n
  exacts [⟨.ecb, rfl⟩, ⟨.cbc, rfl⟩, ⟨.pcbc, rfl⟩, ⟨.ctr, rfl⟩]

/-! ## The uses of a field as masks over it (R97); XGCD's `big≤13` is the one without a mask -/

theorem zeroField_isOk_iff {n : Nat} (f : Field) (v : BitVec n) :
    (∃ u, zeroField f v.toNat = .ok u) ↔ v &&& BitVec.allOnes n = 0 := by
  simp only [zeroField_ok_iff, exists_const, BitVec.and_allOnes, ← BitVec.toNat_inj, BitVec.toNat_ofNat,
    BitVec.ofNat_eq_ofNat, Nat.zero_mod]

theorem scalField_isOk_iff (f : Field) (v : BitVec 4) : (∃ k, scalField f v = .ok k) ↔ v &&& 0x8 = 0 := by
  simp only [scalField_ok_iff]
  decide +revert

theorem bigField13_isOk_iff (v : BitVec 4) : (∃ k, bigField13 v = .ok k) ↔ v.toNat ≤ 13 := by
  simp only [bigField13_ok_iff]
  decide +revert

theorem boxField_isOk_iff (v : Byte) : (∃ b, boxField v = .ok b) ↔ v &&& 0xFE = 0 := by
  simp only [boxField_ok_iff, Box.exists_eq_imm_iff]
  decide +revert

theorem modeField_isOk_iff (v : Byte) : (∃ m, modeField v = .ok m) ↔ v &&& 0xFC = 0 := by
  simp only [modeField_ok_iff, Mode.exists_eq_imm_iff]
  decide +revert

/-! ## A chain of checks -/

theorem bind_eq_ok_iff {α β : Type} {x : Except DecodeError α} {f : α → Except DecodeError β} {b : β} :
    x >>= f = .ok b ↔ ∃ a, x = .ok a ∧ f a = .ok b := by
  cases x <;> simp [bind, Except.bind]

theorem bind_isOk_iff {α β : Type} {x : Except DecodeError α} {f : α → Except DecodeError β} :
    (∃ b, x >>= f = .ok b) ↔ ∃ a, x = .ok a ∧ ∃ b, f a = .ok b := by
  cases x <;> simp [bind, Except.bind]

/-! ## A command and its word -/

theorem opOf_of_decode {w : Word} {i : Instr} (h : decode w = .ok i) : (opOf w).toNat = i.opcode := by
  unfold decode at h
  split at h
  all_goals simp only [bind_eq_ok_iff, Except.ok.injEq, reduceCtorEq] at h
  all_goals grind [Instr.opcode]

theorem opOf_encode : ∀ i : Instr, (opOf (encode i)).toNat = i.opcode
  | .nop => Laws.EncodesOpcode.nop
  | .ldr rd sSrc sLen => Laws.EncodesOpcode.ldr rd sSrc sLen
  | .str sDst ra sLen => Laws.EncodesOpcode.str sDst ra sLen
  | .modmul rd ra rb rm => Laws.EncodesOpcode.modmul rd ra rb rm
  | .modexp rd ra rb rm => Laws.EncodesOpcode.modexp rd ra rb rm
  | .xgcd rd ra rb => Laws.EncodesOpcode.xgcd rd ra rb
  | .modinv rd ra rm => Laws.EncodesOpcode.modinv rd ra rm
  | .mrwit rn rbase => Laws.EncodesOpcode.mrwit rn rbase
  | .mrtest rn iters => Laws.EncodesOpcode.mrtest rn iters
  | .prseed ra => Laws.EncodesOpcode.prseed ra
  | .prnext rd => Laws.EncodesOpcode.prnext rd
  | .ksinit sKey sLen sN => Laws.EncodesOpcode.ksinit sKey sLen sN
  | .ksnext sd => Laws.EncodesOpcode.ksnext sd
  | .ksbytes sDst sLen => Laws.EncodesOpcode.ksbytes sDst sLen
  | .ksciph sDst sSrc sLen => Laws.EncodesOpcode.ksciph sDst sSrc sLen
  | .ksperm sDst => Laws.EncodesOpcode.ksperm sDst
  | .spinit => Laws.EncodesOpcode.spinit
  | .spabsb sSrc => Laws.EncodesOpcode.spabsb sSrc
  | .spperm => Laws.EncodesOpcode.spperm
  | .spout sDst => Laws.EncodesOpcode.spout sDst
  | .hash sDst sSrc sLen => Laws.EncodesOpcode.hash sDst sSrc sLen
  | .keyld ra => Laws.EncodesOpcode.keyld ra
  | .keyks => Laws.EncodesOpcode.keyks
  | .keyrd rd => Laws.EncodesOpcode.keyrd rd
  | .sbload box => Laws.EncodesOpcode.sbload box
  | .blkenc rd ra => Laws.EncodesOpcode.blkenc rd ra
  | .blkdec rd ra => Laws.EncodesOpcode.blkdec rd ra
  | .enc sDst sSrc sLen mode => Laws.EncodesOpcode.enc sDst sSrc sLen mode
  | .dec sDst sSrc sLen mode => Laws.EncodesOpcode.dec sDst sSrc sLen mode

/-- Under the opcode of `i`, both sides are the same equations on the word's fields. -/
theorem decode_ok_iff {w : Word} {i : Instr} (hop : (opOf w).toNat = i.opcode) :
    decode w = .ok i ↔ i.wf = true ∧ encode i = w := by
  cases i
  case' sbload box => have himm := box.imm_lt
  case' enc mode => have himm := mode.imm_lt
  case' dec mode => have himm := mode.imm_lt
  all_goals
    simp only [Instr.opcode] at hop
    rw [encode, assemble_eq_iff ⟨by omega, by omega, by omega, by omega, by omega, by omega⟩]
    simp [decode, hop, bind_eq_ok_iff, zeroField_ok_iff, scalField_ok_iff, bigField13_ok_iff, boxField_ok_iff,
      modeField_ok_iff, bigField_eq_iff, ← BitVec.toNat_inj, Instr.wf]
  all_goals omega

/-- Settles O1: `decode_ok_iff` at the encoded word, from right to left. -/
theorem decodeOfEncode : Obligations.DecodeOfEncode :=
  fun i hwf => (decode_ok_iff (opOf_encode i)).mpr ⟨hwf, rfl⟩

/-- Settles O2: `decode_ok_iff` from left to right. -/
theorem encodeOfDecode : Obligations.EncodeOfDecode :=
  fun _ _ h => (decode_ok_iff (opOf_of_decode h)).mp h

/-! ## The rows of the opcode table -/

/-- Every row's mask covers the whole `OP` field, and only `OP` has bits in its match (R97). -/
theorem opcodeRows_fields : ∀ r ∈ opcodeRows,
    opOf r.mask = BitVec.allOnes 8 ∧ (opOf r.value).toNat = r.op ∧ f1Of r.value = 0 ∧ f2Of r.value = 0 ∧
      f3Of r.value = 0 ∧ f4Of r.value = 0 ∧ imm8Of r.value = 0 := by
  decide

theorem eq_of_row_op_eq : ∀ r ∈ opcodeRows, ∀ r' ∈ opcodeRows, r.op = r'.op → r = r' := by decide

theorem exists_row_of_opcode (i : Instr) : ∃ r ∈ opcodeRows, r.op = i.opcode := by
  cases i <;> simp only [Instr.opcode] <;> decide

/-- A row of the table tests `OP` for its opcode, each other field against its part of the mask, and XGCD's `big≤13`. -/
theorem passes_iff_fields {r : Row} (hr : r ∈ opcodeRows) (w : Word) :
    r.passes w = true ↔ (opOf w).toNat = r.op ∧ (r.op = 0x12 → (f1Of w).toNat ≤ 13) ∧
      f1Of w &&& f1Of r.mask = 0 ∧ f2Of w &&& f2Of r.mask = 0 ∧ f3Of w &&& f3Of r.mask = 0 ∧
      f4Of w &&& f4Of r.mask = 0 ∧ imm8Of w &&& imm8Of r.mask = 0 := by
  obtain ⟨hmask, hop, h1, h2, h3, h4, h8⟩ := opcodeRows_fields r hr
  have hxgcd : (r.op != 0x12 || decide ((f1Of w).toNat ≤ 13)) = true ↔ (r.op = 0x12 → (f1Of w).toNat ≤ 13) := by
    rw [Bool.or_eq_true, bne_iff_ne, decide_eq_true_eq, ← imp_iff_not_or]
  rw [Row.passes, Bool.and_eq_true, beq_iff_eq, hxgcd, and_eq_iff_fields, hmask, h1, h2, h3, h4, h8,
    BitVec.and_allOnes, ← BitVec.toNat_inj, hop]
  tauto

/-- Under the opcode of a row, the uses of the fields that `decode` tests are the row's mask. -/
theorem decodes_iff_passes {w : Word} {r : Row} (hr : r ∈ opcodeRows) (hop : (opOf w).toNat = r.op) :
    (∃ i, decode w = .ok i) ↔ r.passes w = true := by
  rw [passes_iff_fields hr]
  fin_cases hr
  all_goals
    simp only [decode, hop, bind_isOk_iff, exists_and_right, Except.ok.injEq, exists_eq', and_true,
      zeroField_isOk_iff, scalField_isOk_iff, bigField13_isOk_iff, boxField_isOk_iff, modeField_isOk_iff]
    simp [f1Of, f2Of, f3Of, f4Of, imm8Of]

/-- The row of a decoded command's opcode passes the word. -/
theorem exists_row_of_decode {w : Word} {i : Instr} (h : decode w = .ok i) :
    ∃ r ∈ opcodeRows, r.passes w = true ∧ r.op = i.opcode := by
  obtain ⟨r, hr, hop⟩ := exists_row_of_opcode i
  exact ⟨r, hr, (decodes_iff_passes hr ((opOf_of_decode h).trans hop.symm)).mp ⟨i, h⟩, hop⟩

/-- Settles O3: a row that passes a word has the word's `OP`, which fixes the row. -/
theorem decodesIffOneRowPasses : Obligations.DecodesIffOneRowPasses := by
  intro w
  have op_of_passes {r : Row} (hr : r ∈ opcodeRows) (h : r.passes w = true) : (opOf w).toNat = r.op :=
    ((passes_iff_fields hr w).mp h).1
  refine ⟨⟨?_, ?_⟩, fun i => exists_row_of_decode, ?_⟩
  · rintro ⟨i, h⟩
    obtain ⟨r, hr, hpass, -⟩ := exists_row_of_decode h
    exact ⟨r, hr, hpass⟩
  · rintro ⟨r, hr, hpass⟩
    exact (decodes_iff_passes hr (op_of_passes hr hpass)).mpr hpass
  · intro r hr r' hr' hpass hpass'
    exact eq_of_row_op_eq r hr r' hr' ((op_of_passes hr hpass).symm.trans (op_of_passes hr' hpass'))

end Sys2Proof

/-!
PROOFS. Number theory (40_number_theory.md). First the functions: extended Euclid satisfies the recursion of R125, from
which its bounds follow by strong induction; the decomposition of Miller-Rabin is the only one, so a round is read off
any of them; a prime passes a round because 1 has no square roots but 1 and -1 modulo a prime. Then each command, as
the completion with its named writes.
-/

namespace Sys2Proof.Machine

/-! ## Extended Euclid (R125) -/

theorem xgcd_zero_right (a : Nat) : xgcd a 0 = (a, 1, 0) := rfl

/-- The loop and the recursive formulation are the same function: one turn leaves the loop of `(b, a mod b)` with its
unit rows exchanged, and the loop is linear in its rows. -/
theorem xgcd_rec (a : Nat) {b : Nat} (hb : 0 < b) :
    xgcd a b = ((xgcd b (a % b)).1, (xgcd b (a % b)).2.2,
      (xgcd b (a % b)).2.1 - (a / b : Nat) * (xgcd b (a % b)).2.2) := by
  have hturn : xgcd a b = xgcdLoop b b (a % b) 0 (1 - (a / b : Nat) * 0) 1 (0 - (a / b : Nat) * 1) := by
    rw [xgcd, xgcdLoop, if_neg hb.ne']
  have hfuel : xgcdLoop b b (a % b) 1 0 0 1 = xgcd b (a % b) :=
    xgcdLoop_fuel _ _ _ _ _ _ _ _ (Nat.mod_lt a hb) (Nat.lt_succ_self _)
  rw [hturn, xgcdLoop_linear, hfuel]
  refine Prod.ext rfl (Prod.ext ?_ ?_)
  · simp
  · simp
    ring

theorem xgcd_of_dvd {a b : Nat} (hb : 0 < b) (h : b ∣ a) : xgcd a b = (b, 0, 1) := by
  rw [xgcd_rec a hb, Nat.mod_eq_zero_of_dvd h, xgcd_zero_right]
  simp

/-- The coefficients of a turn's remainder bound those of the turn: `a = q·b + r` carries the bounds by `r` and `b`
over to `b` and `a`. -/
theorem natAbs_sub_mul_le {c q b r : Nat} {x y : Int} (hx : x.natAbs * c ≤ r) (hy : y.natAbs * c ≤ b) :
    (x - q * y).natAbs * c ≤ b * q + r := by
  have htri : (x - q * y).natAbs ≤ x.natAbs + q * y.natAbs := by
    simpa [Int.natAbs_mul] using Int.natAbs_sub_le x (q * y)
  calc (x - q * y).natAbs * c ≤ (x.natAbs + q * y.natAbs) * c := Nat.mul_le_mul_right c htri
    _ = y.natAbs * c * q + x.natAbs * c := by ring
    _ ≤ b * q + r := Nat.add_le_add (Nat.mul_le_mul_right q hy) hx

theorem two_mul_le_of_dvd_of_lt {r b : Nat} (hr : 0 < r) (h : r ∣ b) (hlt : r < b) : 2 * r ≤ b := by
  obtain ⟨k, rfl⟩ := h
  rw [Nat.mul_comm]
  exact Nat.mul_le_mul_left r ((Nat.lt_mul_iff_one_lt_right hr).mp hlt)

/-- The bounds of R125 without division. Where `b` divides `a` they fail, since `y` is 1 even for `a = b`; that case
ends the recursion, with the coefficients 0 and 1. -/
theorem xgcd_coeff_le (a b : Nat) (hb : 0 < b) (hdvd : ¬b ∣ a) :
    (xgcd a b).2.1.natAbs * (2 * Nat.gcd a b) ≤ b ∧ (xgcd a b).2.2.natAbs * (2 * Nat.gcd a b) ≤ a := by
  induction b using Nat.strong_induction_on generalizing a with
  | _ b ih =>
    have hr : 0 < a % b := Nat.emod_pos_of_not_dvd hdvd
    have hlt : a % b < b := Nat.mod_lt a hb
    have hgcd : Nat.gcd a b = Nat.gcd b (a % b) := by rw [Nat.gcd_comm, Nat.gcd_rec, Nat.gcd_comm]
    rw [xgcd_rec a hb, hgcd]
    by_cases hlast : a % b ∣ b
    · have htwo : 2 * (a % b) ≤ b := two_mul_le_of_dvd_of_lt hr hlast hlt
      rw [xgcd_of_dvd hr hlast, Nat.gcd_eq_right hlast]
      have hquot := natAbs_sub_mul_le (c := 2 * (a % b)) (q := a / b) (b := b) (r := 0) (x := 0) (y := 1)
        (by simp) (by simpa using htwo)
      exact ⟨by simpa using htwo, hquot.trans (Nat.mul_div_le a b)⟩
    · obtain ⟨hx, hy⟩ := ih (a % b) hlt b hr hlast
      exact ⟨hy, (natAbs_sub_mul_le hx hy).trans (Nat.div_add_mod a b).le⟩

/-- The bounds of R125. -/
theorem xgcd_coeff_le_max {a b : Nat} (hb : 0 < b) :
    (xgcd a b).2.1.natAbs ≤ max 1 (b / (2 * Nat.gcd a b)) ∧
    (xgcd a b).2.2.natAbs ≤ max 1 (a / (2 * Nat.gcd a b)) := by
  by_cases hdvd : b ∣ a
  · rw [xgcd_of_dvd hb hdvd]
    exact ⟨Nat.zero_le _, le_max_left 1 _⟩
  · have hg : 0 < 2 * Nat.gcd a b := Nat.mul_pos two_pos (Nat.gcd_pos_of_pos_right a hb)
    obtain ⟨hx, hy⟩ := xgcd_coeff_le a b hb hdvd
    exact ⟨((Nat.le_div_iff_mul_le hg).mpr hx).trans (le_max_right 1 _),
      ((Nat.le_div_iff_mul_le hg).mpr hy).trans (le_max_right 1 _)⟩

/-- Both coefficients fit a signed `w`-bit value: twice each lies within the other operand, or it is 0 or 1. -/
theorem xgcd_coeff_lt {a b w : Nat} (hw : 2 ≤ w) (ha : a < 2 ^ w) (hb : b < 2 ^ w) :
    (xgcd a b).2.1.natAbs < 2 ^ (w - 1) ∧ (xgcd a b).2.2.natAbs < 2 ^ (w - 1) := by
  have hone : 1 < 2 ^ (w - 1) := Nat.one_lt_two_pow (by omega)
  rcases Nat.eq_zero_or_pos b with rfl | hpos
  · rw [xgcd_zero_right]
    exact ⟨hone, Nat.zero_lt_of_lt hone⟩
  have hhalf : 2 ^ w = 2 * 2 ^ (w - 1) := by rw [← pow_succ']; congr 1; omega
  obtain ⟨hx, hy⟩ := xgcd_coeff_le_max (a := a) hpos
  have hdiv {v : Nat} (hv : v < 2 ^ w) : max 1 (v / (2 * Nat.gcd a b)) < 2 ^ (w - 1) := by
    refine max_lt hone (Nat.div_lt_of_lt_mul (hv.trans_le ?_))
    rw [hhalf, Nat.mul_assoc]
    exact Nat.mul_le_mul_left 2 (Nat.le_mul_of_pos_left _ (Nat.gcd_pos_of_pos_right a hpos))
  exact ⟨hx.trans_lt (hdiv hb), hy.trans_lt (hdiv ha)⟩

/-- Settles O20: a clause per lemma of this section. -/
theorem xgcdContract : Obligations.XgcdContract := fun a b =>
  ⟨(xgcd_bezout a b).1, (xgcd_bezout a b).2, xgcd_zero_right a, fun hb => xgcd_of_dvd hb (Nat.dvd_zero b),
    xgcd_rec a, fun _ => xgcd_coeff_le_max, fun _ => xgcd_coeff_lt⟩

/-! ## The decomposition of Miller-Rabin (R128) -/

theorem mrDecompose_spec {n : Nat} (hodd : n % 2 = 1) (hn : 3 ≤ n) :
    (mrDecompose n).1 * 2 ^ (mrDecompose n).2 = n - 1 ∧ (mrDecompose n).1 % 2 = 1 ∧ 1 ≤ (mrDecompose n).2 := by
  obtain ⟨hmul, hd, -, hs⟩ := mrHalve_spec (n - 1) (n - 1) 0 (by omega) (le_refl _)
  exact ⟨by simpa [mrDecompose] using hmul, hd, hs (by omega)⟩

theorem exponent_le_of_odd {d d' r r' : Nat} (h : d * 2 ^ r = d' * 2 ^ r') (hd' : d' % 2 = 1) : r ≤ r' := by
  have hcop : Nat.Coprime (2 ^ r) d' := (Nat.coprime_two_left.mpr (Nat.odd_iff.mpr hd')).pow_left r
  have hdvd : 2 ^ r ∣ 2 ^ r' := hcop.dvd_of_dvd_mul_left (h ▸ Nat.dvd_mul_left ..)
  exact (Nat.pow_dvd_pow_iff_le_right one_lt_two).mp hdvd

/-- `mr_decompose` answers any decomposition with an odd factor, since there is only one. -/
theorem mrDecompose_eq {n d r : Nat} (hodd : n % 2 = 1) (hn : 3 ≤ n) (h : n - 1 = d * 2 ^ r) (hd : d % 2 = 1) :
    mrDecompose n = (d, r) := by
  obtain ⟨hmul, hd', -⟩ := mrDecompose_spec hodd hn
  have heq := hmul.trans h
  have hr : (mrDecompose n).2 = r := le_antisymm (exponent_le_of_odd heq hd) (exponent_le_of_odd heq.symm hd')
  rw [hr] at heq
  exact Prod.ext (Nat.eq_of_mul_eq_mul_right (Nat.two_pow_pos r) heq) hr

/-! ## The round (R129) -/

/-- A round passes on `a^d` being 1, or on one of `a^d, a^(2d), …, a^(d·2^(r-1))` being `n - 1`. -/
theorem mrRound_iff {n d r : Nat} (a : Nat) (hodd : n % 2 = 1) (hn : 3 ≤ n) (h : n - 1 = d * 2 ^ r)
    (hd : d % 2 = 1) :
    mrRound n a = true ↔ a ^ d % n = 1 ∨ ∃ k < r, a ^ (d * 2 ^ k) % n = n - 1 := by
  have hdec : mrDecompose n = (d, r) := mrDecompose_eq hodd hn h hd
  have hr : 1 ≤ r := by have := (mrDecompose_spec hodd hn).2.2; rwa [hdec] at this
  have hpow (k : Nat) : (a ^ d % n) ^ 2 ^ k % n = a ^ (d * 2 ^ k) % n := by rw [← Nat.pow_mod, ← pow_mul]
  have hround : mrRound n a = true ↔
      (a ^ d % n = 1 ∨ a ^ d % n = n - 1) ∨ ∃ k, 1 ≤ k ∧ k ≤ r - 1 ∧ a ^ (d * 2 ^ k) % n = n - 1 := by
    simp only [mrRound, hdec, modexp_eq a d n (by omega), Bool.if_true_left, Bool.or_eq_true, decide_eq_true_eq,
      mrSquares_iff, hpow]
  rw [hround]
  constructor
  · rintro ((hone | hneg) | ⟨k, -, hk, hneg⟩)
    · exact .inl hone
    · exact .inr ⟨0, hr, by simpa using hneg⟩
    · exact .inr ⟨k, by omega, hneg⟩
  · rintro (hone | ⟨_ | k, hk, hneg⟩)
    · exact .inl (.inl hone)
    · exact .inl (.inr (by simpa using hneg))
    · exact .inr ⟨k + 1, by omega, by omega, hneg⟩

/-! ## The pre-check (R130) -/

theorem mrPrecheck_of_undecided {n : Nat} (h : mrUndecided n) : mrPrecheck n = none := by
  obtain ⟨hodd, hn⟩ := h
  rw [mrPrecheck, if_neg (by omega), if_neg (by omega), if_neg (by omega)]

/-- Where no round is needed the pre-check names the primes 2 and 3. -/
theorem mrPrecheck_of_decided {n : Nat} (h : ¬mrUndecided n) : mrPrecheck n = some (decide (n = 2 ∨ n = 3)) := by
  unfold mrUndecided at h
  unfold mrPrecheck
  split
  · rw [decide_eq_false (by omega)]
  split
  next hsmall => rw [decide_eq_true hsmall]
  next hsmall => rw [if_pos (by omega), decide_eq_false hsmall]

/-- Settles O23: the decomposition, the round and the pre-check, each by its lemma. -/
theorem millerRabinFunctions : Obligations.MillerRabinFunctions := by
  refine ⟨fun n => mrDecompose_spec, fun n a d r hodd hn _ _ => mrRound_iff a hodd (by omega), fun n => ?_⟩
  have hdecided : n < 2 ∨ n = 2 ∨ n = 3 ∨ n % 2 = 0 → mrPrecheck n = some (decide (n = 2 ∨ n = 3)) := fun h =>
    mrPrecheck_of_decided (by unfold mrUndecided; omega)
  refine ⟨fun h => ?_, fun h => ?_, fun heven h => ?_, fun hodd h => mrPrecheck_of_undecided ⟨hodd, h⟩⟩
  · rw [hdecided (by omega), decide_eq_false (by omega)]
  · rw [hdecided (by omega), decide_eq_true h]
  · rw [hdecided (by omega), decide_eq_false (by omega)]

/-! ## Primes pass (R133) -/

/-- Where 1 has no square roots but 1 and -1, repeated squaring arrives at 1 only from 1 or through -1. -/
theorem eq_one_or_pow_two_pow_eq_neg_one {R : Type*} [Ring R] [NoZeroDivisors R] {x : R} {r : Nat}
    (h : x ^ 2 ^ r = 1) : x = 1 ∨ ∃ k < r, x ^ 2 ^ k = -1 := by
  induction r with
  | zero => exact .inl (by simpa using h)
  | succ r ih =>
    rw [pow_succ, pow_mul, sq_eq_one_iff] at h
    rcases h with hone | hneg
    · exact (ih hone).imp_right fun ⟨k, hk, hpow⟩ => ⟨k, by omega, hpow⟩
    · exact .inr ⟨r, by omega, hneg⟩

theorem mod_eq_sub_one_of_cast_eq_neg_one {n m : Nat} (hn : 1 ≤ n) (h : (m : ZMod n) = -1) : m % n = n - 1 := by
  have hcast : ((n - 1 : Nat) : ZMod n) = -1 := by rw [Nat.cast_sub hn, ZMod.natCast_self]; simp
  have hmod := (ZMod.natCast_eq_natCast_iff' m (n - 1) n).mp (h.trans hcast.symm)
  rwa [Nat.mod_eq_of_lt (by omega : n - 1 < n)] at hmod

/-- A prime passes the round of every base that it does not divide, by Fermat's little theorem. -/
theorem mrRound_of_prime {p a : Nat} (hp : p.Prime) (hodd : p % 2 = 1) (ha : ¬p ∣ a) : mrRound p a = true := by
  have := Fact.mk hp
  have hp2 := hp.two_le
  have hp3 : 3 ≤ p := by omega
  obtain ⟨hmul, hd, -⟩ := mrDecompose_spec hodd hp3
  rw [mrRound_iff a hodd hp3 hmul.symm hd]
  have hne : (a : ZMod p) ≠ 0 := by rwa [Ne, ZMod.natCast_eq_zero_iff]
  have hfermat : ((a : ZMod p) ^ (mrDecompose p).1) ^ 2 ^ (mrDecompose p).2 = 1 := by
    rw [← pow_mul, hmul, ZMod.pow_card_sub_one_eq_one hne]
  refine (eq_one_or_pow_two_pow_eq_neg_one hfermat).imp (fun hone => ?_) fun ⟨k, hk, hneg⟩ => ⟨k, hk, ?_⟩
  · have hmod := (ZMod.natCast_eq_natCast_iff' (a ^ (mrDecompose p).1) 1 p).mp (by push_cast; exact hone)
    rwa [Nat.mod_eq_of_lt hp.one_lt] at hmod
  · refine mod_eq_sub_one_of_cast_eq_neg_one (by omega) ?_
    push_cast
    rwa [pow_mul]

theorem mrRound_of_prime_of_base {p a : Nat} (hp : p.Prime) (hund : mrUndecided p) (hlo : 2 ≤ a) (hhi : a ≤ p - 2) :
    mrRound p a = true := by
  obtain ⟨hodd, hn⟩ := hund
  exact mrRound_of_prime hp hodd (Nat.not_dvd_of_pos_of_lt (by omega) (by omega))

/-- Every draw gives a legal base (R132). -/
theorem mrBase_bounds {n : Nat} (hn : 5 ≤ n) (x : BitVec 512) : 2 ≤ mrBase n x ∧ mrBase n x ≤ n - 2 := by
  have := Nat.mod_lt x.toNat (by omega : 0 < n - 3)
  unfold mrBase
  omega

/-- The primes on which no round runs are 2 and 3. -/
theorem eq_two_or_three_of_prime {p : Nat} (hp : p.Prime) (h : ¬mrUndecided p) : p = 2 ∨ p = 3 := by
  unfold mrUndecided at h
  have hp2 := hp.two_le
  have hparity := hp.eq_two_or_odd
  omega

/-! ## MODMUL, MODEXP, XGCD, MODINV (R122, R123, R126, R127) -/

/-- The completion of a command whose one write is a value that fits a big register. -/
theorem State.exists_completion_setBig (s : State) (rd : BigReg) {v : Nat} (hv : v < 2 ^ s.params.w) :
    ∃ t, succeed (s.setBig rd v) = .next t ∧ s.CompletesIn t { big := [rd] } ∧ t.big rd = v :=
  ⟨_, rfl, s.completesIn_setBig rd v, s.big_setBig_same rd hv⟩

/-- A residue of a big register's modulus fits a big register. -/
theorem State.BigOk.lt_of_lt_big {s : State} (hok : s.BigOk) {rm : BigReg} {v : Nat} (hv : v < s.big rm) :
    v < 2 ^ s.params.w := hv.trans (hok rm)

/-- Settles O18: the one write is a residue, so it fits. -/
theorem modmulResult : Obligations.ModmulResult := by
  intro s rd ra rb rm hok hm
  have hexec : exec (.modmul rd ra rb rm) s = succeed (s.setBig rd (s.big ra * s.big rb % s.big rm)) := if_neg hm
  rw [hexec]
  exact s.exists_completion_setBig rd (hok.lt_of_lt_big (Nat.mod_lt _ (Nat.pos_of_ne_zero hm)))

/-- Settles O19, by `modexp_eq`: square-and-multiply is the power. -/
theorem modexpResult : Obligations.ModexpResult := by
  intro s rd ra rb rm hok hm
  have hpos := Nat.pos_of_ne_zero hm
  have hexec : exec (.modexp rd ra rb rm) s = succeed (s.setBig rd (modexp (s.big ra) (s.big rb) (s.big rm))) :=
    if_neg hm
  rw [hexec, modexp_eq _ _ _ hpos]
  exact s.exists_completion_setBig rd (hok.lt_of_lt_big (Nat.mod_lt _ hpos))

/-- The gcd of two registers fits a register, 0 for two zeros among them. -/
theorem State.BigOk.gcd_lt {s : State} (hok : s.BigOk) (ra rb : BigReg) :
    Nat.gcd (s.big ra) (s.big rb) < 2 ^ s.params.w := by
  rcases Nat.eq_zero_or_pos (s.big ra) with ha | ha
  · rw [ha, Nat.gcd_zero_left]
    exact hok rb
  · exact (Nat.gcd_le_left _ ha).trans_lt (hok ra)

theorem State.cast_twos (s : State) (x : Int) : (s.twos x : Int) = x % (2 ^ s.params.w : Nat) :=
  Int.toNat_of_nonneg (Int.emod_nonneg x (by positivity))

theorem bigReg_consecutive_ne (k : BigReg) : k ≠ k + 1 ∧ k ≠ k + 2 ∧ k + 1 ≠ k + 2 := by
  revert k
  decide

/-- Three writes to consecutive registers do not meet. -/
theorem State.big_setBig_three (s : State) (k : BigReg) {u v w : Nat} (hu : u < 2 ^ s.params.w)
    (hv : v < 2 ^ s.params.w) (hw : w < 2 ^ s.params.w) :
    (((s.setBig k u).setBig (k + 1) v).setBig (k + 2) w).big k = u ∧
    (((s.setBig k u).setBig (k + 1) v).setBig (k + 2) w).big (k + 1) = v ∧
    (((s.setBig k u).setBig (k + 1) v).setBig (k + 2) w).big (k + 2) = w := by
  obtain ⟨h01, h02, h12⟩ := bigReg_consecutive_ne k
  refine ⟨?_, ?_, State.big_setBig_same _ _ hw⟩
  · rw [State.big_setBig_ne _ _ h02, State.big_setBig_ne _ _ h01, s.big_setBig_same _ hu]
  · rw [State.big_setBig_ne _ _ h12, (s.setBig k u).big_setBig_same (k + 1) hv]

theorem State.completesIn_setBig_three (s : State) (k : BigReg) (u v w : Nat) :
    s.CompletesIn (((s.setBig k u).setBig (k + 1) v).setBig (k + 2) w).finish { big := [k, k + 1, k + 2] } :=
  (((State.Writes.nothing.setBig u (by simp)).setBig v (by simp)).setBig w (by simp)).completesIn

/-- Settles O21: the three writes of R126, read back one by one. -/
theorem xgcdResult : Obligations.XgcdResult := by
  intro s rd ra rb hok hrd
  obtain ⟨hgcd, hbezout⟩ := xgcd_bezout (s.big ra) (s.big rb)
  have hg : (xgcd (s.big ra) (s.big rb)).1 < 2 ^ s.params.w := hgcd ▸ hok.gcd_lt ra rb
  obtain ⟨hbig, hbig1, hbig2⟩ := s.big_setBig_three rd hg (s.twos_lt (xgcd (s.big ra) (s.big rb)).2.1)
    (s.twos_lt (xgcd (s.big ra) (s.big rb)).2.2)
  refine ⟨_, (xgcd (s.big ra) (s.big rb)).2.1, (xgcd (s.big ra) (s.big rb)).2.2, if_neg (by omega),
    s.completesIn_setBig_three rd _ _ _, ?_⟩
  simp only [State.finish_big, hbig, hbig1, hbig2, State.cast_twos, hbezout, and_self]

/-- The first Bezout coefficient, reduced, is the inverse modulo the second operand. -/
theorem mul_emod_toNat_mod {a m : Nat} {x y : Int} (hm : 0 < m) (h : (a : Int) * x + m * y = 1) :
    a * (x % m).toNat % m = 1 % m := by
  have hcast : (((x % m).toNat : Nat) : Int) = x % m := Int.toNat_of_nonneg (Int.emod_nonneg x (by omega))
  apply Int.natCast_inj.mp
  push_cast
  rw [hcast, ← h, Int.mul_emod, Int.emod_emod, ← Int.mul_emod, Int.add_mul_emod_self_left]

/-- Settles O22: the first coefficient of `xgcd`, reduced modulo `m`. -/
theorem modinvResult : Obligations.ModinvResult := by
  intro s rd ra rm hok hm hcop
  have hpos := Nat.pos_of_ne_zero hm
  obtain ⟨hgcd, hbezout⟩ := xgcd_bezout (s.big ra) (s.big rm)
  have hone : (xgcd (s.big ra) (s.big rm)).1 = 1 := hgcd.trans hcop
  rw [hone, Nat.cast_one] at hbezout
  have hlt : ((xgcd (s.big ra) (s.big rm)).2.1 % (s.big rm : Int)).toNat < s.big rm := by
    have := Int.emod_lt_of_pos (xgcd (s.big ra) (s.big rm)).2.1 (Int.natCast_pos.mpr hpos)
    omega
  have hexec : exec (.modinv rd ra rm) s =
      succeed (s.setBig rd ((xgcd (s.big ra) (s.big rm)).2.1 % (s.big rm : Int)).toNat) :=
    (if_neg hm).trans (if_neg (not_not.mpr hone))
  obtain ⟨t, ht, hframe, hbig⟩ := s.exists_completion_setBig rd (hok.lt_of_lt_big hlt)
  exact ⟨t, hexec.trans ht, hframe, hbig ▸ hlt, hbig ▸ mul_emod_toNat_mod hpos hbezout⟩

/-! ## MRWIT (R131) -/

theorem exec_mrwit_of_decided {s : State} {rn : BigReg} (rbase : BigReg) (h : ¬mrUndecided (s.big rn)) :
    exec (.mrwit rn rbase) s = succeed (s.setPrime (decide (s.big rn = 2 ∨ s.big rn = 3))) := by
  simp only [exec, execMrwit, mrPrecheck_of_decided h]

theorem exec_mrwit_of_undecided {s : State} {rn rbase : BigReg} (h : mrUndecided (s.big rn))
    (hbase : 2 ≤ s.big rbase ∧ s.big rbase ≤ s.big rn - 2) :
    exec (.mrwit rn rbase) s = succeed (s.setPrime (mrRound (s.big rn) (s.big rbase))) := by
  simp only [exec, execMrwit, mrPrecheck_of_undecided h]
  exact if_neg (by omega)

theorem State.completesIn_setPrime (s : State) (b : Bool) : s.CompletesIn (s.setPrime b).finish { prime := true } :=
  (State.Writes.nothing.setPrime b rfl).completesIn

/-- Settles O24: where the pre-check decides its verdict is `n ∈ {2, 3}`, else the round's. -/
theorem mrwitResult : Obligations.MrwitResult := by
  intro s rn rbase hbase
  by_cases hund : mrUndecided (s.big rn)
  · refine ⟨_, exec_mrwit_of_undecided hund (hbase hund), s.completesIn_setPrime _, ?_⟩
    obtain ⟨hodd, hn⟩ := hund
    exact ⟨fun h => by omega, fun h => by omega, fun h _ => by omega, fun _ => rfl⟩
  · refine ⟨_, exec_mrwit_of_decided rbase hund, s.completesIn_setPrime _, fun h => ?_, fun h => ?_, fun h h4 => ?_,
      fun h => absurd h hund⟩
    · exact decide_eq_false (by omega)
    · exact decide_eq_true h
    · exact decide_eq_false (by omega)

/-! ## MRTEST (R132) -/

theorem exec_mrtest_of_decided {s : State} {rn : BigReg} (iters : Byte) (hxsv : s.xsv = true)
    (h : ¬mrUndecided (s.big rn)) :
    exec (.mrtest rn iters) s = succeed (s.setPrime (decide (s.big rn = 2 ∨ s.big rn = 3))) := by
  simp only [exec, execMrtest, hxsv, mrPrecheck_of_decided h]
  rfl

theorem exec_mrtest_of_undecided {s : State} {rn : BigReg} (iters : Byte) (hxsv : s.xsv = true)
    (h : mrUndecided (s.big rn)) :
    exec (.mrtest rn iters) s =
      succeed ((s.setXs (mrTestLoop s.params.xsSteps (s.big rn) iters.toNat s.xs).1).setPrime
        (mrTestLoop s.params.xsSteps (s.big rn) iters.toNat s.xs).2) := by
  simp only [exec, execMrtest, hxsv, mrPrecheck_of_undecided h]
  rfl

/-- Settles O25: no draw where the pre-check decides, else the loop as `mrTestLoop_spec` describes it. -/
theorem mrtestResult : Obligations.MrtestResult := by
  intro s rn iters hxsv
  by_cases hund : mrUndecided (s.big rn)
  · obtain ⟨j, hj, hxs, hpass, hverdict⟩ := mrTestLoop_spec s.params.xsSteps (s.big rn) iters.toNat s.xs
    have hframe : s.CompletesIn ((s.setXs (mrTestLoop s.params.xsSteps (s.big rn) iters.toNat s.xs).1).setPrime
        (mrTestLoop s.params.xsSteps (s.big rn) iters.toNat s.xs).2).finish { prime := true, xs := true } := by
      rw [hxs]
      exact ((State.Writes.nothing.setXs j rfl).setPrime _ rfl).completesIn
    refine ⟨_, exec_mrtest_of_undecided iters hxsv hund, hframe, fun h => absurd hund h, fun _ =>
      ⟨j, hj, hxs, hpass, hverdict.imp_left ?_⟩⟩
    rintro ⟨htrue, rfl, hall⟩
    exact ⟨htrue, rfl, fun hpos => hall _ hpos (le_refl _)⟩
  · have hframe : s.CompletesIn (s.setPrime (decide (s.big rn = 2 ∨ s.big rn = 3))).finish
        { prime := true, xs := true } := (State.Writes.nothing.setPrime _ rfl).completesIn
    exact ⟨_, exec_mrtest_of_decided iters hxsv hund, hframe, fun _ => ⟨rfl, decide_eq_true_iff⟩,
      fun h => absurd h hund⟩

/-- If every base that a draw can give passes, the loop makes all its draws and passes. -/
theorem mrTestLoop_of_forall_pass {steps : Vector Config.XsStep 3} {n : Nat}
    (h : ∀ x, mrRound n (mrBase n x) = true) (iters : Nat) (x : BitVec 512) :
    mrTestLoop steps n iters x = ((xsStep steps)^[iters] x, true) := by
  obtain ⟨j, -, hxs, -, hverdict⟩ := mrTestLoop_spec steps n iters x
  rcases hverdict with ⟨htrue, rfl, -⟩ | ⟨-, -, hreject⟩
  · exact Prod.ext hxs htrue
  · exact absurd hreject (by rw [h]; decide)

/-- Settles O26: the primes 2 and 3 by the pre-check, the others by `mrRound_of_prime_of_base` on every base. -/
theorem primesAlwaysPass : Obligations.PrimesAlwaysPass := by
  intro s rn hp
  by_cases hund : mrUndecided (s.big rn)
  · refine ⟨fun rbase hbase => ?_, fun iters hxsv => ?_⟩
    · obtain ⟨hlo, hhi⟩ := hbase hund.2
      exact ⟨_, exec_mrwit_of_undecided hund ⟨hlo, hhi⟩, rfl, mrRound_of_prime_of_base hp hund hlo hhi⟩
    · have hpass (x : BitVec 512) : mrRound (s.big rn) (mrBase (s.big rn) x) = true :=
        mrRound_of_prime_of_base hp hund (mrBase_bounds hund.2 x).1 (mrBase_bounds hund.2 x).2
      have hexec := exec_mrtest_of_undecided iters hxsv hund
      rw [mrTestLoop_of_forall_pass hpass] at hexec
      exact ⟨_, hexec, rfl, rfl, fun _ => rfl⟩
  · have hsmall := eq_two_or_three_of_prime hp hund
    exact ⟨fun rbase _ => ⟨_, exec_mrwit_of_decided rbase hund, rfl, decide_eq_true hsmall⟩,
      fun iters hxsv => ⟨_, exec_mrtest_of_decided iters hxsv hund, rfl, decide_eq_true hsmall, fun h => by omega⟩⟩

end Sys2Proof.Machine

/-!
PROOFS. The PRNG (41_prng.md). `xs_step` is read over the integers and is a bijection, both from the laws of one
shift-xor step; the seed is read as the low 512 bits of a register, which decides between the completion and the fault
of PRSEED. That no reachable state is at 0 is the clause on XS of the invariant.
-/

namespace Sys2Proof.Machine

/-! ## `xs_step` (R151) -/

theorem toNat_xsStep (steps : Vector Config.XsStep 3) (x : BitVec 512) :
    (xsStep steps x).toNat = xsShiftInt steps[2] (xsShiftInt steps[1] (xsShiftInt steps[0] x.toNat)) := by
  simp only [xsStep, toNat_xsShift]
  rfl

theorem xsStep_zero (steps : Vector Config.XsStep 3) : xsStep steps 0 = 0 := by
  simp only [xsStep, xsShift_zero]

/-- Each of the three steps of a legal record is injective, and a finite set has no other injections into itself than
bijections. -/
theorem xsStep_bijective {p : Config.Params} (hp : p.wf = true) : Function.Bijective (xsStep p.xsSteps) := by
  have hshift (k : Fin 3) : Function.Injective (xsShift (p.xsSteps.get k)) :=
    xsShift_injective (amount_pos_of_wf hp k)
  exact Finite.injective_iff_bijective.mp ((hshift 2).comp ((hshift 1).comp (hshift 0)))

/-! ## PRSEED (R152) -/

/-- With `w = 512` this decides the seed of PRSEED, the low 512 bits of its register. -/
theorem ofNat_eq_zero_iff_mod (w n : Nat) : BitVec.ofNat w n = 0 ↔ n % 2 ^ w = 0 := by
  rw [← BitVec.toNat_inj, BitVec.toNat_ofNat, BitVec.ofNat_eq_ofNat, BitVec.toNat_ofNat, Nat.zero_mod]

theorem exec_prseed_of_zero {s : State} {ra : BigReg} (h : s.big ra % 2 ^ 512 = 0) :
    exec (.prseed ra) s = .next (s.faulted 10) := by
  have hexec : exec (.prseed ra) s = raise .badOperand s := if_pos ((ofNat_eq_zero_iff_mod _ _).mpr h)
  rw [hexec, raise, State.faultEntry_eq_faulted]
  rfl

theorem exec_prseed_of_ne_zero {s : State} {ra : BigReg} (h : s.big ra % 2 ^ 512 ≠ 0) :
    exec (.prseed ra) s = succeed (s.seedXs (BitVec.ofNat 512 (s.big ra))) :=
  if_neg ((ofNat_eq_zero_iff_mod _ _).not.mpr h)

/-! ## PRNEXT (R153) -/

theorem exec_prnext_of_seeded {s : State} (rd : BigReg) (hxsv : s.xsv = true) :
    exec (.prnext rd) s = succeed ((s.setXs s.xsNext).setBig rd s.xsNext.toNat) :=
  if_neg (Bool.not_eq_false _ ▸ hxsv)

/-- A state of the PRNG fits a big register of a legal core (00_scope.md R8). -/
theorem toNat_lt_two_pow_w {p : Config.Params} (hp : p.wf = true) (x : BitVec 512) : x.toNat < 2 ^ p.w := by
  have hw : 512 ≤ p.w := by
    simp only [Config.Params.wf, Config.wLegal, Bool.and_eq_true, decide_eq_true_eq] at hp
    omega
  exact BitVec.toNat_lt_twoPow_of_le hw

/-! ## The obligations -/

/-- Settles O28: bijectivity from the injective shifts, the last clause from the invariant of reachable states. -/
theorem zeroStateNeverReached : Obligations.ZeroStateNeverReached :=
  ⟨toNat_xsStep,
    fun p hp => ⟨xsStep_bijective hp, xsStep_zero p.xsSteps, fun _ hx => xsStep_ne_zero hp hx, rfl⟩,
    fun _ _ h => exec_prseed_of_zero h,
    fun _ hs => hs.inv.xs⟩

/-- Settles O27: each completion is its named writes, and the new state of the PRNG fits `R[rd]`. -/
theorem prngCommandResults : Obligations.PrngCommandResults := by
  refine ⟨fun s ra hseed => ?_, fun s rd hp hxsv => ?_⟩
  · have hwrites : s.Writes { xs := true, xsv := true } (s.seedXs (BitVec.ofNat 512 (s.big ra))) :=
      .seedXs .nothing ((ofNat_eq_zero_iff_mod _ _).not.mpr hseed) rfl rfl
    exact ⟨_, exec_prseed_of_ne_zero hseed, hwrites.completesIn, rfl, BitVec.toNat_ofNat ..⟩
  · have hwrites : s.Writes { big := [rd], xs := true } ((s.setXs s.xsNext).setBig rd s.xsNext.toNat) :=
      (State.Writes.nothing.setXs 1 rfl).setBig _ (List.mem_singleton_self rd)
    have hbig : ((s.setXs s.xsNext).setBig rd s.xsNext.toNat).big rd = s.xsNext.toNat :=
      State.big_setBig_same _ rd (toNat_lt_two_pow_w hp s.xsNext)
    exact ⟨_, exec_prnext_of_seeded rd hxsv, hwrites.completesIn, rfl, hbig⟩

end Sys2Proof.Machine

/-!
PROOFS. The keystream unit (42_keystream.md). Its array is read as integers (`Table.entry`), on which a swap exchanges
two entries; the key schedule is the trace of its swap loop, and the output step one more swap. Each command is then
the completion with its named writes, and the bytes it leaves in DM are read back one by one.
-/

namespace Sys2Proof.Machine

/-! ## The array as integers -/

/-- Entry `k` of a table as an integer, 0 outside the table. -/
def Table.entry (t : Table) (k : Nat) : Nat := (t.toList.getD k 0).toNat

theorem Keystream.entry_eq (u : Keystream) (k : Nat) : u.entry k = Table.entry u.s k := rfl

theorem Table.entry_val (t : Table) (k : Fin 256) : Table.entry t k.val = (t.get k).toNat := by
  simp [Table.entry, Vector.get_eq_getElem]

theorem Table.entry_of_ge (t : Table) {k : Nat} (h : 256 ≤ k) : Table.entry t k = 0 := by
  simp [Table.entry, h]

theorem Table.toNat_at (t : Table) (i : Byte) : (Table.at t i).toNat = Table.entry t i.toNat :=
  (Table.entry_val t i.toFin).symm

/-- A swap exchanges the two entries that the indices name and keeps the others. -/
theorem Table.entry_swap (t : Table) (i j : Byte) {k : Nat} (h : k < 256) :
    Table.entry (Table.swap t i j) k =
      if k = i.toNat then Table.entry t j.toNat else if k = j.toNat then Table.entry t i.toNat
      else Table.entry t k := by
  have hindex (b : Byte) : (⟨k, h⟩ : Fin 256) = b.toFin ↔ k = b.toNat := Fin.ext_iff
  calc Table.entry (Table.swap t i j) k
    _ = (t.get (Equiv.swap i.toFin j.toFin ⟨k, h⟩)).toNat := by rw [← Table.get_swap, ← Table.entry_val]
    _ = _ := by
      simp only [Equiv.swap_apply_def, hindex, ← Table.entry_val]
      split_ifs <;> rfl

/-- An index below a size of at most 256 fits a byte. -/
theorem toNat_ofNat_of_lt {n i : Nat} (hle : n ≤ 256) (hi : i < n) : (BitVec.ofNat 8 i).toNat = i := by
  rw [BitVec.toNat_ofNat, Nat.mod_eq_of_lt (by omega)]

theorem toNat_ofNat_mod {n : Nat} (hpos : 1 ≤ n) (hle : n ≤ 256) (v : Nat) :
    (BitVec.ofNat 8 (v % n)).toNat = v % n :=
  toNat_ofNat_of_lt hle (Nat.mod_lt v hpos)

/-- Every value below `n` occurs in a permutation of `0..n-1`. -/
theorem Table.IsPerm.exists_entry {t : Table} {n v : Nat} (h : Table.IsPerm t n) (hn : n ≤ 256) (hv : v < n) :
    ∃ k < n, Table.entry t k = v := by
  have hmem : BitVec.ofNat 8 v ∈ Table.first t n :=
    (first_perm_range hn h).mem_iff.mpr (List.mem_map_of_mem (List.mem_range.mpr hv))
  obtain ⟨k, hk⟩ := List.mem_iff_getElem?.mp hmem
  have hlt : k < n := by
    rw [← length_first t hn]
    exact (List.getElem?_eq_some_iff.mp hk).1
  rw [getElem?_first t hn hlt, Option.some.injEq] at hk
  refine ⟨k, hlt, ?_⟩
  rw [Table.entry_val t ⟨k, by omega⟩, hk, toNat_ofNat_of_lt hn hv]

/-! ## The key schedule (R161) -/

/-- The index and the array of the key schedule after `i` turns of its swap loop. -/
def ksaTrace (key : List Byte) (n : Nat) : Nat → Byte × Table
  | 0 => (0, identityTable n)
  | i + 1 =>
    (ksaIndex key n (ksaTrace key n i).2 i (ksaTrace key n i).1,
      Table.swap (ksaTrace key n i).2 (BitVec.ofNat 8 i)
        (ksaIndex key n (ksaTrace key n i).2 i (ksaTrace key n i).1))

/-- The loop, entered after `i` turns, ends with the array after the turns that are left. -/
theorem ksaLoop_ksaTrace (key : List Byte) (n count i : Nat) :
    ksaLoop key n count i (ksaTrace key n i).1 (ksaTrace key n i).2 = (ksaTrace key n (i + count)).2 := by
  induction count generalizing i with
  | zero => rfl
  | succ count ih =>
    rw [← Nat.add_assoc, Nat.add_right_comm]
    exact ih (i + 1)

theorem ksInit_s (key : List Byte) (n : Nat) : (ksInit key n).s = (ksaTrace key n n).2 := by
  have := ksaLoop_ksaTrace key n n 0
  rwa [Nat.zero_add] at this

theorem entry_identityTable {n k : Nat} (hle : n ≤ 256) (hk : k < n) : Table.entry (identityTable n) k = k := by
  rw [Table.entry_val _ ⟨k, by omega⟩, get_identityTable, if_pos hk, toNat_ofNat_of_lt hle hk]

theorem toNat_ksaTrace_succ (key : List Byte) {n i : Nat} (hle : n ≤ 256) (hi : i < n) :
    (ksaTrace key n (i + 1)).1.toNat =
      ((ksaTrace key n i).1.toNat + Table.entry (ksaTrace key n i).2 i + (key.getD (i % key.length) 0).toNat) % n := by
  rw [ksaTrace, ksaIndex, toNat_ofNat_mod (by omega) hle, Table.toNat_at, toNat_ofNat_of_lt hle hi]

theorem entry_ksaTrace_succ (key : List Byte) {n i k : Nat} (hle : n ≤ 256) (hi : i < n) (hk : k < n) :
    Table.entry (ksaTrace key n (i + 1)).2 k =
      if k = i then Table.entry (ksaTrace key n i).2 (ksaTrace key n (i + 1)).1.toNat
      else if k = (ksaTrace key n (i + 1)).1.toNat then Table.entry (ksaTrace key n i).2 i
      else Table.entry (ksaTrace key n i).2 k := by
  have hswap := Table.entry_swap (ksaTrace key n i).2 (BitVec.ofNat 8 i) (ksaTrace key n (i + 1)).1
    (show k < 256 by omega)
  rwa [toNat_ofNat_of_lt hle hi] at hswap

theorem entry_ksInit_of_ge (key : List Byte) {n k : Nat} (hle : n ≤ 256) (hk : n ≤ k) : (ksInit key n).entry k = 0 := by
  rw [Keystream.entry_eq]
  rcases Nat.lt_or_ge k 256 with hlt | hge
  · rw [Table.entry_val _ ⟨k, hlt⟩, ksInit_top key hle _ hk]
    rfl
  · exact Table.entry_of_ge _ hge

/-- Settles O29: `T` and `J` are the arrays and the indices of the trace of the swap loop. -/
theorem keySchedule : Obligations.KeySchedule := by
  intro s key n _ hpos hle
  refine ⟨fun i => Table.entry (ksaTrace key n i).2, fun i => (ksaTrace key n i).1.toNat,
    fun k hk => entry_identityTable hle hk, rfl,
    fun i hi => ⟨toNat_ksaTrace_succ key hle hi, fun k hk => entry_ksaTrace_succ key hle hi hk⟩,
    fun k _ => ?_, fun k hk => entry_ksInit_of_ge key hle hk, ksInit_n key hle, rfl, rfl, rfl,
    ksInit_ok key hpos hle⟩
  rw [State.initKs_ks, Keystream.entry_eq, ksInit_s]

/-- The key is repeated over the `n` turns, so its bytes from `n` on are never looked at. -/
theorem ksInit_take (key : List Byte) (n : Nat) : ksInit (key.take n) n = ksInit key n := by
  have hbyte : ∀ k < n, (key.take n).getD (k % (key.take n).length) 0 = key.getD (k % key.length) 0 := by
    intro k hk
    rcases Nat.le_total key.length n with hshort | hlong
    · rw [List.take_of_length_le hshort]
    · rw [List.length_take, Nat.min_eq_left hlong, Nat.mod_eq_of_lt hk, Nat.mod_eq_of_lt (hk.trans_le hlong),
        List.getD_eq_getElem?_getD, List.getD_eq_getElem?_getD, List.getElem?_take_of_lt hk]
  rw [ksInit, ksInit, ksaLoop_congr n 0 0 (identityTable n) fun k _ hk => hbyte k (by omega)]

/-! ## The output step (R162) -/

theorem Keystream.toNat_nextI {u : Keystream} (h : u.Ok) : u.nextI.toNat = (u.i.toNat + 1) % u.n.toNat :=
  toNat_ofNat_mod h.pos h.le _

theorem Keystream.toNat_nextJ {u : Keystream} (h : u.Ok) :
    u.nextJ.toNat = (u.j.toNat + u.entry u.nextI.toNat) % u.n.toNat := by
  rw [Keystream.nextJ, toNat_ofNat_mod h.pos h.le, Table.toNat_at, Keystream.entry_eq]

theorem Keystream.toNat_output {u : Keystream} (h : u.Ok) :
    u.output.toNat = u.entry ((u.entry u.i.toNat + u.entry u.j.toNat) % u.n.toNat) := by
  rw [Keystream.output, Table.toNat_at, toNat_ofNat_mod h.pos h.le, Table.toNat_at, Table.toNat_at]
  rfl

/-- Settles O30: the new indices, the swap and the byte, each read as an integer. -/
theorem outputStep : Obligations.OutputStep := fun u h =>
  have hnext : u.advance.Ok := Keystream.advance_ok h
  ⟨rfl, Keystream.toNat_nextI h, Keystream.toNat_nextJ h, fun _ hk => Table.entry_swap u.s u.nextI u.nextJ hk,
    Keystream.toNat_output hnext, Keystream.output_lt hnext, hnext⟩

/-! ## The completions of the commands (R163 to R167) -/

theorem State.InDm.not_outOfDm {s : State} {a n : Nat} (h : s.InDm a n) : ¬s.outOfDm a n = true := by
  rw [(s.outOfDm_eq_false_iff a n).mpr h]
  exact Bool.false_ne_true

/-- The state that KSNEXT of an initialised unit leaves (R164). -/
def State.afterKsnext (sd : ScalReg) (s : State) : State :=
  ((s.setKs (ksNext s.ks).2).setScal sd ((ksNext s.ks).1.setWidth 32)).finish

/-- `n` bytes of DM from `src` on, masked with the keystream (R166). -/
def State.masked (s : State) (src n : Nat) : List Byte := xorBytes (s.load src n) (ksTake n s.ks).1

section Completions

variable {s : State}

theorem exec_ksinit_of_valid {sKey sLen sN : ScalReg} (hpos : 1 ≤ s.scalNat sN) (hle : s.scalNat sN ≤ 256)
    (hlen : s.scalNat sLen ≠ 0) (hkey : s.InDm (s.scalNat sKey) (s.scalNat sLen)) :
    exec (.ksinit sKey sLen sN) s =
      succeed (s.initKs (s.load (s.scalNat sKey) (s.scalNat sLen)) (s.scalNat sN)) :=
  (if_neg (by omega)).trans (if_neg hkey.not_outOfDm)

theorem exec_ksnext_of_keyed (sd : ScalReg) (hksv : s.ksv = true) :
    exec (.ksnext sd) s = .next (s.afterKsnext sd) :=
  if_neg (Bool.not_eq_false _ ▸ hksv)

theorem exec_ksbytes_of_keyed {sDst sLen : ScalReg} (hksv : s.ksv = true)
    (hdst : s.InDm (s.scalNat sDst) (s.scalNat sLen)) :
    exec (.ksbytes sDst sLen) s =
      succeed ((s.setKs (ksTake (s.scalNat sLen) s.ks).2).store (s.scalNat sDst)
        (ksTake (s.scalNat sLen) s.ks).1) :=
  (if_neg (Bool.not_eq_false _ ▸ hksv)).trans (if_neg hdst.not_outOfDm)

theorem exec_ksciph_of_keyed {sDst sSrc sLen : ScalReg} (hksv : s.ksv = true)
    (hsrc : s.InDm (s.scalNat sSrc) (s.scalNat sLen)) (hdst : s.InDm (s.scalNat sDst) (s.scalNat sLen)) :
    exec (.ksciph sDst sSrc sLen) s =
      succeed ((s.setKs (ksTake (s.scalNat sLen) s.ks).2).store (s.scalNat sDst)
        (s.masked (s.scalNat sSrc) (s.scalNat sLen))) :=
  (if_neg (Bool.not_eq_false _ ▸ hksv)).trans
    (if_neg (by simp [Bool.eq_false_iff.mpr hsrc.not_outOfDm, Bool.eq_false_iff.mpr hdst.not_outOfDm]))

theorem exec_ksperm_of_keyed {sDst : ScalReg} (hksv : s.ksv = true) (hdst : s.InDm (s.scalNat sDst) s.ks.n.toNat) :
    exec (.ksperm sDst) s = succeed (s.store (s.scalNat sDst) s.ks.used) :=
  (if_neg (Bool.not_eq_false _ ▸ hksv)).trans (if_neg hdst.not_outOfDm)

/-- A completion that steps the unit on and stores `n` bytes. -/
theorem State.completesIn_setKs_store (hksv : s.ksv = true) (m : Nat) {a n : Nat} {bs : List Byte}
    (hlen : bs.length = n) (hdm : s.InDm a n) :
    s.CompletesIn ((s.setKs (ksTake m s.ks).2).store a bs).finish { dmAddr := a, dmLen := n, ks := true } :=
  ((State.Writes.nothing.setKs m hksv rfl).store (f := { dmAddr := a, dmLen := n, ks := true }) hlen.le hdm).completesIn

end Completions

/-! ## KSINIT (R163) -/

/-- Settles O31: the one write is the key schedule, which looks at the first `N` key bytes (`ksInit_take`). -/
theorem ksinitResult : Obligations.KsinitResult := by
  intro s sKey sLen sN hpos hle hlen hkey
  have hwrites : s.Writes { ks := true, ksv := true }
      (s.initKs (s.load (s.scalNat sKey) (s.scalNat sLen)) (s.scalNat sN)) :=
    State.Writes.nothing.initKs _ hpos hle rfl rfl
  exact ⟨_, exec_ksinit_of_valid hpos hle hlen hkey, hwrites.completesIn, rfl, ksInit_ok _ hpos hle, ksInit_n _ hle,
    rfl, (ksInit_take _ _).symm⟩

/-! ## KSNEXT (R164) -/

section Ksnext

variable (s : State) (sd : ScalReg)

theorem State.scalNat_afterKsnext : (s.afterKsnext sd).scalNat sd = s.ks.advance.output.toNat := by
  have hscal : (s.afterKsnext sd).scal sd = s.ks.advance.output.setWidth 32 :=
    (State.scal_setScal _ sd sd _).trans (if_pos rfl)
  rw [State.scalNat, hscal, BitVec.toNat_setWidth_of_le (by decide)]

/-- KSNEXT commands one after another step the unit on, one output step each. -/
theorem State.ks_iterate_afterKsnext (k : Nat) :
    ((State.afterKsnext sd)^[k] s).ks = Keystream.advance^[k] s.ks ∧ ((State.afterKsnext sd)^[k] s).ksv = s.ksv := by
  induction k generalizing s with
  | zero => exact ⟨rfl, rfl⟩
  | succ k ih => exact ih (s.afterKsnext sd)

/-- The `k + 1`st of the KSNEXT commands gives the byte of the `k + 1`st output step. -/
theorem State.scalNat_iterate_afterKsnext (k : Nat) :
    ((State.afterKsnext sd)^[k + 1] s).scalNat sd = (Keystream.advance^[k + 1] s.ks).output.toNat := by
  rw [Function.iterate_succ_apply', State.scalNat_afterKsnext, (s.ks_iterate_afterKsnext sd k).1,
    ← Function.iterate_succ_apply' Keystream.advance]

end Ksnext

/-- Settles O32: one output step of the unit, its byte written to `S[sd]` and below `KS.N` as the unit is initialised. -/
theorem ksnextResult : Obligations.KsnextResult := by
  intro s sd hksv hok
  have hwrites : s.Writes { scal := [sd], ks := true }
      ((s.setKs (ksNext s.ks).2).setScal sd ((ksNext s.ks).1.setWidth 32)) :=
    (State.Writes.nothing.setKs 1 hksv rfl).setScal _ (List.mem_singleton_self sd)
  refine ⟨_, exec_ksnext_of_keyed sd hksv, hwrites.completesIn, rfl, s.scalNat_afterKsnext sd, ?_⟩
  rw [s.scalNat_afterKsnext sd]
  exact Keystream.output_lt (Keystream.advance_ok hok)

/-! ## KSBYTES (R165) -/

/-- What is read inside a range just written. -/
theorem Memory.read_writeBytes_getD {m : Memory} (hm : m.wf = true) (a : Nat) {bs : List Byte} {k : Nat}
    (h : k < bs.length) : (m.writeBytes a bs).read (a + k) = bs.getD k 0 := by
  rw [m.read_writeBytes_inside bs hm h, List.getD_eq_getElem _ _ h]

theorem getD_ksTake (u : Keystream) {n k : Nat} (h : k < n) :
    (ksTake n u).1.getD k 0 = (Keystream.advance^[k + 1] u).output := by
  rw [List.getD_eq_getElem?_getD, getElem_ksTake u h, Option.getD_some]

/-- Settles O33: both sides are the output steps of the unit, the KSNEXT commands being the iteration of one. -/
theorem ksbytesEqualsKsnexts : Obligations.KsbytesEqualsKsnexts := by
  intro s sDst sLen sd hwf hksv hdst
  refine ⟨_, fun k => (State.afterKsnext sd)^[k] s, exec_ksbytes_of_keyed hksv hdst,
    State.completesIn_setKs_store hksv _ (length_ksTake ..) hdst, rfl, fun k _ => ?_, fun k hk => ?_, ?_⟩
  · exact (exec_ksnext_of_keyed sd ((s.ks_iterate_afterKsnext sd k).2.trans hksv)).trans
      (congrArg Host.Outcome.next (Function.iterate_succ_apply' ..).symm)
  · rw [s.scalNat_iterate_afterKsnext sd k, ← getD_ksTake s.ks hk]
    exact congrArg BitVec.toNat (Memory.read_writeBytes_getD hwf _ (by rwa [length_ksTake]))
  · exact (ksTake_unit _ s.ks).trans (s.ks_iterate_afterKsnext sd _).1.symm

/-! ## KSCIPH (R166) -/

theorem getD_xorBytes {a b : List Byte} {k : Nat} (ha : k < a.length) (hb : k < b.length) :
    (xorBytes a b).getD k 0 = a.getD k 0 ^^^ b.getD k 0 := by
  simp [xorBytes, List.getElem?_zipWith, List.getElem?_eq_getElem ha, List.getElem?_eq_getElem hb]

@[simp] theorem State.length_masked (s : State) (src n : Nat) : (s.masked src n).length = n := by
  simp [State.masked, length_xorBytes]

/-- Byte `k` of the masked bytes: the byte at `src + k` of DM, masked with byte `k` of the keystream. -/
theorem State.getD_masked (s : State) (src : Nat) {n k : Nat} (h : k < n) :
    (s.masked src n).getD k 0 = s.dm.read (src + k) ^^^ (ksTake n s.ks).1.getD k 0 := by
  rw [State.masked, getD_xorBytes (by rwa [State.length_load]) (by rwa [length_ksTake]), s.getD_load src h]

theorem State.load_store {s : State} (hwf : s.dm.wf = true) (a : Nat) {bs : List Byte} {n : Nat} (h : bs.length = n) :
    (s.store a bs).load a n = bs :=
  h ▸ s.dm.readBytes_writeBytes a bs hwf

/-- KSCIPH in place, of bytes that were masked with the same unit: the same mask twice is no mask. -/
theorem exec_ksciph_of_masked {s t : State} {sDst sLen : ScalReg} {src n : Nat} (hwf : t.dm.wf = true)
    (hksv : t.ksv = true) (hks : t.ks = s.ks) (hn : t.scalNat sLen = n) (hdst : t.InDm (t.scalNat sDst) n)
    (hload : t.load (t.scalNat sDst) n = s.masked src n) :
    ∃ v, exec (.ksciph sDst sDst sLen) t = .next v ∧
      ∀ k < n, v.dm.read (t.scalNat sDst + k) = s.dm.read (src + k) := by
  subst hn
  have hplain : t.masked (t.scalNat sDst) (t.scalNat sLen) = s.load src (t.scalNat sLen) := by
    rw [State.masked, hload, hks, State.masked, xorBytes_xorBytes _ _ (by simp)]
  refine ⟨_, exec_ksciph_of_keyed hksv hdst hdst, fun k hk => ?_⟩
  rw [State.finish_dm, State.store_dm, State.setKs_dm, Memory.read_writeBytes_getD hwf _ (by simpa using hk), hplain,
    s.getD_load src hk]

/-- Settles O34: byte by byte, the mask being the bytes of KSBYTES; the deciphering is KSCIPH of masked bytes. A command
loads its source before it stores, so the ranges may overlap. -/
theorem ksciphResult : Obligations.KsciphResult := by
  intro s sDst sSrc sLen hwf hksv hsrc hdst
  have hlen := s.length_masked (s.scalNat sSrc) (s.scalNat sLen)
  obtain ⟨v, hv, hplain⟩ := exec_ksciph_of_masked (s := s) (sDst := sDst) (sLen := sLen)
    (t := (s.store (s.scalNat sDst) (s.masked (s.scalNat sSrc) (s.scalNat sLen))).finish)
    (s.dm.wf_writeBytes _ _ hwf) hksv rfl rfl hdst (State.load_store hwf _ hlen)
  refine ⟨_, _, v, exec_ksciph_of_keyed hksv hsrc hdst, exec_ksbytes_of_keyed hksv hdst,
    State.completesIn_setKs_store hksv _ hlen hdst, rfl, fun k hk => ?_, hv, hplain⟩
  rw [State.finish_dm, State.store_dm, State.finish_dm, State.store_dm, State.setKs_dm,
    Memory.read_writeBytes_getD hwf _ (by rwa [hlen]), Memory.read_writeBytes_getD hwf _ (by rwa [length_ksTake]),
    s.getD_masked _ hk]

/-! ## KSPERM (R167) -/

theorem Keystream.toNat_getD_used (u : Keystream) {k : Nat} (h : k < u.n.toNat) :
    (u.used.getD k 0).toNat = u.entry k := by
  rw [Keystream.used, Table.first, Keystream.entry, List.getD_eq_getElem?_getD, List.getElem?_take_of_lt h,
    ← List.getD_eq_getElem?_getD]

/-- Settles O35: the bytes read back are the entries in use, a permutation of an initialised unit. -/
theorem kspermResult : Obligations.KspermResult := by
  intro s sDst hwf hksv hok hdst
  have hlen : s.ks.used.length = s.ks.n.toNat := length_first _ hok.le
  have hread : ∀ k < s.ks.n.toNat,
      ((s.dm.writeBytes (s.scalNat sDst) s.ks.used).read (s.scalNat sDst + k)).toNat = s.ks.entry k := fun k hk => by
    rw [Memory.read_writeBytes_getD hwf _ (hlen ▸ hk), s.ks.toNat_getD_used hk]
  refine ⟨_, exec_ksperm_of_keyed hksv hdst, hlen ▸ s.completesIn_store _ _, hread, fun v hv => ?_⟩
  obtain ⟨k, hk, hentry⟩ := hok.perm.exists_entry hok.le hv
  exact ⟨k, hk, (hread k hk).trans hentry⟩

end Sys2Proof.Machine

/-!
PROOFS. The sponge (43_sponge_hash.md). Under a legal hash length each command is its sponge function followed by the
completion. A run of staged commands keeps the shape of a sponge function that has completed over some DM
(`State.completedOver`), so the staged sequence ends in the state of HASH but for DM; and the sponge functions look at
nothing but `ST` and `H` (`State.SameSponge`), which makes the digest a function of the message.
-/

namespace Sys2Proof.Machine

/-! ## The completions of the commands (R185 to R189) -/

/-- The state `s` completed, its DM replaced by `m`: what a command leaves when the host may have written to DM. -/
def State.completedOver (s : State) (m : Memory) : State := { s.finish with dm := m }

@[simp] theorem State.completedOver_dm (s : State) (m : Memory) : (s.completedOver m).dm = m := rfl

theorem State.HashLenOk.not_hcfgBad {s : State} (h : s.HashLenOk) : ¬s.hcfgBad = true := by
  obtain ⟨hpos, hle⟩ := h
  simp only [State.hcfgBad, Bool.or_eq_true, decide_eq_true_eq]
  omega

/-- A digest fits the 256 bytes of the sponge state. -/
theorem State.HashLenOk.hLen_le {s : State} (h : s.HashLenOk) : s.hLen ≤ 256 := h.2.trans (by decide)

theorem State.length_digest {s : State} (h : s.HashLenOk) : s.digest.length = s.hLen :=
  length_first _ h.hLen_le

/-- Byte `k` of the digest is byte `k` of the sponge state. -/
theorem State.getD_digest {s : State} (h : s.HashLenOk) {k : Fin 256} (hk : k.val < s.hLen) :
    s.digest.getD k.val 0 = s.st.get k := by
  rw [List.getD_eq_getElem?_getD, State.digest, getElem?_first _ h.hLen_le hk, Option.getD_some]

section Completions

variable {s : State}

theorem exec_spinit_of_legal (h : s.HashLenOk) : exec .spinit s = succeed s.spInit :=
  if_neg h.not_hcfgBad

theorem exec_spperm_of_legal (h : s.HashLenOk) : exec .spperm s = succeed s.spPermute :=
  if_neg h.not_hcfgBad

theorem exec_spabsb_of_legal {sSrc : ScalReg} (h : s.HashLenOk) (hsrc : s.InDm (s.scalNat sSrc) s.hLen) :
    exec (.spabsb sSrc) s = succeed (s.spAbsorb (s.load (s.scalNat sSrc) s.hLen)) :=
  (if_neg h.not_hcfgBad).trans (if_neg hsrc.not_outOfDm)

theorem exec_spout_of_legal {sDst : ScalReg} (h : s.HashLenOk) (hdst : s.InDm (s.scalNat sDst) s.hLen) :
    exec (.spout sDst) s = succeed (s.store (s.scalNat sDst) s.digest) :=
  (if_neg h.not_hcfgBad).trans (if_neg hdst.not_outOfDm)

theorem exec_hash_of_legal {sDst sSrc sLen : ScalReg} (h : s.HashLenOk)
    (hsrc : s.InDm (s.scalNat sSrc) (s.scalNat sLen)) (hdst : s.InDm (s.scalNat sDst) s.hLen) :
    exec (.hash sDst sSrc sLen) s =
      succeed ((s.spHash (s.load (s.scalNat sSrc) (s.scalNat sLen))).store (s.scalNat sDst)
        (s.spHash (s.load (s.scalNat sSrc) (s.scalNat sLen))).digest) :=
  (if_neg h.not_hcfgBad).trans
    (if_neg (by simp [Bool.eq_false_iff.mpr hsrc.not_outOfDm, Bool.eq_false_iff.mpr hdst.not_outOfDm]))

theorem State.HashLenOk.spHash (h : s.HashLenOk) (msg : List Byte) : (s.spHash msg).HashLenOk :=
  h.congr (s.spongeOnly_spHash msg).hashLen

/-- The digest of a hash has `H` bytes for the `H` of the state before it. -/
theorem State.length_digest_spHash (h : s.HashLenOk) (msg : List Byte) : (s.spHash msg).digest.length = s.hLen :=
  (State.length_digest (h.spHash msg)).trans (s.spHash_hLen msg)

/-- HASH writes the sponge state, the keystream unit and the digest's range of DM. -/
theorem State.completesIn_hash (h : s.HashLenOk) {a : Nat} (hdst : s.InDm a s.hLen) (msg : List Byte) :
    s.CompletesIn ((s.spHash msg).store a (s.spHash msg).digest).finish
      { dmAddr := a, dmLen := s.hLen, st := true, ks := true, ksv := true } :=
  ((State.Writes.nothing.spHash msg h rfl rfl rfl).store
    (f := { dmAddr := a, dmLen := s.hLen, st := true, ks := true, ksv := true })
    (State.length_digest_spHash h msg).le hdst).completesIn

/-- A digest stored to a DM is read back from it. -/
theorem State.read_writeBytes_digest {m : Memory} (hm : m.wf = true) (h : s.HashLenOk) (a : Nat) (msg : List Byte)
    {k : Nat} (hk : k < s.hLen) :
    (m.writeBytes a (s.spHash msg).digest).read (a + k) = (s.spHash msg).digest.getD k 0 :=
  Memory.read_writeBytes_getD hm a (by rwa [State.length_digest_spHash h])

end Completions

/-! ## SPINIT, SPOUT (R185, R188) -/

/-- Settles O36: `sp_init` entry by entry, the bitrate below `2^16`; and the digest read back from DM. -/
theorem spinitSpoutResults : Obligations.SpinitSpoutResults := by
  refine ⟨fun s hlen => ?_, fun s sDst hwf hlen hdst => ?_⟩
  · have hwrites : s.Writes { st := true } s.spInit := State.Writes.nothing.setSt _ rfl
    have hst (k : Fin 256) : s.spInit.finish.st.get k = _ := get_spongeStart s.hLen k
    refine ⟨_, exec_spinit_of_legal hlen, hwrites.completesIn, ?_, ?_, fun k hk => ?_⟩
    · rw [hst, if_pos (Fin.val_zero 256), BitVec.toNat_ofNat]
    · have hhigh : 8 * s.hLen / 256 < 2 ^ 8 := by have := hlen.2; omega
      rw [hst, if_neg (by decide), if_pos (Fin.val_one 254), BitVec.toNat_ofNat, Nat.mod_eq_of_lt hhigh]
    · rw [hst, if_neg (by omega), if_neg (by omega)]
  · have hdigest := State.length_digest hlen
    refine ⟨_, exec_spout_of_legal hlen hdst, hdigest ▸ s.completesIn_store _ _, fun k hk => ?_⟩
    rw [← State.getD_digest hlen hk]
    exact Memory.read_writeBytes_getD hwf _ (hdigest ▸ hk)

/-! ## SPPERM (R187) -/

/-- Settles O37: the unit is keyed with the `2·H ≤ 256` state bytes, its array is a permutation, and a gather by a
permutation moves bytes (`first_gather_perm`). -/
theorem sppermResult : Obligations.SppermResult := by
  intro s hlen
  have hpos : 1 ≤ 2 * s.hLen := by have := hlen.1; omega
  have hle : 2 * s.hLen ≤ 256 := by have := hlen.2; omega
  have hok : s.spPermute.ks.Ok := ksInit_ok _ hpos hle
  have hperm : Table.IsPerm s.spPermute.ks.s (2 * s.hLen) := by
    rw [← ksInit_n (Table.first s.st (2 * s.hLen)) hle]
    exact hok.perm
  have hst (k : Fin 256) : s.spPermute.finish.st.get k = _ := get_gather (2 * s.hLen) s.spPermute.ks.s s.st k
  exact ⟨_, exec_spperm_of_legal hlen, (State.Writes.nothing.spPermute hlen rfl rfl rfl).completesIn, rfl, rfl, hok,
    fun k hk => (hst k).trans (if_pos hk), fun k hk => (hst k).trans (if_neg (by omega)),
    first_gather_perm hle hperm s.st⟩

/-! ## SPABSB (R186) -/

/-- Settles O38: `sp_absorb_block` is by definition `sp_permute` of the state with the block XORed in. -/
theorem spabsbResult : Obligations.SpabsbResult := by
  intro s sSrc hlen hsrc
  have hxor := get_xorInto s.hLen (s.load (s.scalNat sSrc) s.hLen) s.st
  refine ⟨_, xorInto s.hLen (s.load (s.scalNat sSrc) s.hLen) s.st, exec_spabsb_of_legal hlen hsrc,
    exec_spperm_of_legal (s := s.setSt _) (hlen.congr (s.setSt_hashLen _)),
    (State.Writes.nothing.spAbsorb _ hlen rfl rfl rfl).completesIn, fun k hk => ?_, fun k hk => ?_⟩
  · rw [hxor, if_pos hk, s.getD_load _ hk]
  · rw [hxor, if_neg (by omega)]

/-! ## HASH and the staged sequence (R189, R190) -/

/-- The padding is fewer than `H` zero bytes behind message and seed (R184). -/
theorem exists_padMessage_eq (seed msg : List Byte) {h : Nat} (hpos : 0 < h) :
    ∃ zeros < h, padMessage h seed msg = msg ++ seed ++ List.replicate zeros 0 := by
  unfold padMessage
  by_cases hfull : (msg ++ seed).length % h = 0
  · exact ⟨0, hpos, by simp only [if_pos hfull, List.replicate_zero, List.append_nil]⟩
  · exact ⟨h - (msg ++ seed).length % h, by omega, if_neg hfull⟩

/-- SPABSB of a block that the host has just placed absorbs that block. -/
theorem exec_spabsb_placed {s : State} {m : Memory} {sBlk : ScalReg} {b : List Byte} (hwf : m.wf = true)
    (hlen : s.HashLenOk) (hblk : s.InDm (s.scalNat sBlk) s.hLen) (hb : b.length = s.hLen) :
    exec (.spabsb sBlk) (s.completedOver (m.writeBytes (s.scalNat sBlk) b)) =
      .next ((s.spAbsorb b).completedOver (m.writeBytes (s.scalNat sBlk) b)) := by
  have hload : (m.writeBytes (s.scalNat sBlk) b).readBytes s.hLen (s.scalNat sBlk) = b :=
    hb ▸ m.readBytes_writeBytes _ b hwf
  exact (exec_spabsb_of_legal (s := s.completedOver _) (hlen.congr rfl) hblk).trans
    (congrArg (fun c => Host.Outcome.next ((s.spAbsorb c).completedOver _)) hload)

/-- Placing and absorbing blocks one after another is `sp_absorb_block` of each, over some DM. -/
theorem absorbPlaced_completedOver {sBlk : ScalReg} (bs : List (List Byte)) {s : State} {m : Memory}
    (hwf : m.wf = true) (hlen : s.HashLenOk) (hblk : s.InDm (s.scalNat sBlk) s.hLen)
    (hbs : ∀ b ∈ bs, b.length = s.hLen) :
    ∃ m', m'.wf = true ∧
      absorbPlaced sBlk bs (s.completedOver m) = .next ((s.spAbsorbAll bs).completedOver m') := by
  induction bs generalizing s m with
  | nil => exact ⟨m, hwf, rfl⟩
  | cons b bs ih =>
    obtain ⟨hb, hbs⟩ := List.forall_mem_cons.mp hbs
    obtain ⟨m', hwf', hrest⟩ := ih (s := s.spAbsorb b) (m.wf_writeBytes (s.scalNat sBlk) b hwf)
      (hlen.congr (s.spAbsorb_hashLen b)) (by simpa [State.InDm] using hblk) (by simpa using hbs)
    refine ⟨m', hwf', ?_⟩
    rw [State.spAbsorbAll_cons, ← hrest]
    exact congrArg (Result.thenRun · (absorbPlaced sBlk bs)) (exec_spabsb_placed hwf hlen hblk hb)

/-- SPPERM commands one after another are permutation steps one after another. -/
theorem runCommands_spperm (is : List Instr) (n : Nat) {s : State} (hlen : s.HashLenOk) (m : Memory) :
    runCommands (List.replicate n .spperm ++ is) (s.completedOver m) =
      runCommands is ((s.spSqueeze n).completedOver m) := by
  induction n generalizing s with
  | zero => rfl
  | succ n ih =>
    rw [State.spSqueeze_succ, ← ih (hlen.congr s.spPermute_hashLen)]
    exact congrArg (Result.thenRun · (runCommands (List.replicate n .spperm ++ is)))
      (exec_spperm_of_legal (s := s.completedOver m) (hlen.congr rfl))

/-- The last command of a staged sequence, SPOUT. -/
theorem runCommands_spout {s : State} {sDst : ScalReg} (hlen : s.HashLenOk) (hdst : s.InDm (s.scalNat sDst) s.hLen)
    (m : Memory) :
    runCommands [.spout sDst] (s.completedOver m) =
      .next (s.completedOver (m.writeBytes (s.scalNat sDst) s.digest)) :=
  congrArg (Result.thenRun · (runCommands []))
    (exec_spout_of_legal (s := s.completedOver m) (hlen.congr rfl) hdst)

/-- The staged sequence of R190 ends in the state of `sp_hash`, over a DM that holds the digest. -/
theorem staged_eq_spHash {s : State} {sDst sBlk : ScalReg} (msg : List Byte) (hwf : s.dm.wf = true)
    (hlen : s.HashLenOk) (hdst : s.InDm (s.scalNat sDst) s.hLen) (hblk : s.InDm (s.scalNat sBlk) s.hLen) :
    ∃ m : Memory, m.wf = true ∧
      Result.thenRun (exec .spinit s) (fun a =>
        Result.thenRun (absorbPlaced sBlk (hashBlocks s.hLen s.params.hashSeed msg) a) (fun b =>
          runCommands (List.replicate s.squish.toNat .spperm ++ [.spout sDst]) b)) =
      .next ((s.spHash msg).completedOver (m.writeBytes (s.scalNat sDst) (s.spHash msg).digest)) := by
  have hlenInit : s.spInit.HashLenOk := hlen.congr rfl
  obtain ⟨m, hm, habsorb⟩ := absorbPlaced_completedOver (sBlk := sBlk) (hashBlocks s.hLen s.params.hashSeed msg)
    hwf hlenInit hblk fun _ => length_of_mem_hashBlocks
  have hsqueeze := runCommands_spperm [.spout sDst] s.squish.toNat
    (hlenInit.congr (State.spongeOnly_spAbsorbAll s.spInit (hashBlocks s.hLen s.params.hashSeed msg)).hashLen) m
  have hout := runCommands_spout (sDst := sDst) (hlen.spHash msg)
    (by rwa [State.InDm, s.spHash_scalNat, s.spHash_hLen, s.spHash_params]) m
  rw [s.spHash_scalNat] at hout
  refine ⟨m, hm, ?_⟩
  rw [exec_spinit_of_legal hlen]
  exact (congrArg (Result.thenRun · _) habsorb).trans (hsqueeze.trans hout)

/-- Settles O39: the blocks are those of the padded input, and both sides end in the state of `sp_hash` with its digest
in DM. -/
theorem hashEqualsStaged : Obligations.HashEqualsStaged := by
  intro s sDst sSrc sLen sBlk hwf hlen hsrc hdst hblk
  obtain ⟨zeros, hzeros, hpad⟩ :=
    exists_padMessage_eq s.params.hashSeed (s.load (s.scalNat sSrc) (s.scalNat sLen)) hlen.1
  obtain ⟨m, hm, hstaged⟩ := staged_eq_spHash (s.load (s.scalNat sSrc) (s.scalNat sLen)) hwf hlen hdst hblk
  refine ⟨_, _, zeros, _, hzeros, fun _ => length_of_mem_hashBlocks, (flatten_hashBlocks _ _ _ hlen.1).trans hpad,
    exec_hash_of_legal hlen hsrc hdst, State.completesIn_hash hlen hdst _, hstaged, rfl, rfl, rfl, fun k hk => ?_,
    fun k hk => ?_⟩
  · rw [State.finish_dm, State.store_dm, State.spHash_dm, State.completedOver_dm,
      State.read_writeBytes_digest hwf hlen _ _ hk, State.read_writeBytes_digest hm hlen _ _ hk]
  · rw [State.finish_dm, State.store_dm, State.spHash_dm, State.read_writeBytes_digest hwf hlen _ _ hk]
    exact State.getD_digest (hlen.spHash _) (hk.trans_eq (s.spHash_hLen _).symm)

/-! ## The digest as a function of the message (R189) -/

/-- Two states with the same sponge state and the same hash length. -/
def State.SameSponge (s t : State) : Prop := s.st = t.st ∧ s.hashLen = t.hashLen

namespace State.SameSponge

variable {s t : State}

theorem hLen (h : s.SameSponge t) : s.hLen = t.hLen := congrArg BitVec.toNat h.2

theorem digest (h : s.SameSponge t) : s.digest = t.digest := by
  rw [State.digest, State.digest, h.1, h.hLen]

theorem spInit (h : s.hashLen = t.hashLen) : s.spInit.SameSponge t.spInit :=
  ⟨congrArg (fun x : Byte => spongeStart x.toNat) h, h⟩

theorem spPermute (h : s.SameSponge t) : s.spPermute.SameSponge t.spPermute := by
  refine ⟨?_, ?_⟩
  · rw [State.spPermute_st, State.spPermute_st, State.spPermute_ks, State.spPermute_ks, h.1, h.hLen]
  · rw [State.spPermute_hashLen, State.spPermute_hashLen, h.2]

theorem spAbsorb (h : s.SameSponge t) (b : List Byte) : (s.spAbsorb b).SameSponge (t.spAbsorb b) := by
  have hxor : (s.setSt (xorInto s.hLen b s.st)).SameSponge (t.setSt (xorInto t.hLen b t.st)) :=
    ⟨congrArg₂ (xorInto · b) h.hLen h.1, by rw [State.setSt_hashLen, State.setSt_hashLen, h.2]⟩
  exact hxor.spPermute

theorem spAbsorbAll (h : s.SameSponge t) (bs : List (List Byte)) :
    (s.spAbsorbAll bs).SameSponge (t.spAbsorbAll bs) := by
  induction bs generalizing s t with
  | nil => exact h
  | cons b bs ih =>
    rw [State.spAbsorbAll_cons, State.spAbsorbAll_cons]
    exact ih (h.spAbsorb b)

theorem spSqueeze (h : s.SameSponge t) (n : Nat) : (s.spSqueeze n).SameSponge (t.spSqueeze n) := by
  induction n generalizing s t with
  | zero => exact h
  | succ n ih =>
    rw [State.spSqueeze_succ, State.spSqueeze_succ]
    exact ih h.spPermute

/-- What `sp_hash` leaves in the sponge depends on the message, `H`, `SQUISH` and `HASH_SEED` only (R189). -/
theorem spHash (hlen : s.hashLen = t.hashLen) (hsquish : s.squish = t.squish)
    (hseed : s.params.hashSeed = t.params.hashSeed) (msg : List Byte) : (s.spHash msg).SameSponge (t.spHash msg) := by
  have hblocks : hashBlocks s.hLen s.params.hashSeed msg = hashBlocks t.hLen t.params.hashSeed msg := by
    rw [State.hLen, State.hLen, hlen, hseed]
  rw [State.spHash, State.spHash, State.squishCount, State.squishCount, hsquish, hblocks]
  exact ((spInit hlen).spAbsorbAll _).spSqueeze _

end State.SameSponge

/-- The range of DM that HASH wrote holds the digest. -/
theorem State.load_hash {s : State} (hwf : s.dm.wf = true) (hlen : s.HashLenOk) (a : Nat) (msg : List Byte) :
    ((s.spHash msg).store a (s.spHash msg).digest).finish.load a s.hLen = (s.spHash msg).digest :=
  State.load_store ((congrArg Memory.wf (s.spHash_dm msg)).trans hwf) a (State.length_digest_spHash hlen msg)

/-- Settles O40: each core finds its digest where it wrote it, and the digests agree (`State.SameSponge.spHash`). -/
theorem digestDependsOnlyOnMessage : Obligations.DigestDependsOnlyOnMessage := by
  intro s s' sDst sSrc sLen sDst' sSrc' sLen' hwf hwf' hlen hH hsquish hseed hsrc hdst hsrc' hdst' hmsg
  have hlen' : s'.HashLenOk := hlen.congr hH
  refine ⟨_, _, exec_hash_of_legal hlen hsrc hdst, exec_hash_of_legal hlen' hsrc' hdst', ?_⟩
  rw [State.load_hash hwf hlen, State.load_hash hwf' hlen', hmsg]
  exact (State.SameSponge.spHash hH hsquish hseed _).digest

end Sys2Proof.Machine

/-!
PROOFS. The block cipher (44_block_cipher.md). The field functions are read in GF(2^16), where they are the product and
the inverse; the round functions are read over integer halves; a run of rounds is undone by the inverse rounds in reverse
order. A block command is then one write of a value that depends on the cipher's own parameters only.
-/

namespace Sys2Proof.Machine

open Sys2Proof.Config (gf2Irreducible)

/-! ## Values that fit a big register -/

/-- A key pair or a block fits a big register of a legal core (00_scope.md R8). -/
theorem toNat_lt_two_pow_w_of_le {p : Config.Params} (hp : p.wf = true) {n : Nat} (hn : n ≤ 512) (x : BitVec n) :
    x.toNat < 2 ^ p.w := by
  rw [← BitVec.toNat_setWidth_of_le hn]
  exact toNat_lt_two_pow_w hp _

/-! ## KEYLD, KEYKS, KEYRD (R202 to R204) -/

theorem exec_keyks_of_keyed {s : State} (hksv : s.ksv = true) :
    exec .keyks s =
      succeed ((s.setKs (ksTake 16 s.ks).2).setKey (BitVec.ofNat 128 (leInt (ksTake 16 s.ks).1))) :=
  if_neg (Bool.not_eq_false _ ▸ hksv)

theorem exec_keyrd_of_loaded {s : State} (rd : BigReg) (hkeyv : s.keyv = true) :
    exec (.keyrd rd) s = succeed (s.setBig rd (s.mkey.toNat * 2 ^ 128 + s.key.toNat)) :=
  if_neg (Bool.not_eq_false _ ▸ hkeyv)

/-- Two keys side by side. -/
theorem toNat_append128 (a b : BitVec 128) : (a ++ b : BitVec 256).toNat = a.toNat * 2 ^ 128 + b.toNat := by
  rw [BitVec.toNat_append, ← Nat.shiftLeft_add_eq_or_of_lt b.isLt, Nat.shiftLeft_eq]

/-- Byte `k` of the integer of a byte string is its byte `k` (00_scope.md R12). -/
theorem byteOf_leInt {bs : List Byte} {k : Nat} (h : k < bs.length) : byteOf (leInt bs) k = bs.getD k 0 := by
  apply BitVec.eq_of_toNat_eq
  rw [byteOf, BitVec.toNat_ofNat, leInt_byte bs h, List.getD_eq_getElem _ _ h]

/-- Byte `k` of a key made of sixteen keystream bytes is the output after `k + 1` steps. -/
theorem byteOf_keystreamKey (u : Keystream) {k : Nat} (h : k < 16) :
    byteOf (BitVec.ofNat 128 (leInt (ksTake 16 u).1)).toNat k = (Keystream.advance^[k + 1] u).output := by
  have hlt : leInt (ksTake 16 u).1 < 2 ^ 128 := by simpa using leInt_lt (ksTake 16 u).1
  rw [BitVec.toNat_ofNat, Nat.mod_eq_of_lt hlt, byteOf_leInt (by simpa using h), getD_ksTake u h]

/-- Settles O41: KEYLD is the one write `set_key`; KEYRD writes two keys side by side, which fit `R[rd]`. -/
theorem keyldKeyrdResults : Obligations.KeyldKeyrdResults := by
  refine ⟨fun s ra => ?_, fun s rd hp hkeyv => ?_⟩
  · have hwrites : s.Writes { key := true, keyv := true } (s.setKey (BitVec.ofNat 128 (s.big ra))) :=
      State.Writes.nothing.setKey _ rfl rfl
    exact ⟨_, rfl, hwrites.completesIn, BitVec.toNat_ofNat .., rfl, rfl⟩
  · have hfits := toNat_lt_two_pow_w_of_le hp (by decide) (s.mkey ++ s.key : BitVec 256)
    rw [toNat_append128] at hfits
    rw [exec_keyrd_of_loaded rd hkeyv]
    exact s.exists_completion_setBig rd hfits

/-- Settles O42: the unit makes sixteen output steps and its bytes are the bytes of the key. -/
theorem keyksResult : Obligations.KeyksResult := by
  intro s hksv
  have hwrites : s.Writes { key := true, keyv := true, ks := true }
      ((s.setKs (ksTake 16 s.ks).2).setKey (BitVec.ofNat 128 (leInt (ksTake 16 s.ks).1))) :=
    (State.Writes.nothing.setKs 16 hksv rfl).setKey _ rfl rfl
  exact ⟨_, exec_keyks_of_keyed hksv, hwrites.completesIn, rfl, rfl, ksTake_unit 16 s.ks,
    fun _ hk => byteOf_keystreamKey s.ks hk⟩

/-! ## SBLOAD (R205) -/

section Sbload

variable {s : State}

theorem exec_sbload_sb1_of_full (hksv : s.ksv = true) (hn : s.ks.n.toNat = 256) :
    exec (.sbload .sb1) s = succeed (s.setSb1 s.ks.s) :=
  (if_neg (Bool.not_eq_false _ ▸ hksv)).trans (if_neg (not_not.mpr hn))

theorem exec_sbload_sb2_of_full (hksv : s.ksv = true) (hn : s.ks.n.toNat = 256) :
    exec (.sbload .sb2) s = succeed (s.setSb2 s.ks.s) :=
  (if_neg (Bool.not_eq_false _ ▸ hksv)).trans (if_neg (not_not.mpr hn))

end Sbload

/-- Settles O43: the array of an initialised unit of size 256 is a permutation of `0..255`, and the box is its copy. -/
theorem sbloadResult : Obligations.SbloadResult := by
  intro s hksv hok hn
  have hperm : Table.IsPerm s.ks.s 256 := hn ▸ hok.perm
  have hsb1 : s.Writes { sb1 := true } (s.setSb1 s.ks.s) := State.Writes.nothing.setSb1 hksv hn rfl
  have hsb2 : s.Writes { sb2 := true } (s.setSb2 s.ks.s) := State.Writes.nothing.setSb2 hksv hn rfl
  exact ⟨⟨_, exec_sbload_sb1_of_full hksv hn, hsb1.completesIn, rfl, rfl, hperm⟩,
    ⟨_, exec_sbload_sb2_of_full hksv hn, hsb2.completesIn, rfl, rfl, hperm⟩⟩

/-! ## The field GF(2^16) (R209) -/

section Field

variable {p : BitVec 17}

/-- Field values that stand for the same element are equal. -/
theorem half_eq_of_gfOf_eq (hp : p.getLsbD 16 = true) {a b : Half} (h : gfOf p a.toNat = gfOf p b.toNat) : a = b :=
  BitVec.eq_of_toNat_eq (gfOf_injective hp a.isLt b.isLt h)

theorem gfOf_half_zero (p : BitVec 17) : gfOf p (0 : Half).toNat = 0 := gfOf_zero p

theorem gfOf_half_one (p : BitVec 17) : gfOf p (1 : Half).toNat = 1 := gfOf_one p

theorem toNat_setWidth_half (a : Half) : (a.setWidth 17).toNat = a.toNat :=
  BitVec.toNat_setWidth_of_le (by decide)

/-- `a << 1` of a field value, reduced when bit 16 is set, as a field value. -/
def halfDouble (p : BitVec 17) (a : Half) : Half := (gf16Double p (a.setWidth 17)).setWidth 16

theorem toNat_halfDouble_eq (hp : p.getLsbD 16 = true) (a : Half) :
    (halfDouble p a).toNat = (gf16Double p (a.setWidth 17)).toNat := by
  have ha : (a.setWidth 17).toNat < 2 ^ 16 := (toNat_setWidth_half a).trans_lt a.isLt
  rw [halfDouble, BitVec.toNat_setWidth, Nat.mod_eq_of_lt (gf16Double_lt hp ha)]

theorem toNat_halfDouble (hp : p.getLsbD 16 = true) (a : Half) :
    (halfDouble p a).toNat = if 2 ^ 16 ≤ 2 * a.toNat then (2 * a.toNat) ^^^ p.toNat else 2 * a.toNat := by
  rw [toNat_halfDouble_eq hp, toNat_gf16Double ((toNat_setWidth_half a).trans_lt a.isLt), toNat_setWidth_half]

/-- Doubling is the product with the class of `x`. -/
theorem gfOf_halfDouble (hp : p.getLsbD 16 = true) (a : Half) :
    gfOf p (halfDouble p a).toNat = AdjoinRoot.root _ * gfOf p a.toNat := by
  rw [toNat_halfDouble_eq hp, gfOf_gf16Double ((toNat_setWidth_half a).trans_lt a.isLt), toNat_setWidth_half]

theorem gf16Mul_zero (hp : p.getLsbD 16 = true) (a : Half) : gf16Mul p a 0 = 0 := by
  apply half_eq_of_gfOf_eq hp
  rw [gfOf_gf16Mul hp, gfOf_half_zero, mul_zero]

/-- The product bit by bit of its second factor: `a · b = a · (b mod 2) + (x · a) · (b / 2)`. -/
theorem gf16Mul_eq_xor (hp : p.getLsbD 16 = true) (a b : Half) :
    gf16Mul p a b = (if b.toNat % 2 = 1 then a else 0) ^^^ gf16Mul p (halfDouble p a) (b >>> 1) := by
  have hlow : gfOf p (if b.toNat % 2 = 1 then a else 0).toNat = gfOf p a.toNat * gfOf p (b.toNat % 2) := by
    rcases Nat.mod_two_eq_zero_or_one b.toNat with h | h
    · rw [h, if_neg Nat.zero_ne_one, gfOf_half_zero, gfOf_zero, mul_zero]
    · rw [h, if_pos rfl, gfOf_one, mul_one]
  apply half_eq_of_gfOf_eq hp
  rw [BitVec.toNat_xor, gfOf_xor, hlow, gfOf_gf16Mul hp, gfOf_gf16Mul hp, gfOf_halfDouble hp, gfOf_half_split p b]
  ring

theorem gfOf_ne_zero (hp : p.getLsbD 16 = true) {a : Half} (ha : a ≠ 0) : gfOf p a.toNat ≠ 0 := fun h =>
  ha (half_eq_of_gfOf_eq hp (by rw [h, gfOf_half_zero]))

/-- In the field the power `2^16 - 2` is the inverse. -/
theorem gf16Mul_gf16Inv (hp : p.getLsbD 16 = true) (hirr : gf2Irreducible p = true) {a : Half} (ha : a ≠ 0) :
    gf16Mul p a (gf16Inv p a) = 1 := by
  apply half_eq_of_gfOf_eq hp
  rw [gfOf_gf16Mul hp, gfOf_gf16Inv hp ha, ← pow_succ', gfOf_half_one]
  exact gfOf_pow hp hirr (gfOf_ne_zero hp ha)

/-- The inverse is the only factor that gives 1. -/
theorem gf16Inv_eq_of_gf16Mul_eq_one (hp : p.getLsbD 16 = true) (hirr : gf2Irreducible p = true) {a b : Half}
    (h : gf16Mul p a b = 1) : gf16Inv p a = b := by
  have hone {x : Half} (hx : gf16Mul p a x = 1) : gfOf p a.toNat * gfOf p x.toNat = 1 := by
    rw [← gfOf_gf16Mul hp, hx, gfOf_half_one]
  have ha : a ≠ 0 := by
    rintro rfl
    have hzero : gf16Mul p 0 b = 0 := by
      apply half_eq_of_gfOf_eq hp
      rw [gfOf_gf16Mul hp, gfOf_half_zero, zero_mul]
    exact absurd (hzero.symm.trans h) (by decide)
  have hinv : gfOf p (gf16Inv p a).toNat * gfOf p a.toNat = 1 :=
    (mul_comm ..).trans (hone (gf16Mul_gf16Inv hp hirr ha))
  exact half_eq_of_gfOf_eq hp (left_inv_eq_right_inv hinv (hone h))

end Field

/-! ## The reference cipher (R206, R209, R210) -/

theorem ref_gf16Poly_degree : (0x1002B : BitVec 17).getLsbD 16 = true := by decide

theorem ref_gf16Poly_irreducible : gf2Irreducible 0x1002B = true := by
  have hwf := ref_wf
  simp only [Config.Params.wf, Bool.and_eq_true] at hwf
  exact hwf.2

/-- A value of the reference inverse is checked by one product. -/
theorem ref_gf16Inv_eq {a b : Half} (h : gf16Mul 0x1002B a b = 1) : gf16Inv 0x1002B a = b :=
  gf16Inv_eq_of_gf16Mul_eq_one ref_gf16Poly_degree ref_gf16Poly_irreducible h

theorem gf16Inv_zero (p : BitVec 17) : gf16Inv p 0 = 0 := if_pos rfl

/-- The subkeys of round 0 of the reference key (R206). -/
def refSubkeys0 : Subkeys := ⟨0xDDFF, 0x1023, 0x9BB9, 0x5544, 0x6446, 0xAB98, 0x7645, 0x0132⟩

theorem subkeys_ref {c : CipherCtx} (hparams : c.params = Config.ref)
    (hkey : c.key = 0x00112233445566778899AABBCCDDEEFF) (hmkey : c.mkey = c.key ^^^ Config.ref.nums) :
    subkeys c 0 = refSubkeys0 := by
  rw [hkey] at hmkey
  simp only [subkeys, subkey, hparams, hkey, hmkey]
  decide

/-- The mixing lines turn 0 into the halves `0x2046` and 0 (R210). -/
theorem fl_ref_zero {c : CipherCtx} (hparams : c.params = Config.ref) : fl c refSubkeys0 0 = 0x018B0000 := by
  have hinv : gf16Inv 0x1002B 0x2046 = 0x018B := ref_gf16Inv_eq (by decide)
  have hfl : fl c refSubkeys0 0 = gf16Inv 0x1002B 0x2046 ++ gf16Inv 0x1002B 0 := by
    rw [fl, hparams]
    rfl
  rw [hfl, hinv, gf16Inv_zero]
  rfl

/-- Settles O47: the laws of the field from its reading in GF(2^16); each printed inverse is checked by one product
(`ref_gf16Inv_eq`). -/
theorem cipherReferenceValues : Obligations.CipherReferenceValues := by
  refine ⟨fun p hp => ⟨gf16Mul_zero hp, fun a b => ?_, gf16Inv_zero p, fun hirr a ha => gf16Mul_gf16Inv hp hirr ha⟩,
    fun c hparams hkey hmkey => ?_, ref_gf16Inv_eq (by decide), ref_gf16Inv_eq (by decide), ref_gf16Inv_eq (by decide),
    ref_gf16Inv_eq (by decide), ref_gf16Inv_eq (by decide), ref_gf16Inv_eq (by decide), by decide⟩
  · have hhalf : (b >>> 1).toNat = b.toNat / 2 := by rw [BitVec.toNat_ushiftRight, Nat.shiftRight_eq_div_pow, pow_one]
    exact ⟨halfDouble p a, b >>> 1, toNat_halfDouble hp a, hhalf, gf16Mul_eq_xor hp a b⟩
  · rw [subkeys_ref hparams hkey hmkey]
    exact ⟨rfl, fl_ref_zero hparams⟩

/-! ## The round functions over integer halves (R206 to R211) -/

theorem toNat_fiRef (sb1 sb2 : Table) (y z : Half) :
    (fiRef sb1 sb2 y z).toNat =
      ((sb1.toList.getD ((y.toNat ^^^ z.toNat) / 2 ^ 8) 0).toNat * 2 ^ 8 +
        (sb2.toList.getD ((y.toNat ^^^ z.toNat) % 2 ^ 8) 0).toNat) ^^^ rotl16Int y.toNat 8 := by
  have hxor : y.toNat ^^^ z.toNat < 2 ^ 16 := Nat.xor_lt_two_pow y.isLt z.isLt
  have hhigh : ((y ^^^ z).extractLsb' 8 8).toNat = (y.toNat ^^^ z.toNat) / 2 ^ 8 := by
    rw [BitVec.extractLsb'_toNat, BitVec.toNat_xor, Nat.shiftRight_eq_div_pow, Nat.mod_eq_of_lt (by omega)]
  have hlow : ((y ^^^ z).extractLsb' 0 8).toNat = (y.toNat ^^^ z.toNat) % 2 ^ 8 := by
    rw [BitVec.extractLsb'_toNat, BitVec.toNat_xor, Nat.shiftRight_zero]
  rw [fiRef, BitVec.toNat_xor, toNat_append8, Table.at_eq_getD, Table.at_eq_getD, hhigh, hlow, toNat_rotl16]

/-- The subkeys `KOj`, `KIj` of a stage of `FO` (R208), stages counted from 0. -/
def Subkeys.foStageKeys (k : Subkeys) : Nat → Half × Half
  | 0 => (k.ko1, k.ki1)
  | 1 => (k.ko2, k.ki2)
  | _ => (k.ko3, k.ki3)

/-- The halves `(l, r)` of `FO` after `n` stages (R208). -/
def foHalves (c : CipherCtx) (k : Subkeys) (x : Word) : Nat → Half × Half
  | 0 => (highHalf x, lowHalf x)
  | n + 1 => foStage c (k.foStageKeys n).1 (k.foStageKeys n).2 (foHalves c k x n)

theorem toNat_fo (c : CipherCtx) (k : Subkeys) (x : Word) :
    (fo c k x).toNat = (foHalves c k x 3).1.toNat * 2 ^ 16 + (foHalves c k x 3).2.toNat :=
  toNat_append16 ..

/-- The low half after the first mixing line of `FL` (R210). -/
def flLow (k : Subkeys) (x : Word) : Half := lowHalf x ^^^ rotl16 (highHalf x &&& k.kl1) 1

/-- The high half after the second mixing line of `FL` (R210). -/
def flHigh (k : Subkeys) (x : Word) : Half := highHalf x ^^^ rotl16 (flLow k x ||| k.kl2) 1

theorem toNat_flLow (k : Subkeys) (x : Word) :
    (flLow k x).toNat = (x.toNat % 2 ^ 16) ^^^ rotl16Int (x.toNat / 2 ^ 16 &&& k.kl1.toNat) 1 := by
  rw [flLow, BitVec.toNat_xor, toNat_rotl16, BitVec.toNat_and, toNat_highHalf, toNat_lowHalf]

theorem toNat_flHigh (k : Subkeys) (x : Word) :
    (flHigh k x).toNat = (x.toNat / 2 ^ 16) ^^^ rotl16Int ((flLow k x).toNat ||| k.kl2.toNat) 1 := by
  rw [flHigh, BitVec.toNat_xor, toNat_rotl16, BitVec.toNat_or, toNat_highHalf]

theorem toNat_fl (c : CipherCtx) (k : Subkeys) (x : Word) :
    (fl c k x).toNat = (gf16Inv c.params.gf16Poly (flHigh k x)).toNat * 2 ^ 16 +
      (gf16Inv c.params.gf16Poly (flLow k x)).toNat :=
  toNat_append16 ..

theorem fi_eq_fiRef {c : CipherCtx} (h : c.params.fi = .ref) (y z : Half) : fi c y z = fiRef c.sb1 c.sb2 y z := by
  rw [fi, h]

/-- Settles O60: the integer reading of each function; `FO` by its halves after each stage, `FL` by its two mixed
halves. -/
theorem roundFunctions : Obligations.RoundFunctions := by
  intro c i _
  have hsubkey (row : Config.SubkeyRow) : (subkey c i row).toNat = subkeyInt c i row := toNat_subkey c i row
  exact ⟨⟨hsubkey _, hsubkey _, hsubkey _, hsubkey _, hsubkey _, hsubkey _, hsubkey _, hsubkey _⟩,
    fun href y z => (congrArg BitVec.toNat (fi_eq_fiRef href y z)).trans (toNat_fiRef c.sb1 c.sb2 y z),
    fun k x => ⟨fun n => (foHalves c k x n).1, fun n => (foHalves c k x n).2, toNat_highHalf x, toNat_lowHalf x,
      ⟨rfl, rfl⟩, ⟨rfl, rfl⟩, ⟨rfl, rfl⟩, toNat_fo c k x⟩,
    fun k x => ⟨flHigh k x, flLow k x, toNat_flLow k x, toNat_flHigh k x, toNat_fl c k x⟩,
    fun _ => rfl⟩

/-! ## Rounds and blocks (R212, R213) -/

/-- A run of steps is undone by the inverse steps in reverse order. -/
theorem foldl_reverse_foldl {α β : Type} {f g : α → β → α} (h : ∀ a b, g (f a b) b = a) (a : α) (bs : List β) :
    bs.reverse.foldl g (bs.foldl f a) = a := by
  induction bs generalizing a with
  | nil => rfl
  | cons b bs ih => rw [List.foldl_cons, List.reverse_cons, List.foldl_append, ih, List.foldl_cons, h, List.foldl_nil]

/-- The halves `(L, R)` after the first `n` rounds of the encryption of a block (R212). -/
def encHalves (c : CipherCtx) (x : Block) : Nat → Word × Word
  | 0 => splitBlock x
  | n + 1 => encRound c (encHalves c x n) n

theorem encBlock_eq_joinBlock (c : CipherCtx) (x : Block) : encBlock c x = joinBlock (encHalves c x 8) := rfl

theorem decBlock_encBlock (c : CipherCtx) (x : Block) : decBlock c (encBlock c x) = x := by
  rw [decBlock, encBlock, splitBlock_joinBlock]
  exact (congrArg joinBlock (foldl_reverse_foldl (decRound_encRound c) _ [0, 1, 2, 3, 4, 5, 6, 7])).trans
    (joinBlock_splitBlock x)

theorem encBlock_decBlock (c : CipherCtx) (y : Block) : encBlock c (decBlock c y) = y := by
  rw [encBlock, decBlock, splitBlock_joinBlock]
  exact (congrArg joinBlock (foldl_reverse_foldl (encRound_decRound c) _ [7, 6, 5, 4, 3, 2, 1, 0])).trans
    (joinBlock_splitBlock y)

/-- Settles O44: the halves after each round, and rounds undone in reverse order (`foldl_reverse_foldl`). -/
theorem blockRoundsAndRoundTrip : Obligations.BlockRoundsAndRoundTrip := by
  intro c x
  refine ⟨⟨fun n => (encHalves c x n).1, fun n => (encHalves c x n).2, rfl, rfl, fun _ _ => ⟨rfl, rfl⟩, ?_⟩,
    decBlock_encBlock c x, encBlock_decBlock c x⟩
  rw [encBlock_eq_joinBlock, toNat_joinBlock]

/-! ## BLKENC, BLKDEC (R214, R215) -/

section BlockCommands

variable {s : State}

/-- The 64-bit input of a block command: the low bits of its source register (R214). -/
def State.blockIn (s : State) (ra : BigReg) : Block := BitVec.ofNat 64 (s.big ra)

theorem State.CipherLoaded.cipherReady (h : s.CipherLoaded) : s.cipherReady = none := by
  obtain ⟨hkeyv, hsb1v, hsb2v⟩ := h
  simp [State.cipherReady, hkeyv, hsb1v, hsb2v]

theorem exec_blkenc_of_loaded (h : s.CipherLoaded) (rd ra : BigReg) :
    exec (.blkenc rd ra) s = succeed (s.setBig rd (encBlock s.cipherCtx (s.blockIn ra)).toNat) := by
  change execBlkenc rd ra s = _
  rw [execBlkenc, h.cipherReady]
  rfl

theorem exec_blkdec_of_loaded (h : s.CipherLoaded) (rd ra : BigReg) :
    exec (.blkdec rd ra) s = succeed (s.setBig rd (decBlock s.cipherCtx (s.blockIn ra)).toNat) := by
  change execBlkdec rd ra s = _
  rw [execBlkdec, h.cipherReady]
  rfl

/-- A block command completes with its block in `R[rd]`, which is wide enough. -/
theorem exists_completion_setBig_block (hp : s.params.wf = true) (rd : BigReg) (y : Block) :
    ∃ t, succeed (s.setBig rd y.toNat) = .next t ∧ s.CompletesIn t { big := [rd] } ∧ t.big rd = y.toNat :=
  s.exists_completion_setBig rd (toNat_lt_two_pow_w_of_le hp (by decide) y)

theorem exec_blkenc_completes (hp : s.params.wf = true) (h : s.CipherLoaded) (rd ra : BigReg) :
    ∃ t, exec (.blkenc rd ra) s = .next t ∧ s.CompletesIn t { big := [rd] } ∧
      t.big rd = (encBlock s.cipherCtx (s.blockIn ra)).toNat :=
  exec_blkenc_of_loaded h rd ra ▸ exists_completion_setBig_block hp rd _

theorem exec_blkdec_completes (hp : s.params.wf = true) (h : s.CipherLoaded) (rd ra : BigReg) :
    ∃ t, exec (.blkdec rd ra) s = .next t ∧ s.CompletesIn t { big := [rd] } ∧
      t.big rd = (decBlock s.cipherCtx (s.blockIn ra)).toNat :=
  exec_blkdec_of_loaded h rd ra ▸ exists_completion_setBig_block hp rd _

/-- A command that writes no key and no box leaves the cipher loaded. -/
theorem State.CompletesIn.cipherLoaded {t : State} {f : Footprint} (ht : s.CompletesIn t f) (hkeyv : f.keyv = false)
    (hsb1 : f.sb1 = false) (hsb2 : f.sb2 = false) (h : s.CipherLoaded) : t.CipherLoaded := by
  obtain ⟨hkeyLoaded, hsb1Loaded, hsb2Loaded⟩ := h
  exact ⟨(ht.keyv hkeyv).trans hkeyLoaded, (ht.sb1 hsb1).2.trans hsb1Loaded, (ht.sb2 hsb2).2.trans hsb2Loaded⟩

/-- A command that writes no key and no box leaves the cipher context. -/
theorem State.CompletesIn.cipherCtx {t : State} {f : Footprint} (ht : s.CompletesIn t f) (hkey : f.key = false)
    (hsb1 : f.sb1 = false) (hsb2 : f.sb2 = false) : t.cipherCtx = s.cipherCtx := by
  obtain ⟨hkey, hmkey⟩ := ht.key hkey
  rw [State.cipherCtx, State.cipherCtx, ht.params, hkey, hmkey, (ht.sb1 hsb1).1, (ht.sb2 hsb2).1]

end BlockCommands

/-- Settles O45: BLKDEC after BLKENC finds the same cipher context and the block that BLKENC wrote. -/
theorem blkencBlkdecResults : Obligations.BlkencBlkdecResults := by
  intro s rd ra re hp hloaded
  obtain ⟨t, henc, ht, hbig⟩ := exec_blkenc_completes hp hloaded rd ra
  obtain ⟨u, hdec, -, hplain⟩ := exec_blkdec_completes (ht.params ▸ hp) (ht.cipherLoaded rfl rfl rfl hloaded) re rd
  refine ⟨⟨t, henc, ht, hbig⟩, exec_blkdec_completes hp hloaded rd ra, u, ?_, ?_⟩
  · rw [runCommands, henc]
    exact congrArg (Result.thenRun · (runCommands [])) hdec
  · rw [hplain, ht.cipherCtx rfl rfl rfl, State.blockIn, hbig, BitVec.ofNat_toNat, BitVec.setWidth_eq,
      decBlock_encBlock, State.blockIn, BitVec.toNat_ofNat]

/-! ## What a block depends on (R216) -/

/-- Two cipher contexts with the same keys and boxes and the same parameters of the cipher; `W`, `DM_SIZE` and the other
parameters may differ. -/
structure CipherCtx.SameCipher (c d : CipherCtx) : Prop where
  subkeyTable : c.params.subkeyTable = d.params.subkeyTable
  gf16Poly : c.params.gf16Poly = d.params.gf16Poly
  fiFn : c.params.fi = d.params.fi
  key : c.key = d.key
  mkey : c.mkey = d.mkey
  sb1 : c.sb1 = d.sb1
  sb2 : c.sb2 = d.sb2

namespace CipherCtx.SameCipher

variable {c d : CipherCtx}

theorem subkeys (h : c.SameCipher d) (i : Nat) : subkeys c i = subkeys d i := by
  simp only [Machine.subkeys, Machine.subkey, h.subkeyTable, h.key, h.mkey]

theorem fi (h : c.SameCipher d) : fi c = fi d := by
  funext y z
  simp only [Machine.fi, h.fiFn, h.sb1, h.sb2]

theorem fo (h : c.SameCipher d) : fo c = fo d := by
  funext k x
  simp only [Machine.fo, foStage, h.fi]

theorem fl (h : c.SameCipher d) : fl c = fl d := by
  funext k x
  simp only [Machine.fl, h.gf16Poly]

theorem roundF (h : c.SameCipher d) : roundF c = roundF d := by
  funext i x
  simp only [Machine.roundF, h.subkeys, h.fo, h.fl]

theorem encBlock (h : c.SameCipher d) : encBlock c = encBlock d := by
  have hround : encRound c = encRound d := by
    funext p i
    simp only [encRound, h.roundF]
  funext x
  rw [Machine.encBlock, Machine.encBlock, hround]

theorem decBlock (h : c.SameCipher d) : decBlock c = decBlock d := by
  have hround : decRound c = decRound d := by
    funext p i
    simp only [decRound, h.roundF]
  funext y
  rw [Machine.decBlock, Machine.decBlock, hround]

end CipherCtx.SameCipher

/-- Settles O46: MKEY follows from KEY and `NUMS` by the invariant, so the contexts agree on all that a block depends
on, and both blocks fit their registers whatever their widths. -/
theorem blockCommandsDependOnlyOnKeyAndBoxes : Obligations.BlockCommandsDependOnlyOnKeyAndBoxes := by
  intro s s' rd ra rd' ra' hinv hinv' hloaded hloaded' hnums htable hfi hpoly hkey hsb1 hsb2 hin
  have hmkey : s'.mkey = s.mkey := by rw [hinv'.key hloaded'.1, hinv.key hloaded.1, hkey, hnums]
  have hsame : s'.cipherCtx.SameCipher s.cipherCtx := ⟨htable, hpoly, hfi, hkey, hmkey, hsb1, hsb2⟩
  have hblock : s'.blockIn ra' = s.blockIn ra := by
    apply BitVec.eq_of_toNat_eq
    rwa [State.blockIn, State.blockIn, BitVec.toNat_ofNat, BitVec.toNat_ofNat]
  constructor
  · obtain ⟨t, hexec, -, hbig⟩ := exec_blkenc_completes hinv.params hloaded rd ra
    obtain ⟨t', hexec', -, hbig'⟩ := exec_blkenc_completes hinv'.params hloaded' rd' ra'
    exact ⟨t, t', hexec, hexec', by rw [hbig', hbig, hsame.encBlock, hblock]⟩
  · obtain ⟨t, hexec, -, hbig⟩ := exec_blkdec_completes hinv.params hloaded rd ra
    obtain ⟨t', hexec', -, hbig'⟩ := exec_blkdec_completes hinv'.params hloaded' rd' ra'
    exact ⟨t, t', hexec, hexec', by rw [hbig', hbig, hsame.decBlock, hblock]⟩

end Sys2Proof.Machine

/-!
PROOFS. The chaining modes (45_chaining_modes.md). Byte strings and block lists are read by position, with 0 behind the
end: that makes the zero padding invisible and turns a chain into the relation of its mode. CBC and PCBC, encrypting or
decrypting, are one shape of recursion whose chaining value is a function of the block before (`blockAt_chain`). ENC and
DEC are then one store of the bytes of a chain, and the round trip is that of the two chains.
-/

namespace Sys2Proof.Machine

/-! ## Blocks and bytes by position (R230) -/

/-- Block `i` of a list of blocks, 0 behind its end. -/
def blockAt (bs : List Block) (i : Nat) : Block := bs.getD i 0

@[simp] theorem blockAt_cons_zero (b : Block) (bs : List Block) : blockAt (b :: bs) 0 = b := rfl

@[simp] theorem blockAt_cons_succ (b : Block) (bs : List Block) (i : Nat) :
    blockAt (b :: bs) (i + 1) = blockAt bs i := rfl

theorem blockAt_map (f : Block → Block) {bs : List Block} {i : Nat} (hi : i < bs.length) :
    blockAt (bs.map f) i = f (blockAt bs i) := by
  simp [blockAt, hi]

theorem byteOf_zero (j : Nat) : byteOf 0 j = 0 := by
  rw [byteOf, Nat.zero_div]
  rfl

theorem getD_leBytes {n j : Nat} (v : Nat) (hj : j < n) : (leBytes n v).getD j 0 = byteOf v j := by
  rw [List.getD_eq_getElem?_getD, getElem?_leBytes v hj, Option.getD_some, byteOf]

theorem bytesOf_cons (b : Block) (bs : List Block) : bytesOf (b :: bs) = leBytes 8 b.toNat ++ bytesOf bs :=
  List.flatMap_cons

/-- Byte `8i + j` of `bytes_of(B)` is byte `j` of block `i`. -/
theorem getD_bytesOf (bs : List Block) (i : Nat) {j : Nat} (hj : j < 8) :
    (bytesOf bs).getD (8 * i + j) 0 = byteOf (blockAt bs i).toNat j := by
  induction bs generalizing i with
  | nil => exact (byteOf_zero j).symm
  | cons b bs ih =>
    have hlen : (leBytes 8 b.toNat).length = 8 := length_leBytes ..
    rw [bytesOf_cons]
    cases i with
    | zero =>
      rw [Nat.mul_zero, Nat.zero_add, List.getD_append _ _ _ _ (hlen.symm ▸ hj), getD_leBytes _ hj, blockAt_cons_zero]
    | succ i =>
      have hrest : 8 * (i + 1) + j - 8 = 8 * i + j := by omega
      rw [List.getD_append_right _ _ _ _ (by omega), hlen, hrest, ih i, blockAt_cons_succ]

/-- Zero padding is not seen by a reading that gives 0 behind the end. -/
theorem getD_append_zeros (msg : List Byte) (n k : Nat) : (msg ++ List.replicate n 0).getD k 0 = msg.getD k 0 := by
  by_cases hk : k < msg.length
  · exact List.getD_append _ _ _ _ hk
  · have hpad : (List.replicate n (0 : Byte)).getD (k - msg.length) 0 = 0 := by
      rw [List.getD_eq_getElem?_getD, List.getElem?_getD_replicate_default_eq]
    rw [List.getD_append_right _ _ _ _ (by omega), hpad, List.getD_eq_default _ _ (by omega)]

/-- Byte `j` of block `i` of `blocks_of(msg)` is byte `8i + j` of the message, or padding. -/
theorem byteOf_blocksOf (msg : List Byte) (i : Nat) {j : Nat} (hj : j < 8) :
    byteOf (blockAt (blocksOf msg) i).toNat j = msg.getD (8 * i + j) 0 := by
  rw [← getD_bytesOf _ i hj, bytesOf_blocksOf, getD_append_zeros]

/-- A byte of a range of DM, 0 behind its end. -/
theorem State.getD_load_eq_ite (s : State) (addr n k : Nat) :
    (s.load addr n).getD k 0 = if k < n then s.dm.read (addr + k) else 0 := by
  split
  next hk => exact s.getD_load addr hk
  next hk => exact List.getD_eq_default _ _ (by rw [s.length_load]; omega)

/-! ## Chains and the relations of the modes (R231 to R234) -/

/-- A chain whose chaining value is at first `v` and behind each block `next` of that block and its result. -/
theorem blockAt_chain {out next : Block → Block → Block} {chain : Block → List Block → List Block}
    (hchain : ∀ v x xs, chain v (x :: xs) = out v x :: chain (next x (out v x)) xs)
    (v : Block) {xs : List Block} {i : Nat} (hi : i < xs.length) :
    blockAt (chain v xs) i =
      out (if i = 0 then v else next (blockAt xs (i - 1)) (blockAt (chain v xs) (i - 1))) (blockAt xs i) := by
  induction xs generalizing v i with
  | nil => contradiction
  | cons x xs ih =>
    rw [hchain]
    match i with
    | 0 => rfl
    | 1 => exact ih (next x (out v x)) (i := 0) (Nat.lt_of_succ_lt_succ hi)
    | i + 2 => exact ih (next x (out v x)) (i := i + 1) (Nat.lt_of_succ_lt_succ hi)

theorem blockAt_ctrMask (e : Block → Block) (n : Nat) {ps : List Block} {i : Nat} (hi : i < ps.length) :
    blockAt (ctrMask e n ps) i = blockAt ps i ^^^ e (BitVec.ofNat 64 (n + i)) := by
  induction ps generalizing n i with
  | nil => contradiction
  | cons p ps ih =>
    rw [ctrMask]
    cases i with
    | zero => rfl
    | succ i =>
      rw [blockAt_cons_succ, blockAt_cons_succ, ih (n + 1) (Nat.lt_of_succ_lt_succ hi), Nat.add_right_comm, Nat.add_assoc]

/-- CTR from index 0, as the relations of both directions write it (R234). -/
theorem blockAt_ctrMask_zero (e : Block → Block) {ps : List Block} {i : Nat} (hi : i < ps.length) :
    blockAt (ctrMask e 0 ps) i = blockAt ps i ^^^ e (BitVec.ofNat 64 i) := by
  rw [blockAt_ctrMask e 0 hi, Nat.zero_add]

theorem encRelation_encChain (mode : Mode) (e : Block → Block) (iv : Block) {ps : List Block} {i : Nat}
    (hi : i < ps.length) : encRelation mode e iv (blockAt ps) (blockAt (encChain e iv mode ps)) i := by
  cases mode with
  | ecb => exact blockAt_map e hi
  | cbc => exact blockAt_chain (out := fun v p => e (p ^^^ v)) (next := fun _ c => c) (fun _ _ _ => rfl) iv hi
  | pcbc => exact blockAt_chain (out := fun v p => e (p ^^^ v)) (next := fun p c => p ^^^ c) (fun _ _ _ => rfl) iv hi
  | ctr => exact blockAt_ctrMask_zero e hi

theorem decRelation_decChain (mode : Mode) (e d : Block → Block) (iv : Block) {cs : List Block} {i : Nat}
    (hi : i < cs.length) : decRelation mode e d iv (blockAt cs) (blockAt (decChain e d iv mode cs)) i := by
  cases mode with
  | ecb => exact blockAt_map d hi
  | cbc => exact blockAt_chain (out := fun v c => d c ^^^ v) (next := fun c _ => c) (fun _ _ _ => rfl) iv hi
  | pcbc => exact blockAt_chain (out := fun v c => d c ^^^ v) (next := fun c p => p ^^^ c) (fun _ _ _ => rfl) iv hi
  | ctr => exact blockAt_ctrMask_zero e hi

/-- Deciphering an enciphered message gives the message and its zero padding, in every mode (R237). -/
theorem decMessage_encMessage (c : CipherCtx) (mode : Mode) (msg : List Byte) :
    decMessage c mode (encMessage c mode msg) =
      msg ++ List.replicate (8 * ((msg.length + 7) / 8) - msg.length) 0 := by
  rw [decMessage, encMessage, blocksOf_bytesOf, decChain_encChain (decBlock_encBlock c), bytesOf_blocksOf]

/-! ## ENC, DEC (R235, R236) -/

section Completions

variable {s : State} {sDst sSrc sLen : ScalReg}

theorem exec_enc_of_loaded (h : s.CipherLoaded) (mode : Mode) (hsrc : s.InDm (s.scalNat sSrc) (s.scalNat sLen))
    (hdst : s.InDm (s.scalNat sDst) (8 * ((s.scalNat sLen + 7) / 8))) :
    exec (.enc sDst sSrc sLen mode) s =
      succeed (s.store (s.scalNat sDst) (encMessage s.cipherCtx mode (s.load (s.scalNat sSrc) (s.scalNat sLen)))) := by
  change execEnc sDst sSrc sLen mode s = _
  rw [execEnc, h.cipherReady]
  exact if_neg (by simp [Bool.eq_false_iff.mpr hsrc.not_outOfDm, ceilDiv8, Bool.eq_false_iff.mpr hdst.not_outOfDm])

theorem exec_dec_of_loaded (h : s.CipherLoaded) (mode : Mode) (hmul : s.scalNat sLen % 8 = 0)
    (hsrc : s.InDm (s.scalNat sSrc) (s.scalNat sLen)) (hdst : s.InDm (s.scalNat sDst) (s.scalNat sLen)) :
    exec (.dec sDst sSrc sLen mode) s =
      succeed (s.store (s.scalNat sDst) (decMessage s.cipherCtx mode (s.load (s.scalNat sSrc) (s.scalNat sLen)))) := by
  change execDec sDst sSrc sLen mode s = _
  rw [execDec, h.cipherReady]
  exact (if_neg (not_not.mpr hmul)).trans
    (if_neg (by simp [Bool.eq_false_iff.mpr hsrc.not_outOfDm, Bool.eq_false_iff.mpr hdst.not_outOfDm]))

end Completions

/-- Blocks stored to DM are read back byte by byte. -/
theorem Memory.read_writeBytes_bytesOf {m : Memory} (hm : m.wf = true) (a : Nat) {bs : List Block} {i j : Nat}
    (hi : i < bs.length) (hj : j < 8) :
    (m.writeBytes a (bytesOf bs)).read (a + (8 * i + j)) = byteOf (blockAt bs i).toNat j := by
  rw [Memory.read_writeBytes_getD hm a (by rw [length_bytesOf]; omega), getD_bytesOf bs i hj]

/-- A completion that stores `n` bytes to DM. -/
theorem State.completesIn_store_of_length (s : State) (a : Nat) {bs : List Byte} {n : Nat} (h : bs.length = n) :
    s.CompletesIn (s.store a bs).finish { dmAddr := a, dmLen := n } :=
  h ▸ s.completesIn_store a bs

/-- Settles O48: the blocks are those of the padded message and of its chain, which stand in the relation of the mode. -/
theorem encResult : Obligations.EncResult := by
  intro s sDst sSrc sLen mode hwf hloaded hsrc hdst
  have hlen := length_encMessage s.cipherCtx mode (s.load (s.scalNat sSrc) (s.scalNat sLen))
  have hblocks := length_blocksOf (s.load (s.scalNat sSrc) (s.scalNat sLen))
  rw [State.length_load] at hlen hblocks
  refine ⟨_, blockAt (blocksOf _), blockAt (encChain _ _ mode _), exec_enc_of_loaded hloaded mode hsrc hdst,
    s.completesIn_store_of_length _ hlen, fun i _ j hj => ?_,
    fun i hi => encRelation_encChain mode _ _ (hblocks ▸ hi), fun i hi j hj => ?_⟩
  · rw [byteOf_blocksOf _ i hj, s.getD_load_eq_ite]
  · exact Memory.read_writeBytes_bytesOf hwf _ (by rwa [length_encChain, hblocks]) hj

/-- Settles O49: as for ENC; a whole number of blocks has no padding. -/
theorem decResult : Obligations.DecResult := by
  intro s sDst sSrc sLen mode hwf hloaded hmul hsrc hdst
  have hlen := length_decMessage s.cipherCtx mode (s.load (s.scalNat sSrc) (s.scalNat sLen))
  have hblocks := length_blocksOf (s.load (s.scalNat sSrc) (s.scalNat sLen))
  have hwhole : (s.scalNat sLen + 7) / 8 = s.scalNat sLen / 8 := by omega
  rw [State.length_load, hwhole] at hlen hblocks
  rw [Nat.mul_div_cancel' (Nat.dvd_of_mod_eq_zero hmul)] at hlen
  refine ⟨_, blockAt (blocksOf _), blockAt (decChain _ _ _ mode _), exec_dec_of_loaded hloaded mode hmul hsrc hdst,
    s.completesIn_store_of_length _ hlen, fun i hi j hj => ?_,
    fun i hi => decRelation_decChain mode _ _ _ (hblocks ▸ hi), fun i hi j hj => ?_⟩
  · rw [byteOf_blocksOf _ i hj, s.getD_load _ (by omega)]
  · exact Memory.read_writeBytes_bytesOf hwf _ (by rwa [length_decChain, hblocks]) hj

/-! ## ENC and DEC one after the other (R237) -/

/-- DEC of a range of DM that holds an enciphered message stores the message and zero bytes. -/
theorem exec_dec_of_enciphered {t : State} {sBack sSrc sLen : ScalReg} {mode : Mode} {msg : List Byte}
    (hwf : t.dm.wf = true) (hloaded : t.CipherLoaded) (hn : t.scalNat sLen = 8 * ((msg.length + 7) / 8))
    (hsrc : t.InDm (t.scalNat sSrc) (t.scalNat sLen)) (hback : t.InDm (t.scalNat sBack) (t.scalNat sLen))
    (hload : t.load (t.scalNat sSrc) (t.scalNat sLen) = encMessage t.cipherCtx mode msg) :
    ∃ u, exec (.dec sBack sSrc sLen mode) t = .next u ∧
      ∀ k < t.scalNat sLen, u.dm.read (t.scalNat sBack + k) = msg.getD k 0 := by
  refine ⟨_, exec_dec_of_loaded hloaded mode (by omega) hsrc hback, fun k hk => ?_⟩
  have hplain := decMessage_encMessage t.cipherCtx mode msg
  have hlen : k < (decMessage t.cipherCtx mode (encMessage t.cipherCtx mode msg)).length := by
    rw [length_decMessage, length_encMessage]
    omega
  rw [State.finish_dm, State.store_dm, hload, Memory.read_writeBytes_getD hwf _ hlen, hplain, getD_append_zeros]

/-- Settles O50: DEC starts in the state that ENC left, which holds the ciphertext under the same cipher context. -/
theorem encThenDecRestores : Obligations.EncThenDecRestores := by
  intro s sDst sSrc sLen sBack sLen' mode hwf hloaded hsrc hlen' hdst hback
  have hmsg := s.length_load (s.scalNat sSrc) (s.scalNat sLen)
  have hcipher : (encMessage s.cipherCtx mode (s.load (s.scalNat sSrc) (s.scalNat sLen))).length = s.scalNat sLen' := by
    rw [length_encMessage, hmsg, hlen']
  obtain ⟨u, hdec, hplain⟩ := exec_dec_of_enciphered (sBack := sBack) (sSrc := sDst) (sLen := sLen') (mode := mode)
    (t := (s.store (s.scalNat sDst) (encMessage s.cipherCtx mode (s.load (s.scalNat sSrc) (s.scalNat sLen)))).finish)
    (s.dm.wf_writeBytes _ _ hwf) hloaded (hmsg.symm ▸ hlen') hdst hback (State.load_store hwf _ hcipher)
  refine ⟨u, ?_, fun k hk => ?_, fun k hge hk => ?_⟩
  · rw [runCommands, exec_enc_of_loaded hloaded mode hsrc (hlen' ▸ hdst)]
    exact congrArg (Result.thenRun · (runCommands [])) hdec
  · have hpadded : k < s.scalNat sLen' := by omega
    exact (hplain k hpadded).trans (s.getD_load _ hk)
  · exact (hplain k hk).trans (List.getD_eq_default _ _ (hmsg.symm ▸ hge))

end Sys2Proof.Machine

/-!
PROOFS. Data movement and NOP (46_move_and_nop.md). LDR and STR are one write each, under the checks of R251 and R252:
`le_int` of a range of DM fits the register, and STR's bytes are `le_bytes` of the register, which `le_int` undoes up to
the bits that `le_bytes` drops.
-/

namespace Sys2Proof.Machine

section Completions

variable {s : State}

theorem exec_ldr_of_inDm (rd : BigReg) {sSrc sLen : ScalReg} (hlen : s.scalNat sLen ≤ s.params.w / 8)
    (hsrc : s.InDm (s.scalNat sSrc) (s.scalNat sLen)) :
    exec (.ldr rd sSrc sLen) s = succeed (s.setBig rd (leInt (s.load (s.scalNat sSrc) (s.scalNat sLen)))) :=
  (if_neg (Nat.not_lt.mpr hlen)).trans (if_neg hsrc.not_outOfDm)

theorem exec_str_of_inDm {sDst sLen : ScalReg} (ra : BigReg) (hlen : s.scalNat sLen ≤ s.params.w / 8)
    (hdst : s.InDm (s.scalNat sDst) (s.scalNat sLen)) :
    exec (.str sDst ra sLen) s = succeed (s.store (s.scalNat sDst) (leBytes (s.scalNat sLen) (s.big ra))) :=
  (if_neg (Nat.not_lt.mpr hlen)).trans (if_neg hdst.not_outOfDm)

/-- The integer of a range of DM lies below `256^n`. -/
theorem State.leInt_load_lt (s : State) (a n : Nat) : leInt (s.load a n) < 256 ^ n := by
  simpa using leInt_lt (s.load a n)

/-- The integer of no more bytes than a register has fits the register. -/
theorem State.leInt_load_lt_two_pow_w (s : State) (a : Nat) {n : Nat} (hn : n ≤ s.params.w / 8) :
    leInt (s.load a n) < 2 ^ s.params.w :=
  calc leInt (s.load a n) < 256 ^ n := s.leInt_load_lt a n
    _ = 2 ^ (8 * n) := (Nat.pow_mul 2 8 n).symm
    _ ≤ 2 ^ s.params.w := Nat.pow_le_pow_right two_pos (by omega)

/-- LDR's one write is the integer of the range, unreduced. -/
theorem exec_ldr_completes (rd : BigReg) {sSrc sLen : ScalReg} (hlen : s.scalNat sLen ≤ s.params.w / 8)
    (hsrc : s.InDm (s.scalNat sSrc) (s.scalNat sLen)) :
    ∃ t, exec (.ldr rd sSrc sLen) s = .next t ∧ s.CompletesIn t { big := [rd] } ∧
      t.big rd = leInt (s.load (s.scalNat sSrc) (s.scalNat sLen)) := by
  rw [exec_ldr_of_inDm rd hlen hsrc]
  exact s.exists_completion_setBig rd (s.leInt_load_lt_two_pow_w _ hlen)

end Completions

/-! ## The obligations -/

/-- Settles O16: the register holds `le_int` of the range, whose bytes are those of DM. -/
theorem ldrLoadsBytes : Obligations.LdrLoadsBytes := by
  intro s rd sSrc sLen hlen hsrc
  obtain ⟨t, hexec, ht, hbig⟩ := exec_ldr_completes rd hlen hsrc
  refine ⟨t, hexec, ht, ?_, fun k hk => ?_⟩
  · rw [hbig]
    exact s.leInt_load_lt _ _
  · rw [hbig, byteOf_leInt (by rwa [State.length_load]), s.getD_load _ hk]

/-- Settles O17: LDR starts in the state that STR left, where the range holds `le_bytes` of the register. -/
theorem strStoresBytes : Obligations.StrStoresBytes := by
  intro s sDst ra sLen hwf hlen hdst
  have hstr := exec_str_of_inDm ra hlen hdst
  have hcount := length_leBytes (s.scalNat sLen) (s.big ra)
  refine ⟨⟨_, hstr, s.completesIn_store_of_length _ hcount,
    fun k hk => Memory.read_writeBytes_leBytes hwf _ _ hk⟩, fun rd => ?_⟩
  obtain ⟨u, hldr, -, hbig⟩ := exec_ldr_completes rd
    (s := (s.store (s.scalNat sDst) (leBytes (s.scalNat sLen) (s.big ra))).finish) (sSrc := sDst) hlen hdst
  have hload := State.load_store hwf (s.scalNat sDst) hcount
  refine ⟨u, ?_, ?_⟩
  · rw [runCommands, hstr]
    exact congrArg (Result.thenRun · (runCommands [])) hldr
  · calc u.big rd = leInt (leBytes (s.scalNat sLen) (s.big ra)) := hbig.trans (congrArg leInt hload)
      _ = s.big ra % 2 ^ (8 * s.scalNat sLen) := by rw [leInt_leBytes, Nat.pow_mul]

/-- Settles O4: each printed word runs through the decoder. -/
theorem sampleWordsDecode : Obligations.SampleWordsDecode :=
  ⟨rfl, rfl, rfl, rfl, rfl, rfl, rfl, rfl, rfl, rfl⟩

/-- Settles O15: the meaning of NOP is the completion alone. -/
theorem nopCompletes : Obligations.NopCompletes := fun _ => rfl

end Sys2Proof.Machine

/-!
PROOFS. Exceptions (60_exceptions.md). The engine's turn by the word that CMDLATCH holds (R304); the checks of each
command as a ladder of its causes in rising code, whose first rung that applies is the fault (R301, R302, R311); the
acknowledge (R306); and the commands as functions of a state that do not see the host's record in it, which is all that
a transaction made while BUSY can change (R304).
-/

namespace Sys2Proof.Machine

/-! ## The engine's turn (R304) -/

section EngineTurn

variable {s : State}

theorem State.engineTurn_of_idle (hbusy : s.busy = false) : s.engineTurn = .next s :=
  if_neg (Bool.eq_false_iff.mp hbusy)

theorem State.engineTurn_of_decoded {i : Instr} (hbusy : s.busy = true) (hdec : decode s.cmdLatch = .ok i) :
    s.engineTurn = exec i s := by
  rw [State.engineTurn, if_pos hbusy, State.complete, hdec]

/-- A word that is no legal command makes the fault entry with code 1 (30_encoding.md R95). -/
theorem State.engineTurn_of_illegal {x : DecodeError} (hbusy : s.busy = true)
    (hdec : decode s.cmdLatch = .error x) : s.engineTurn = .next (s.faulted 1) := by
  rw [State.engineTurn, if_pos hbusy, State.complete, hdec, raise, State.faultEntry_eq_faulted]
  rfl

/-- The two ways in which the turn comes: as the oldest event, or with no event pending. What the turn does is the
same for whatever events are left. -/
theorem step_at_engineTurn {f : State → Result} (rest : List Event)
    (h : ∀ es, State.engineTurn { s with pending := es } = f { s with pending := es }) :
    (s.pending = .engine :: rest → step s = f { s with pending := rest }) ∧ (s.pending = [] → step s = f s) :=
  ⟨fun hp => (step_of_pending hp).trans (h rest), fun hp => (step_of_idle hp).trans (h s.pending)⟩

theorem step_of_illegal {x : DecodeError} (rest : List Event) (hbusy : s.busy = true)
    (hdec : decode s.cmdLatch = .error x) :
    (s.pending = .engine :: rest → step s = .next (State.faulted { s with pending := rest } 1)) ∧
      (s.pending = [] → step s = .next (s.faulted 1)) :=
  step_at_engineTurn (f := fun t => .next (t.faulted 1)) rest fun es =>
    State.engineTurn_of_illegal (s := { s with pending := es }) hbusy hdec

end EngineTurn

/-- Settles O5: the engine's turn in each of the three cases. -/
theorem stepRunsDecodedCommand : Obligations.StepRunsDecodedCommand := by
  intro s rest
  refine ⟨fun i hbusy hdec => ?_, fun x hbusy hdec => step_of_illegal rest hbusy hdec, fun hbusy => ?_⟩
  · exact step_at_engineTurn rest fun es =>
      State.engineTurn_of_decoded (s := { s with pending := es }) hbusy hdec
  · exact step_at_engineTurn rest fun es => State.engineTurn_of_idle (s := { s with pending := es }) hbusy

/-! ## Nothing stops the core -/

theorem exec_keeps_params (i : Instr) (s : State) : ∃ t, exec i s = .next t ∧ t.params = s.params := by
  rcases exec_ends i s with ⟨c, hc⟩ | ⟨t, ht, hexec⟩
  · exact ⟨_, hc, rfl⟩
  · exact ⟨_, hexec, ht.completesIn.params⟩

theorem State.engineTurn_keeps_params (s : State) : ∃ t, s.engineTurn = .next t ∧ t.params = s.params := by
  cases hbusy : s.busy with
  | false => exact ⟨s, State.engineTurn_of_idle hbusy, rfl⟩
  | true =>
    cases hdec : decode s.cmdLatch with
    | error x => exact ⟨_, State.engineTurn_of_illegal hbusy hdec, rfl⟩
    | ok i =>
      rw [State.engineTurn_of_decoded hbusy hdec]
      exact exec_keeps_params i s

theorem State.params_unlessBusy {s t : State} (h : t.params = s.params) : (s.unlessBusy t).params = s.params := by
  unfold State.unlessBusy
  split
  · rfl
  · exact h

/-- No register of the window reaches the parameter record (00_scope.md R10). -/
theorem State.params_poke (s : State) (r : Target) (d : Word) : (s.poke r d).params = s.params := by
  cases r with
  | id | fault | fcmd | ksst | ivlo | ivhi | capw | capdm | ien => rfl
  | cmd =>
    rw [State.poke, State.issue]
    split <;> rfl
  | status => rw [State.poke, State.clearStatus_eq]
  | hcfg | scal k | bigWord k j | dmWord a => exact State.params_unlessBusy rfl

theorem State.params_hostWrite (s : State) (addr : BitVec 16) (d : Word) :
    (s.hostWrite addr d).params = s.params := by
  unfold State.hostWrite
  split
  · rfl
  · exact s.params_poke _ d

theorem State.params_hostRead (s : State) (addr : BitVec 16) : (s.hostRead addr).params = s.params := by
  unfold State.hostRead
  split
  · rfl
  · split <;> rfl

theorem State.params_hostOtherWidth (s : State) (isWrite : Bool) :
    (s.hostOtherWidth isWrite).params = s.params := by
  unfold State.hostOtherWidth
  split <;> rfl

theorem State.event_keeps_params (s : State) (e : Event) : ∃ t, s.event e = .next t ∧ t.params = s.params := by
  cases e with
  | read addr => exact ⟨_, rfl, s.params_hostRead addr⟩
  | write addr d => exact ⟨_, rfl, s.params_hostWrite addr d⟩
  | otherWidth isWrite addr => exact ⟨_, rfl, s.params_hostOtherWidth isWrite⟩
  | engine => exact s.engineTurn_keeps_params
  | reset => exact ⟨_, rfl, rfl⟩

/-- Settles O6: the step is the engine's turn or the oldest event. -/
theorem neverStopsAndKeepsParameters : Obligations.NeverStopsAndKeepsParameters := by
  intro s
  cases hp : s.pending with
  | nil =>
    rw [step_of_idle hp]
    exact s.engineTurn_keeps_params
  | cons e rest =>
    rw [step_of_pending hp]
    exact State.event_keeps_params { s with pending := rest } e

/-! ## The acknowledge (R306) -/

/-- Settles O53: the acknowledge is the STATUS write of `statusWriteClears`; it finds DONE as the command left it and
lowers ERR to the 0 that it has while BUSY, so `commandIssue` accepts the next word. -/
theorem acknowledgeRestores : Obligations.AcknowledgeRestores := by
  intro s c w rest hinv hbusy hp
  obtain ⟨-, herr⟩ := hinv.busy hbusy
  rw [← State.faultEntry_eq_faulted]
  have hack : step (s.faultEntry c) = .next { s with
      pending := .write 0x0004 w :: rest, bus := some .writeOk, busy := false,
      faultCause := c.code, fcmd := s.cmdLatch } := by
    rw [statusWriteClears (s.faultEntry c) 4 _ hp]
    simp [State.faultEntry, herr]
  exact ⟨_, _, hack, (commandIssue _ w rest rfl).1 rfl herr, rfl, rfl, rfl, rfl, rfl⟩

/-! ## The causes of each command (R301, R311) -/

/-- The causes that can apply to a command, in rising code: the rows of R311, and ILLEGAL_CMD at the one command of the
model that need not be well formed (log entry 9). -/
def faultCauses (i : Instr) : List Cause :=
  match i with
  | .nop | .keyld _ => []
  | .ldr _ _ _ | .str _ _ _ | .ksinit _ _ _ => [.badLength, .dmBounds]
  | .modmul _ _ _ _ | .modexp _ _ _ _ => [.divZero]
  | .xgcd _ _ _ => [.illegalCmd]
  | .modinv _ _ _ => [.divZero, .notInvertible]
  | .mrwit _ _ | .prseed _ => [.badOperand]
  | .mrtest _ _ | .prnext _ => [.prngUnseeded]
  | .ksnext _ | .keyks => [.ksUninit]
  | .ksbytes _ _ | .ksciph _ _ _ | .ksperm _ => [.ksUninit, .dmBounds]
  | .spinit | .spperm => [.hcfgInvalid]
  | .spabsb _ | .spout _ | .hash _ _ _ => [.hcfgInvalid, .dmBounds]
  | .keyrd _ => [.keyUnloaded]
  | .sbload _ => [.ksUninit, .sboxSize]
  | .blkenc _ _ | .blkdec _ _ => [.keyUnloaded, .sboxUnloaded]
  | .enc _ _ _ _ => [.keyUnloaded, .sboxUnloaded, .dmBounds]
  | .dec _ _ _ _ => [.keyUnloaded, .sboxUnloaded, .badLength, .dmBounds]

/-- Code order: `c` is reported before `d` (R302). -/
def Cause.Before (c d : Cause) : Prop := c.code.toNat < d.code.toNat

theorem faultCauses_rising (i : Instr) : (faultCauses i).Pairwise Cause.Before := by
  unfold faultCauses Cause.Before
  cases i <;> simp [Cause.code]

theorem dmBounds_mem_faultCauses {i : Instr} {s : State} {r : Nat × Nat} (h : r ∈ dmRanges i s) :
    Cause.dmBounds ∈ faultCauses i := by
  unfold dmRanges at h
  split at h <;> simp_all [faultCauses]

theorem mem_faultCauses_of_applies {c : Cause} {i : Instr} {s : State} (h : c.applies i s) : c ∈ faultCauses i := by
  cases c with
  | dmBounds =>
    obtain ⟨r, hr, -⟩ := h
    exact dmBounds_mem_faultCauses hr
  | illegalCmd =>
    cases i with
    | xgcd rd ra rb => exact List.mem_singleton_self _
    | _ => cases h
  | _ =>
    simp only [Cause.applies] at h
    split at h <;> simp_all [faultCauses, -Nat.reducePow]

/-! ## The checks of a command as a ladder (R302) -/

/-- The result `r` of the command `i` goes down a list of causes: the first that applies is the fault, and with none the
command completes with the fault record as it stands. -/
def State.Reports (s : State) (i : Instr) (r : Result) : List Cause → Prop
  | [] => ∃ t, r = succeed t ∧ t.err = s.err ∧ t.faultCause = s.faultCause ∧ t.fcmd = s.fcmd
  | c :: cs => (c.applies i s ∧ r = raise c s) ∨ (¬c.applies i s ∧ s.Reports i r cs)

namespace State.Reports

variable {s t : State} {i : Instr} {r : Result} {cs : List Cause} {c : Cause}

/-- The lowest cause that applies is the first one down the list. -/
theorem raise_of_lowest (h : s.Reports i r cs) (hrising : cs.Pairwise Cause.Before) (hmem : c ∈ cs)
    (happ : c.applies i s) (hlow : ∀ d : Cause, d.applies i s → c.code.toNat ≤ d.code.toNat) : r = raise c s := by
  induction cs with
  | nil => cases hmem
  | cons d ds ih =>
    obtain ⟨hbefore, hrising⟩ := List.pairwise_cons.mp hrising
    rcases List.mem_cons.mp hmem with rfl | hmem
    · rcases h with ⟨-, hr⟩ | ⟨hno, -⟩
      · exact hr
      · exact absurd happ hno
    · rcases h with ⟨hd, -⟩ | ⟨-, hrest⟩
      · exact absurd (hbefore c hmem) (Nat.not_lt.mpr (hlow d hd))
      · exact ih hrest hrising hmem

theorem completes_of_none (h : s.Reports i r cs) (hnone : ∀ c : Cause, ¬c.applies i s) :
    ∃ t, r = succeed t ∧ t.err = s.err ∧ t.faultCause = s.faultCause ∧ t.fcmd = s.fcmd := by
  induction cs with
  | nil => exact h
  | cons d ds ih =>
    rcases h with ⟨hd, -⟩ | ⟨-, hrest⟩
    · exact absurd hd (hnone d)
    · exact ih hrest

/-- No write of a command reaches the fault record, so its completion is by the simp lemmas of the updates. -/
theorem completes (h : t.err = s.err ∧ t.faultCause = s.faultCause ∧ t.fcmd = s.fcmd := by simp) :
    s.Reports i (succeed t) [] := ⟨t, rfl, h⟩

/-- One check of a command, which decides whether its cause applies. -/
theorem check {p : Prop} [Decidable p] (hp : c.applies i s ↔ p) (h : ¬p → s.Reports i r cs) :
    s.Reports i (if p then raise c s else r) (c :: cs) := by
  split
  next hyes => exact .inl ⟨hp.mpr hyes, rfl⟩
  next hno => exact .inr ⟨hp.not.mpr hno, h hno⟩

/-- The check of one range of DM (20_memory.md R63). -/
theorem checkDm {a n : Nat} (hr : dmRanges i s = [(a, n)]) (h : s.Reports i r []) :
    s.Reports i (if s.outOfDm a n then raise .dmBounds s else r) [.dmBounds] :=
  check (by simp [Cause.applies, hr, State.outOfDm]) fun _ => h

/-- The check of a source and a destination range of DM. -/
theorem checkDmPair {a n a' n' : Nat} (hr : dmRanges i s = [(a, n), (a', n')]) (h : s.Reports i r []) :
    s.Reports i (if s.outOfDm a n || s.outOfDm a' n' then raise .dmBounds s else r) [.dmBounds] :=
  check (by simp [Cause.applies, hr, State.outOfDm]) fun _ => h

/-- The check of the hash configuration (43_sponge_hash.md R180). -/
theorem checkHcfg (hp : Cause.hcfgInvalid.applies i s ↔ s.hLen = 0 ∨ s.hLen > 128) (h : s.Reports i r cs) :
    s.Reports i (if s.hcfgBad then raise .hcfgInvalid s else r) (.hcfgInvalid :: cs) :=
  check (hp.trans (by simp [State.hcfgBad])) fun _ => h

/-- The two checks of `cipher_ready()` (44_block_cipher.md R200). -/
theorem checkCipher (hkey : Cause.keyUnloaded.applies i s ↔ s.keyv = false)
    (hbox : Cause.sboxUnloaded.applies i s ↔ s.sb1v = false ∨ s.sb2v = false)
    (hsome : ∀ c, s.cipherReady = some c → r = raise c s) (hnone : s.cipherReady = none → s.Reports i r cs) :
    s.Reports i r (.keyUnloaded :: .sboxUnloaded :: cs) := by
  unfold State.cipherReady at hsome hnone
  by_cases hkeyv : s.keyv = false
  · exact .inl ⟨hkey.mpr hkeyv, hsome _ (if_pos hkeyv)⟩
  refine .inr ⟨hkey.not.mpr hkeyv, ?_⟩
  simp only [if_neg hkeyv] at hsome hnone
  by_cases hboxes : s.sb1v = false ∨ s.sb2v = false
  · exact .inl ⟨hbox.mpr hboxes, hsome _ (if_pos hboxes)⟩
  · exact .inr ⟨hbox.not.mpr hboxes, hnone (if_neg hboxes)⟩

end State.Reports

/-! ## The ladder of each command -/

open State (Reports)

theorem exec_modinv_reports (rd ra rm : BigReg) (s : State) :
    s.Reports (.modinv rd ra rm) (exec (.modinv rd ra rm) s) [.divZero, .notInvertible] := by
  refine Reports.check Iff.rfl fun hm => Reports.check ?_ fun _ => .completes
  rw [(xgcd_bezout _ _).1]
  exact and_iff_right hm

/-- MRWIT looks at its base where the pre-check does not decide (40_number_theory.md R131). -/
theorem exec_mrwit_reports (rn rbase : BigReg) (s : State) :
    s.Reports (.mrwit rn rbase) (exec (.mrwit rn rbase) s) [.badOperand] := by
  by_cases hund : mrUndecided (s.big rn)
  · have hexec : exec (.mrwit rn rbase) s = if s.big rbase < 2 ∨ s.big rbase > s.big rn - 2 then raise .badOperand s
        else succeed (s.setPrime (mrRound (s.big rn) (s.big rbase))) := by
      simp only [exec, execMrwit, mrPrecheck_of_undecided hund]
    rw [hexec]
    refine Reports.check ((and_iff_right hund).trans ?_) fun _ => .completes
    omega
  · rw [exec_mrwit_of_decided rbase hund]
    exact .inr ⟨fun happ => hund happ.1, .completes⟩

theorem exec_mrtest_reports (rn : BigReg) (iters : Byte) (s : State) :
    s.Reports (.mrtest rn iters) (exec (.mrtest rn iters) s) [.prngUnseeded] := by
  refine Reports.check Iff.rfl fun _ => ?_
  split <;> exact .completes

theorem exec_sbload_reports (box : Box) (s : State) :
    s.Reports (.sbload box) (exec (.sbload box) s) [.ksUninit, .sboxSize] := by
  refine Reports.check Iff.rfl fun _ => Reports.check Iff.rfl fun _ => ?_
  cases box <;> exact .completes

theorem exec_enc_reports (sDst sSrc sLen : ScalReg) (mode : Mode) (s : State) :
    s.Reports (.enc sDst sSrc sLen mode) (exec (.enc sDst sSrc sLen mode) s)
      [.keyUnloaded, .sboxUnloaded, .dmBounds] := by
  refine Reports.checkCipher Iff.rfl Iff.rfl (fun c hc => ?_) fun hready => ?_
  · simp only [exec, execEnc, hc]
  · simp only [exec, execEnc, hready]
    exact .checkDmPair rfl .completes

theorem exec_dec_reports (sDst sSrc sLen : ScalReg) (mode : Mode) (s : State) :
    s.Reports (.dec sDst sSrc sLen mode) (exec (.dec sDst sSrc sLen mode) s)
      [.keyUnloaded, .sboxUnloaded, .badLength, .dmBounds] := by
  refine Reports.checkCipher Iff.rfl Iff.rfl (fun c hc => ?_) fun hready => ?_
  · simp only [exec, execDec, hc]
  · simp only [exec, execDec, hready]
    exact .check Iff.rfl fun _ => .checkDmPair rfl .completes

/-- Every command goes down its causes in rising code. -/
theorem exec_reports (i : Instr) (s : State) : s.Reports i (exec i s) (faultCauses i) := by
  cases i with
  | nop => exact .completes
  | ldr rd sSrc sLen => exact .check Iff.rfl fun _ => .checkDm rfl .completes
  | str sDst ra sLen => exact .check Iff.rfl fun _ => .checkDm rfl .completes
  | modmul rd ra rb rm => exact .check Iff.rfl fun _ => .completes
  | modexp rd ra rb rm => exact .check Iff.rfl fun _ => .completes
  | xgcd rd ra rb => exact .check (by simp [Cause.applies, Instr.wf]) fun _ => .completes
  | modinv rd ra rm => exact exec_modinv_reports rd ra rm s
  | mrwit rn rbase => exact exec_mrwit_reports rn rbase s
  | mrtest rn iters => exact exec_mrtest_reports rn iters s
  | prseed ra => exact .check (ofNat_eq_zero_iff_mod _ _).symm fun _ => .completes
  | prnext rd => exact .check Iff.rfl fun _ => .completes
  | ksinit sKey sLen sN => exact .check Iff.rfl fun _ => .checkDm rfl .completes
  | ksnext sd => exact .check Iff.rfl fun _ => .completes
  | ksbytes sDst sLen => exact .check Iff.rfl fun _ => .checkDm rfl .completes
  | ksciph sDst sSrc sLen => exact .check Iff.rfl fun _ => .checkDmPair rfl .completes
  | ksperm sDst => exact .check Iff.rfl fun _ => .checkDm rfl .completes
  | spinit => exact .checkHcfg Iff.rfl .completes
  | spabsb sSrc => exact .checkHcfg Iff.rfl (.checkDm rfl .completes)
  | spperm => exact .checkHcfg Iff.rfl .completes
  | spout sDst => exact .checkHcfg Iff.rfl (.checkDm rfl .completes)
  | hash sDst sSrc sLen =>
    exact .checkHcfg Iff.rfl (.checkDmPair rfl .completes)
  | keyld ra => exact .completes
  | keyks => exact .check Iff.rfl fun _ => .completes
  | keyrd rd => exact .check Iff.rfl fun _ => .completes
  | sbload box => exact exec_sbload_reports box s
  | blkenc rd ra =>
    refine .checkCipher Iff.rfl Iff.rfl (fun c hc => ?_) fun hready => ?_
    · simp only [exec, execBlkenc, hc]
    · simp only [exec, execBlkenc, hready]
      exact .completes
  | blkdec rd ra =>
    refine .checkCipher Iff.rfl Iff.rfl (fun c hc => ?_) fun hready => ?_
    · simp only [exec, execBlkdec, hc]
    · simp only [exec, execBlkdec, hready]
      exact .completes
  | enc sDst sSrc sLen mode => exact exec_enc_reports sDst sSrc sLen mode s
  | dec sDst sSrc sLen mode => exact exec_dec_reports sDst sSrc sLen mode s

/-- Settles O11: the lowest cause that applies is the first down the command's ladder; an illegal word is the engine's
turn of `step_of_illegal`. -/
theorem lowestCauseReported : Obligations.LowestCauseReported := by
  intro i s
  have hladder := exec_reports i s
  refine ⟨fun c happ hlow => ?_, fun hnone => ?_, fun x rest hbusy hdec => step_of_illegal rest hbusy hdec⟩
  · rw [hladder.raise_of_lowest (faultCauses_rising i) (mem_faultCauses_of_applies happ) happ hlow, raise,
      State.faultEntry_eq_faulted]
  · obtain ⟨t, hexec, hrecord⟩ := hladder.completes_of_none hnone
    exact ⟨t.finish, hexec, rfl, rfl, hrecord⟩

/-! ## Commands do not see the host's record (R304) -/

/-- The state `s` with the host's record of `h`: OVR, the interrupt enables, the last response and the count of free
words. -/
def State.withHostRecord (s h : State) : State :=
  { s with ovr := h.ovr, ieDone := h.ieDone, ieErr := h.ieErr, bus := h.bus, freeCount := h.freeCount }

section WithHostRecord

variable (s h : State)

@[simp] theorem State.withHostRecord_params : (s.withHostRecord h).params = s.params := rfl
@[simp] theorem State.withHostRecord_xsv : (s.withHostRecord h).xsv = s.xsv := rfl
@[simp] theorem State.withHostRecord_big (k : BigReg) : (s.withHostRecord h).big k = s.big k := rfl
@[simp] theorem State.withHostRecord_hLen : (s.withHostRecord h).hLen = s.hLen := rfl
@[simp] theorem State.withHostRecord_squishCount : (s.withHostRecord h).squishCount = s.squishCount := rfl
@[simp] theorem State.withHostRecord_cipherReady : (s.withHostRecord h).cipherReady = s.cipherReady := rfl

theorem State.withHostRecord_spInit : (s.withHostRecord h).spInit = s.spInit.withHostRecord h := rfl

theorem State.withHostRecord_spPermute : (s.withHostRecord h).spPermute = s.spPermute.withHostRecord h := rfl

theorem State.withHostRecord_spAbsorb (b : List Byte) :
    (s.withHostRecord h).spAbsorb b = (s.spAbsorb b).withHostRecord h := by
  rw [State.spAbsorb, State.spAbsorb, ← State.withHostRecord_spPermute]
  rfl

theorem State.withHostRecord_spAbsorbAll (bs : List (List Byte)) :
    (s.withHostRecord h).spAbsorbAll bs = (s.spAbsorbAll bs).withHostRecord h := by
  induction bs generalizing s with
  | nil => rfl
  | cons b bs ih => rw [State.spAbsorbAll_cons, State.spAbsorbAll_cons, State.withHostRecord_spAbsorb, ih]

theorem State.withHostRecord_spSqueeze (n : Nat) :
    (s.withHostRecord h).spSqueeze n = (s.spSqueeze n).withHostRecord h := by
  induction n generalizing s with
  | zero => rfl
  | succ n ih => rw [State.spSqueeze_succ, State.spSqueeze_succ, State.withHostRecord_spPermute, ih]

theorem State.withHostRecord_spHash (msg : List Byte) :
    (s.withHostRecord h).spHash msg = (s.spHash msg).withHostRecord h := by
  simp only [State.spHash, State.withHostRecord_spInit, State.withHostRecord_spAbsorbAll,
    State.withHostRecord_spSqueeze, State.withHostRecord_hLen, State.withHostRecord_params,
    State.withHostRecord_squishCount]

end WithHostRecord

/-- Two results that differ in the host's record alone, the second having that of `h`. -/
def AlikeBut (h : State) (r r' : Result) : Prop := ∃ t, r = .next t ∧ r' = .next (t.withHostRecord h)

namespace AlikeBut

variable {s t h : State} {r r' : Result} {c : Cause}

theorem fault : AlikeBut h (raise c s) (raise c (s.withHostRecord h)) := ⟨_, rfl, rfl⟩

theorem complete : AlikeBut h (succeed t) (succeed (t.withHostRecord h)) := ⟨_, rfl, rfl⟩

/-- A check of a command that does not look at the host's record. -/
theorem check {p : Prop} [Decidable p] (hr : AlikeBut h r r') :
    AlikeBut h (if p then raise c s else r) (if p then raise c (s.withHostRecord h) else r') := by
  split
  · exact fault
  · exact hr

end AlikeBut

theorem execMrwit_alike (rn rbase : BigReg) (s h : State) :
    AlikeBut h (execMrwit rn rbase s) (execMrwit rn rbase (s.withHostRecord h)) := by
  simp only [execMrwit, State.withHostRecord_big]
  cases mrPrecheck (s.big rn) with
  | some p => exact .complete
  | none => exact .check .complete

theorem execMrtest_alike (rn : BigReg) (iters : Byte) (s h : State) :
    AlikeBut h (execMrtest rn iters s) (execMrtest rn iters (s.withHostRecord h)) := by
  simp only [execMrtest, State.withHostRecord_big, State.withHostRecord_xsv]
  cases mrPrecheck (s.big rn) with
  | some p => exact .check .complete
  | none => exact .check .complete

theorem execHash_alike (sDst sSrc sLen : ScalReg) (s h : State) :
    AlikeBut h (execHash sDst sSrc sLen s) (execHash sDst sSrc sLen (s.withHostRecord h)) := by
  have hhash := s.withHostRecord_spHash h (s.load (s.scalNat sSrc) (s.scalNat sLen))
  exact .check (.check ⟨_, rfl, congrArg (fun t => succeed (State.store t (s.scalNat sDst) t.digest)) hhash⟩)

theorem execBlkenc_alike (rd ra : BigReg) (s h : State) :
    AlikeBut h (execBlkenc rd ra s) (execBlkenc rd ra (s.withHostRecord h)) := by
  simp only [execBlkenc, State.withHostRecord_cipherReady]
  cases s.cipherReady with
  | some c => exact .fault
  | none => exact .complete

theorem execBlkdec_alike (rd ra : BigReg) (s h : State) :
    AlikeBut h (execBlkdec rd ra s) (execBlkdec rd ra (s.withHostRecord h)) := by
  simp only [execBlkdec, State.withHostRecord_cipherReady]
  cases s.cipherReady with
  | some c => exact .fault
  | none => exact .complete

theorem execEnc_alike (sDst sSrc sLen : ScalReg) (mode : Mode) (s h : State) :
    AlikeBut h (execEnc sDst sSrc sLen mode s) (execEnc sDst sSrc sLen mode (s.withHostRecord h)) := by
  simp only [execEnc, State.withHostRecord_cipherReady]
  cases s.cipherReady with
  | some c => exact .fault
  | none => exact .check .complete

theorem execDec_alike (sDst sSrc sLen : ScalReg) (mode : Mode) (s h : State) :
    AlikeBut h (execDec sDst sSrc sLen mode s) (execDec sDst sSrc sLen mode (s.withHostRecord h)) := by
  simp only [execDec, State.withHostRecord_cipherReady]
  cases s.cipherReady with
  | some c => exact .fault
  | none => exact .check (.check .complete)

/-- What a command does is a function of the state without the host's record. -/
theorem exec_alike (i : Instr) (s h : State) : AlikeBut h (exec i s) (exec i (s.withHostRecord h)) := by
  cases i with
  | nop | keyld ra => exact .complete
  | modmul rd ra rb rm | modexp rd ra rb rm | xgcd rd ra rb | prseed ra | prnext rd | ksnext sd | spinit | spperm
  | keyks | keyrd rd => exact .check .complete
  | ldr rd sSrc sLen | str sDst ra sLen | modinv rd ra rm | ksinit sKey sLen sN | ksbytes sDst sLen
  | ksciph sDst sSrc sLen | ksperm sDst | spabsb sSrc | spout sDst => exact .check (.check .complete)
  | mrwit rn rbase => exact execMrwit_alike rn rbase s h
  | mrtest rn iters => exact execMrtest_alike rn iters s h
  | hash sDst sSrc sLen => exact execHash_alike sDst sSrc sLen s h
  | sbload box => cases box <;> exact .check (.check .complete)
  | blkenc rd ra => exact execBlkenc_alike rd ra s h
  | blkdec rd ra => exact execBlkdec_alike rd ra s h
  | enc sDst sSrc sLen mode => exact execEnc_alike sDst sSrc sLen mode s h
  | dec sDst sSrc sLen mode => exact execDec_alike sDst sSrc sLen mode s h

theorem State.engineTurn_alike {s : State} (hbusy : s.busy = true) (h : State) :
    AlikeBut h s.engineTurn (s.withHostRecord h).engineTurn := by
  cases hdec : decode s.cmdLatch with
  | error x =>
    rw [State.engineTurn_of_illegal hbusy hdec, State.engineTurn_of_illegal (s := s.withHostRecord h) hbusy hdec]
    exact ⟨_, rfl, rfl⟩
  | ok i =>
    rw [State.engineTurn_of_decoded hbusy hdec, State.engineTurn_of_decoded (s := s.withHostRecord h) hbusy hdec]
    exact exec_alike i s h

/-! ## A transaction made while BUSY changes the host's record alone (R304, R70) -/

/-- The state `t` is `s` but for the host's record. -/
def State.DiffersInHostRecord (s t : State) : Prop := t = s.withHostRecord t

theorem State.DiffersInHostRecord.respond {s t : State} (h : s.DiffersInHostRecord t) (r : BusResponse) :
    s.DiffersInHostRecord (t.respond r) :=
  congrArg (State.respond · r) h

theorem State.hostRead_differs (s : State) (addr : BitVec 16) : s.DiffersInHostRecord (s.hostRead addr) := by
  unfold State.hostRead
  split
  · rfl
  · split <;> rfl

theorem State.hostOtherWidth_differs (s : State) (isWrite : Bool) :
    s.DiffersInHostRecord (s.hostOtherWidth isWrite) := by
  unfold State.hostOtherWidth
  split <;> rfl

section Busy

variable {s : State} (hinv : s.Inv) (hbusy : s.busy = true)

include hinv hbusy

/-- While BUSY, DONE and ERR are 0, so a write to STATUS can clear OVR alone. -/
theorem State.clearStatus_differs (w : Word) : s.DiffersInHostRecord (s.clearStatus w) := by
  obtain ⟨hdone, herr⟩ := hinv.busy hbusy
  rw [State.clearStatus_eq]
  simp [State.DiffersInHostRecord, State.withHostRecord, hdone, herr]

theorem State.poke_differs (r : Target) (d : Word) : s.DiffersInHostRecord (s.poke r d) := by
  cases r with
  | id | fault | fcmd | ksst | ivlo | ivhi | capw | capdm | ien => rfl
  | cmd =>
    rw [State.poke, State.issue_of_blocked (.inl hbusy)]
    rfl
  | status => exact State.clearStatus_differs hinv hbusy d
  | hcfg | scal k | bigWord k j | dmWord a =>
    rw [State.poke, State.unlessBusy_of_busy hbusy]
    rfl

theorem State.hostWrite_differs (addr : BitVec 16) (d : Word) : s.DiffersInHostRecord (s.hostWrite addr d) := by
  unfold State.hostWrite
  split
  · rfl
  next r _ => exact (State.poke_differs hinv hbusy r d).respond _

theorem State.event_differs {e : Event} (hengine : e ≠ .engine) (hreset : e ≠ .reset) :
    ∃ t, s.event e = .next t ∧ s.DiffersInHostRecord t := by
  cases e with
  | read addr => exact ⟨_, rfl, s.hostRead_differs addr⟩
  | write addr d => exact ⟨_, rfl, State.hostWrite_differs hinv hbusy addr d⟩
  | otherWidth isWrite addr => exact ⟨_, rfl, s.hostOtherWidth_differs isWrite⟩
  | engine => exact absurd rfl hengine
  | reset => exact absurd rfl hreset

end Busy

/-- Settles O13: the transaction leaves the state but for the host's record, which the command does not see. -/
theorem hostCannotDisturbCommand : Obligations.HostCannotDisturbCommand := by
  intro s e rest hinv hbusy hengine hreset
  obtain ⟨a, ha, hdiff⟩ := State.event_differs (hinv.setPending (.engine :: rest)) hbusy hengine hreset
  obtain ⟨v, hv, hu⟩ := State.engineTurn_alike (s := { s with pending := rest }) hbusy a
  have hturn : step a = State.engineTurn (State.withHostRecord { s with pending := rest } a) := congrArg step hdiff
  exact ⟨a, v.withHostRecord a, v, ha, hturn.trans hu, hv, rfl⟩

end Sys2Proof.Machine
